-- ==== Sys2Proof/Word.lean ====
section
/-! DEFINITION. The machine's value types: the 32-bit word of 00_scope.md section 5.1, the 8-bit
sample of 20_memory.md R51, and two plain containers (four values by phase, three values by channel). -/

namespace Sys2Proof

/-- "Every value is a 32-bit two's-complement signed integer unless its width is stated"
(00_scope.md section 5.1). -/
abbrev Word := BitVec 32

/-- A SignalBuffer sample: 8 bits, two's complement (20_memory.md R51). -/
abbrev Sample := BitVec 8

/-- Four values, one per subcarrier phase: `cc[0..3]`, `CCREF0..3`, `wave[0..3]`. -/
structure Quad (α : Type) where
  p0 : α
  p1 : α
  p2 : α
  p3 : α
deriving DecidableEq, Repr

/-- Three values, one per signal channel: the filter files of 10_state.md R30 and R31 and the
`(y, i, q)` triples of R33. -/
structure PerChannel (α : Type) where
  y : α
  i : α
  q : α
deriving DecidableEq, Repr

end Sys2Proof
end

