-- ==== Sys2Proof/Config.lean ====
section
/-! DEFINITION. What an implementation fixes: the configuration record `Cfg` of 00_scope.md section 4.2,
and the free values the spec leaves open (opaque constants: nothing can be proved of their value).
The record's default values stand in Machine/Params.lean. -/

namespace Sys2Proof

/-- `PIXEL_BYTE_ORDER` (20_memory.md R57): which byte of a pixel word lies lowest when the platform's
memory behind XMEM is byte-addressed. No rule of a command reads it. -/
inductive PixelByteOrder where
  | little
  | big
deriving DecidableEq, Repr

/-- The configuration record `Cfg` (00_scope.md section 4.2 and R1). Sizes and line and column
numbers are counts (`Nat`); what enters 32-bit arithmetic is a `Word`. -/
structure Cfg where
  /-- `CRT_CB_FREQ`: samples per subcarrier cycle. -/
  crtCbFreq : Nat
  /-- `CRT_HRES`: samples per line. -/
  crtHres : Nat
  /-- `CRT_VRES`: lines per field. -/
  crtVres : Nat
  /-- `CRT_TOP`: first line that carries active video. -/
  crtTop : Nat
  /-- `CRT_BOT`: one past the last active line. -/
  crtBot : Nat
  /-- `CRT_LINES`. -/
  crtLines : Nat
  hsyncWindow : Nat
  vsyncWindow : Nat
  prevEInit : Word
  /-- `SINTAB[0..17]`: 18 entries of 16 bits, unsigned (40_fixedmath.md R90). -/
  sintab : List (BitVec 16)
  /-- `EXPTAB[0..4]` (40_fixedmath.md R94). -/
  exptab : List Word
  expPi : Word
  lFreq : Word
  yFreq : Word
  iFreq : Word
  qFreq : Word
  pixelByteOrder : PixelByteOrder
deriving DecidableEq, Repr

/-- FREE VALUE. `OOB_SRC` (43_encoder.md R137, 92_eei_decisions.md D23, 93_implementation_defined.md U3):
the word a read of source row `h` returns where nobody has written that word, a fresh unconstrained value per read.
The argument is `State.oobCount`, which every such read advances. Log entry 3. -/
opaque Config.oobSrc : Nat → BitVec 32

/-- FREE VALUE. What an XMEM word that neither the host nor NCC has written reads as (20_memory.md R66,
93_implementation_defined.md U4), by its word address. Log entry 4. -/
opaque Config.xmemUnwritten : Nat → BitVec 32

end Sys2Proof
end

