-- ==== Sys2Proof/Syntax.lean ====
section
/-! DEFINITION. The sixteen commands of 30_encoding.md R73, one constructor per row of the opcode table.
Operands are in the `ARG` registers, so a command carries only its `sel` field (R71, R74). -/

namespace Sys2Proof

/-- A filter instance, selected by `sel` = 0, 1, 2 (30_encoding.md R74). -/
inductive Channel where
  | y
  | i
  | q
deriving DecidableEq, Repr

/-- A SignalBuffer memory, selected by `sel` = 0, 1 (30_encoding.md R74, R78). -/
inductive SigBuf where
  | analog
  | inp
deriving DecidableEq, Repr

/-- A command. -/
inductive Instr where
  | nop
  | sincos14
  | expx
  | iirInit (k : Channel)
  | iirReset (k : Channel)
  | iirStep (k : Channel)
  | eqInit (k : Channel)
  | eqReset (k : Channel)
  | eqStep (k : Channel)
  | crtInit
  | crtResize
  | crtReset
  | encode
  | decode
  | rdsig (buf : SigBuf)
  | wrsig (buf : SigBuf)
deriving DecidableEq, Repr

end Sys2Proof
end

