-- ==== Sys2Proof/WellFormed.lean ====
section
/-! DEFINITION. Which terms of `Instr` are legal commands. The types already rule out every `sel` that
30_encoding.md R74 forbids but one: the assembler syntax of R78 writes `.ANALOG` and `.INP` for both
RDSIG and WRSIG, and WRSIG allows ANALOG only. -/

namespace Sys2Proof

/-- R74: "For WRSIG: 0 = ANALOG only." Every other term is legal as written. -/
def Instr.wellFormed : Instr → Bool
  | .nop => true
  | .sincos14 => true
  | .expx => true
  | .iirInit _ => true
  | .iirReset _ => true
  | .iirStep _ => true
  | .eqInit _ => true
  | .eqReset _ => true
  | .eqStep _ => true
  | .crtInit => true
  | .crtResize => true
  | .crtReset => true
  | .encode => true
  | .decode => true
  | .rdsig _ => true
  | .wrsig buf => buf == .analog

end Sys2Proof
end

