-- ==== Sys2Proof/Decode.lean ====
section
/-! DEFINITION. The decoding procedure of 30_encoding.md R77, total on all 2^32 words and rejecting by
name, and the encoder of R71, R73 and R78. -/

namespace Sys2Proof

/-- Why a command word is illegal (30_encoding.md R76). Each cause sets `STATUS.ERR_ILL`. -/
inductive DecodeError where
  /-- `W[31:12] ≠ 0`. -/
  | zeroField
  /-- `W[7:0]` is none of the sixteen opcodes. -/
  | unknownOpcode
  /-- `W[11:8]` is not allowed for the opcode (R74). -/
  | selNotAllowed
deriving DecidableEq, Repr

/-- The `opcode` field, bits 7:0 (R71). -/
def opcodeField (w : Word) : BitVec 8 := w.extractLsb' 0 8

/-- The `sel` field, bits 11:8 (R71). -/
def selField (w : Word) : BitVec 4 := w.extractLsb' 8 4

/-- The `zero` field, bits 31:12 (R71). -/
def zeroField (w : Word) : BitVec 20 := w.extractLsb' 12 20

/-- `sel` must be 0 (R74, "for every other command"). -/
def withoutSel (i : Instr) (sel : BitVec 4) : Except DecodeError Instr :=
  if sel = 0#4 then .ok i else .error .selNotAllowed

/-- `sel` names a filter instance: 0, 1, 2 (R74). -/
def withChannel (mk : Channel → Instr) (sel : BitVec 4) : Except DecodeError Instr :=
  if sel = 0#4 then .ok (mk .y)
  else if sel = 1#4 then .ok (mk .i)
  else if sel = 2#4 then .ok (mk .q)
  else .error .selNotAllowed

/-- `sel` names a SignalBuffer memory: 0, 1 (R74, RDSIG). -/
def withSigBuf (mk : SigBuf → Instr) (sel : BitVec 4) : Except DecodeError Instr :=
  if sel = 0#4 then .ok (mk .analog)
  else if sel = 1#4 then .ok (mk .inp)
  else .error .selNotAllowed

/-- The opcode map of R73, with the `sel` check of R74. -/
def decodeOpcode (opcode : BitVec 8) (sel : BitVec 4) : Except DecodeError Instr :=
  match opcode.toNat with
  | 0x00 => withoutSel .nop sel
  | 0x01 => withoutSel .sincos14 sel
  | 0x02 => withoutSel .expx sel
  | 0x10 => withChannel .iirInit sel
  | 0x11 => withChannel .iirReset sel
  | 0x12 => withChannel .iirStep sel
  | 0x18 => withChannel .eqInit sel
  | 0x19 => withChannel .eqReset sel
  | 0x1A => withChannel .eqStep sel
  | 0x20 => withoutSel .crtInit sel
  | 0x21 => withoutSel .crtResize sel
  | 0x22 => withoutSel .crtReset sel
  | 0x30 => withoutSel .encode sel
  | 0x31 => withoutSel .decode sel
  | 0x40 => withSigBuf .rdsig sel
  | 0x41 => withoutSel (.wrsig .analog) sel
  | _ => .error .unknownOpcode

/-- R77: the `zero` field is checked first, then the opcode, then `sel`. -/
def decode (w : Word) : Except DecodeError Instr :=
  if zeroField w ≠ 0#20 then .error .zeroField
  else decodeOpcode (opcodeField w) (selField w)

/-- The `sel` value of a filter instance (R74). -/
def channelSel : Channel → BitVec 4
  | .y => 0#4
  | .i => 1#4
  | .q => 2#4

/-- The `sel` value of a SignalBuffer memory (R74). -/
def sigBufSel : SigBuf → BitVec 4
  | .analog => 0#4
  | .inp => 1#4

/-- The opcode of each command (R73). -/
def opcodeOf : Instr → BitVec 8
  | .nop => 0x00#8
  | .sincos14 => 0x01#8
  | .expx => 0x02#8
  | .iirInit _ => 0x10#8
  | .iirReset _ => 0x11#8
  | .iirStep _ => 0x12#8
  | .eqInit _ => 0x18#8
  | .eqReset _ => 0x19#8
  | .eqStep _ => 0x1A#8
  | .crtInit => 0x20#8
  | .crtResize => 0x21#8
  | .crtReset => 0x22#8
  | .encode => 0x30#8
  | .decode => 0x31#8
  | .rdsig _ => 0x40#8
  | .wrsig _ => 0x41#8

/-- The `sel` field of each command (R74). -/
def selOf : Instr → BitVec 4
  | .nop => 0#4
  | .sincos14 => 0#4
  | .expx => 0#4
  | .iirInit k => channelSel k
  | .iirReset k => channelSel k
  | .iirStep k => channelSel k
  | .eqInit k => channelSel k
  | .eqReset k => channelSel k
  | .eqStep k => channelSel k
  | .crtInit => 0#4
  | .crtResize => 0#4
  | .crtReset => 0#4
  | .encode => 0#4
  | .decode => 0#4
  | .rdsig buf => sigBufSel buf
  | .wrsig buf => sigBufSel buf

/-- "The command word of `CMD m.s` is `opcode(m) | (s ≪ 8)`" (R78); bits 31:12 are 0 (R71). -/
def encode (i : Instr) : Word :=
  (opcodeOf i).setWidth 32 ||| ((selOf i).setWidth 32 <<< 8)

/-- The command the decoder reads from a table row's bits. A command is one 32-bit word (R70), so a
row wider than that has no command, and the bits above `nbits` are 0. -/
def decodeTableWord (nbits w : Nat) : Option Instr :=
  if nbits ≤ 32 then (decode (BitVec.ofNat 32 (w % 2 ^ nbits))).toOption else none

end Sys2Proof
end

