-- ==== Sys2Proof/Machine/Params.lean ====
section
/-! DEFINITION. The constants the document fixes (00_scope.md section 4.1) and the default configuration
(section 4.2), which "this spec fixes for the hardware". -/

namespace Sys2Proof.Machine

/-- `LINE_ns` (00_scope.md section 4.1). -/
def lineNs : Nat := 63500
/-- Front porch, sync tip, breezeway, colour burst, back porch, active video, in ns. -/
def fpNs : Nat := 1500
def syncNs : Nat := 4700
def bwNs : Nat := 600
def cbNs : Nat := 2500
def bpNs : Nat := 1600
def avNs : Nat := 52600

/-- The IRE levels. -/
def whiteLevel : Word := 100#32
def burstLevel : Word := 20#32
def blackLevel : Word := 7#32
def blankLevel : Word := 0#32
def syncLevel : Word := -40#32

/-- `CB_CYCLES`. -/
def cbCycles : Nat := 10

/-- `cc[0..3]`, the four-sample colour-carrier sequence (10_state.md R34). -/
def carrier : Quad Word := ⟨0#32, 1#32, 0#32, -1#32⟩

/-- `EXP_ONE`: 1.0 in Q11 (40_fixedmath.md R94). -/
def expOne : Word := 2048#32

/-- The tuning defaults (10_state.md R24). -/
def defaultSaturation : Word := 18#32
def defaultBrightness : Word := 0#32
def defaultContrast : Word := 179#32
def defaultBlackPoint : Word := 0#32
def defaultWhitePoint : Word := 100#32

/-- The LCG of 44_decoder.md R161. -/
def lcgMul : Word := 214019#32
def lcgInc : Word := 140327895#32
def rnInit : Word := 194#32

/-- The default configuration (00_scope.md section 4.2; 40_fixedmath.md R90, R94). -/
def cfg : Cfg where
  crtCbFreq := 4
  crtHres := 910
  crtVres := 262
  crtTop := 21
  crtBot := 261
  crtLines := 240
  hsyncWindow := 8
  vsyncWindow := 8
  prevEInit := 2048#32
  sintab := [0x0000#16, 0x0C88#16, 0x18F8#16, 0x2528#16, 0x30F8#16, 0x3C50#16, 0x4718#16, 0x5130#16,
    0x5A80#16, 0x62F0#16, 0x6A68#16, 0x70E0#16, 0x7640#16, 0x7A78#16, 0x7D88#16, 0x7F60#16, 0x8000#16,
    0x7F60#16]
  exptab := [2048#32, 5567#32, 15133#32, 41135#32, 111817#32]
  expPi := 6434#32
  lFreq := 1431818#32
  yFreq := 420000#32
  iFreq := 150000#32
  qFreq := 55000#32
  pixelByteOrder := .little

end Sys2Proof.Machine
end

