-- ==== Sys2Proof/Machine/Arith.lean ====
section
/-! DEFINITION. The arithmetic laws of 00_scope.md R4 to R8. Sums, differences and products are
`BitVec 32` operations, which wrap as R4 says. -/

namespace Sys2Proof.Machine

/-- `a ≫ k`, the flooring right shift (R5). -/
def sar (a : Word) (k : Nat) : Word := a.sshiftRight k

/-- `a ≪ k` (R5). -/
def shl (a : Word) (k : Nat) : Word := a <<< k

/-- `a / b`: truncating, `−2^31 / −1 = −2^31`, and 0 when `b = 0` (R6). -/
def tdiv (a b : Word) : Word := a.sdiv b

/-- Whether a division by `b` sets `STATUS.DIVZ` (R6, 60_exceptions.md R224). -/
def divides0 (b : Word) : Bool := b == 0#32

/-- `pmod(a, m)` for `m > 0`: the non-negative remainder of the signed value (R7). -/
def pmod (a : Word) (m : Nat) : Nat := (a.toInt % (m : Int)).toNat

/-- `pmod` as a 32-bit register value. -/
def pmodWord (a : Word) (m : Nat) : Word := BitVec.ofNat 32 (pmod a m)

/-- `clamp(v, lo, hi)` (R8). -/
def clamp (v lo hi : Word) : Word :=
  if v.slt lo then lo else if hi.slt v then hi else v

/-- `sext_8` of a stored sample (20_memory.md R51). -/
def sext8 (b : Sample) : Word := b.signExtend 32

/-- `v[7:0]`, what a store of `v` to a sample keeps (20_memory.md R51). -/
def low8 (v : Word) : Sample := v.setWidth 8

/-- A count or index as a 32-bit value. -/
def ofCount (n : Nat) : Word := BitVec.ofNat 32 n

/-- A 32-bit value as a loop count: a negative value gives an empty loop (00_scope.md section 5.3). -/
def countOf (w : Word) : Nat := w.toInt.toNat

/-- `q[n & 3]`. -/
def quadAt (q : Quad α) (n : Nat) : α :=
  match n % 4 with
  | 0 => q.p0
  | 1 => q.p1
  | 2 => q.p2
  | _ => q.p3

/-- `q[n & 3] <- v`. -/
def quadPut (q : Quad α) (n : Nat) (v : α) : Quad α :=
  match n % 4 with
  | 0 => { q with p0 := v }
  | 1 => { q with p1 := v }
  | 2 => { q with p2 := v }
  | _ => { q with p3 := v }

/-- The instance `sel` names (30_encoding.md R74). -/
def channelGet (f : PerChannel α) : Channel → α
  | .y => f.y
  | .i => f.i
  | .q => f.q

/-- The file with the instance `sel` names replaced. -/
def channelSet (f : PerChannel α) (k : Channel) (v : α) : PerChannel α :=
  match k with
  | .y => { f with y := v }
  | .i => { f with i := v }
  | .q => { f with q := v }

end Sys2Proof.Machine
end

