-- ==== Sys2Proof/Machine/Geometry.lean ====
section
/-! DEFINITION. What is derived from the configuration record: the legality constraints of 00_scope.md
R1, the line geometry of R2, the picture rectangle of R3, `pct` (43_encoder.md) and `kHz2L` (42_eq.md R124). -/

namespace Sys2Proof.Machine

/-- `ns2pos(ns) = (ns · CRT_HRES) / LINE_ns` (R2). -/
def ns2pos (c : Cfg) (ns : Nat) : Nat := ns * c.crtHres / lineNs

/-- The begin offsets of R2: the durations of the regions before each. -/
def fpBeg (c : Cfg) : Nat := ns2pos c 0
def syncBeg (c : Cfg) : Nat := ns2pos c fpNs
def bwBeg (c : Cfg) : Nat := ns2pos c (fpNs + syncNs)
def cbBeg (c : Cfg) : Nat := ns2pos c (fpNs + syncNs + bwNs)
def bpBeg (c : Cfg) : Nat := ns2pos c (fpNs + syncNs + bwNs + cbNs)
def avBeg (c : Cfg) : Nat := ns2pos c (fpNs + syncNs + bwNs + cbNs + bpNs)

/-- `AV_LEN` (R2). -/
def avLen (c : Cfg) : Nat := ns2pos c avNs

/-- `CRT_INPUT_SIZE` (R2). -/
def inputSize (c : Cfg) : Nat := c.crtHres * c.crtVres

/-- One past the last sample of the colour burst (43_encoder.md R135). -/
def cbEnd (c : Cfg) : Nat := cbBeg c + cbCycles * c.crtCbFreq

/-- `destw`, `desth`, `xo`, `yo` (R3). -/
def destw (c : Cfg) : Nat := avLen c * 55500 / 65536
def desth (c : Cfg) : Nat := c.crtLines * 63500 / 65536
def xo (c : Cfg) : Nat := (avBeg c + 4 + (avLen c - destw c) / 2) / 4 * 4
def yo (c : Cfg) : Nat := c.crtTop + 4 + (c.crtLines - desth c) / 2

/-- `pct(p) = (p · CRT_HRES) / 100`, a percent-of-line boundary (43_encoder.md). -/
def pct (c : Cfg) (p : Nat) : Nat := p * c.crtHres / 100

/-- `kHz2L(k) = (CRT_HRES · (k · 100)) / L_FREQ` (42_eq.md R124). -/
def kHz2L (c : Cfg) (k : Word) : Word := tdiv (ofCount c.crtHres * (k * 100#32)) c.lFreq

/-- A legal configuration (R1). -/
abbrev legalCfg (c : Cfg) : Prop :=
  c.crtCbFreq = 4 ∧ c.crtHres = 2275 * c.crtCbFreq / 10 ∧
  10 ≤ c.crtTop ∧ c.crtTop < c.crtBot ∧ c.crtBot ≤ c.crtVres ∧
  c.crtLines = c.crtBot - c.crtTop ∧
  1 ≤ c.hsyncWindow ∧ c.hsyncWindow ≤ syncBeg c ∧
  1 ≤ c.vsyncWindow ∧ 2 * c.vsyncWindow ≤ c.crtVres ∧
  1 ≤ destw c ∧ 1 ≤ desth c ∧
  yo c + desth c ≤ c.crtVres ∧ xo c + destw c ≤ c.crtHres ∧
  c.crtHres * c.crtVres < 2 ^ 31

end Sys2Proof.Machine
end

