-- ==== Sys2Proof/Machine/State.lean ====
section
/-! DEFINITION. The machine's state as plain data (10_state.md), the host operations that drive it
(30_encoding.md R78), and the names of the ways a step can stop. -/

namespace Sys2Proof.Machine

/-- A SignalBuffer memory that holds values: (index, sample) cells in one canonical form, addresses
strictly rising and no cell equal to the 0 an unlisted index reads as (what CRT_INIT wrote there,
45_control.md R200). -/
abbrev Memory := List Host.Cell

/-- The scratch memory (10_state.md R33): (index, triple) cells in the same canonical form. -/
abbrev Scratch := List (Nat × PerChannel Word)

/-- XMEM (20_memory.md R53): (word address, word) cells, addresses strictly rising. An unlisted address
is a word nobody has written (R66). -/
abbrev XMem := List (Nat × BitVec 32)

/-- The operand registers `ARG0` to `ARG5` (10_state.md R20). -/
structure Args where
  a0 : Word
  a1 : Word
  a2 : Word
  a3 : Word
  a4 : Word
  a5 : Word
deriving DecidableEq, Repr

/-- The stored fields of `STATUS` (10_state.md R23); `INITD` is `State.initd`. -/
structure StatusFlags where
  busy : Bool
  errIll : Bool
  errSeq : Bool
  errArg : Bool
  errBusy : Bool
  divz : Bool
deriving DecidableEq, Repr

/-- The sticky bits of `STATUS` (60_exceptions.md R221, R223, R224). -/
inductive StickyFlag where
  | ill
  | seq
  | arg
  | busy
  | divz
deriving DecidableEq, Repr

/-- The tuning registers (10_state.md R24). -/
structure Tuning where
  saturation : Word
  brightness : Word
  contrast : Word
  blackPoint : Word
  whitePoint : Word
deriving DecidableEq, Repr

/-- One IIR instance: coefficient `c` (Q11) and accumulator `h` (10_state.md R30). -/
structure IirUnit where
  c : Word
  h : Word
deriving DecidableEq, Repr

/-- A four-stage cascade `fL[0..3]` or `fH[0..3]` (10_state.md R31). -/
structure Cascade where
  s0 : Word
  s1 : Word
  s2 : Word
  s3 : Word
deriving DecidableEq, Repr

/-- One equalizer instance (10_state.md R31): coefficients, gains `g[0..2]`, the two cascades and the
delay line, `h0` the newest sample and `h2` the oldest. -/
structure EqUnit where
  lf : Word
  hf : Word
  g0 : Word
  g1 : Word
  g2 : Word
  fL : Cascade
  fH : Cascade
  h0 : Word
  h1 : Word
  h2 : Word
deriving DecidableEq, Repr

/-- The memories inside NCC (10_state.md R32, R33), all three of which CRT_INIT gives values at once. -/
structure SignalBuffers where
  analog : Memory
  inp : Memory
  scratch : Scratch
deriving DecidableEq, Repr

/-- What the outside world does to NCC: the host's bus accesses and its own XMEM accesses
(30_encoding.md R78), and the reset input (70_reset_and_hazards.md R240). `bytes` is the width of a bus
access; the register map has whole 32-bit words only (10_state.md R36). -/
inductive HostOp where
  | busWrite (offset : Word) (bytes : Nat) (data : Word)
  | busRead (offset : Word) (bytes : Nat)
  | xmemWrite (addr data : Word)
  | xmemRead (addr : Word)
  | hwReset
deriving DecidableEq, Repr

/-- The whole machine. Every field down to `xmem` is the spec's; `oobCount`, `hostOps` and `observed`
are the model's own (log entries 3 and 2). -/
structure State where
  /-- `CMD`: the last word written to it (10_state.md R22). -/
  cmd : Word
  args : Args
  /-- `RES0`, `RES1` (R21). -/
  res0 : Word
  res1 : Word
  flags : StatusFlags
  tuning : Tuning
  /-- `HSYNC`, `VSYNC` (R25). -/
  hsync : Word
  vsync : Word
  /-- `OUTW`, `OUTH`, `OUT_BASE` (R26). -/
  outw : Word
  outh : Word
  outBase : Word
  /-- `RN` (R27). -/
  rn : Word
  /-- `FIELD_DET` (R28). -/
  fieldDet : BitVec 1
  /-- `CCREF0` to `CCREF3` (R29). -/
  ccref : Quad Word
  /-- The IIR file (R30). -/
  iir : PerChannel IirUnit
  /-- The EQ file (R31). -/
  eq : PerChannel EqUnit
  /-- ANALOG, INP and SCRATCH; `none` while they "hold no value" (R38), from hardware reset to CRT_INIT. -/
  signal : Option SignalBuffers
  /-- The external pixel memory (20_memory.md R53). -/
  xmem : XMem
  /-- How many `OOB_SRC` values have been drawn, by reads of unwritten words of source row `h`: the argument of the
  next `Config.oobSrc`. -/
  oobCount : Nat
  /-- What the host will do next, first operation first. -/
  hostOps : List HostOp
  /-- What the host has read so far, the latest value first. -/
  observed : List Word
deriving DecidableEq, Repr

/-- Why the machine stops. No command of NCC faults: every abnormal condition of a command is a sticky
flag and the machine goes on (60_exceptions.md R220). -/
inductive Fault where
  /-- Raised by a host XMEM access while `STATUS.BUSY = 1`: the race of 70_reset_and_hazards.md R247, to
  which "this spec gives the result of the command no meaning". Safe: the model stops where the
  hardware goes on, and no reachable state has `BUSY = 1` (30_encoding.md R72). -/
  | xmemRace
deriving DecidableEq, Repr

/-- Why the model gives no meaning. -/
inductive Refusal where
  /-- Raised by an arm of `exec` whose instruction has no meaning yet. No arm uses it. Safe. -/
  | notModelled (mnemonic : String)
  /-- Raised by a host register access that is not one whole aligned 32-bit word: its effect "is not
  specified by this spec and a model refuses it" (20_memory.md R58). Safe. -/
  | narrowHostAccess
deriving DecidableEq, Repr

/-- All four of `CCREF`, or any four words, 0. -/
def zeroQuad : Quad Word := ⟨0#32, 0#32, 0#32, 0#32⟩

/-- A cascade after reset. -/
def zeroCascade : Cascade := ⟨0#32, 0#32, 0#32, 0#32⟩

/-- An IIR instance after hardware reset. -/
def zeroIir : IirUnit := ⟨0#32, 0#32⟩

/-- An equalizer instance after hardware reset: all sixteen registers 0. -/
def zeroEq : EqUnit := ⟨0#32, 0#32, 0#32, 0#32, 0#32, zeroCascade, zeroCascade, 0#32, 0#32, 0#32⟩

/-- The "after hardware reset" column of 10_state.md R38: every register 0 but `RN = 194`, the memories
inside NCC without value. XMEM is "whatever the host put there": here, nothing yet. -/
def State.reset : State where
  cmd := 0#32
  args := ⟨0#32, 0#32, 0#32, 0#32, 0#32, 0#32⟩
  res0 := 0#32
  res1 := 0#32
  flags := ⟨false, false, false, false, false, false⟩
  tuning := ⟨0#32, 0#32, 0#32, 0#32, 0#32⟩
  hsync := 0#32
  vsync := 0#32
  outw := 0#32
  outh := 0#32
  outBase := 0#32
  rn := 194#32
  fieldDet := 0#1
  ccref := zeroQuad
  iir := ⟨zeroIir, zeroIir, zeroIir⟩
  eq := ⟨zeroEq, zeroEq, zeroEq⟩
  signal := none
  xmem := []
  oobCount := 0
  hostOps := []
  observed := []

/-- `STATUS.INITD`: "the memories and filters hold values" (10_state.md R23). Log entry 5. -/
abbrev State.initd (s : State) : Bool := s.signal.isSome

end Sys2Proof.Machine
end

