-- ==== Sys2Proof/Machine/Ops.lean ====
section
/-! DEFINITION. The named operations over the memories, and the one operation by which a command reports
an abnormal condition. NCC has no exceptions: 60_exceptions.md R220 gives a sticky flag in their place
(`raise`), and R228 says there is nothing to return from. -/

namespace Sys2Proof.Machine

/-! ## Lists of cells -/

/-- The value listed at an address. -/
def sparseFind : List (Nat × α) → Nat → Option α
  | [], _ => none
  | (k, v) :: m, a => if k = a then some v else sparseFind m a

/-- The list with the value at an address replaced or added in its place. -/
def sparseInsert : List (Nat × α) → Nat → α → List (Nat × α)
  | [], a, x => [(a, x)]
  | (k, v) :: m, a, x =>
    if a < k then (a, x) :: (k, v) :: m
    else if a = k then (a, x) :: m
    else (k, v) :: sparseInsert m a x

/-- The list without the address. -/
def sparseErase (m : List (Nat × α)) (a : Nat) : List (Nat × α) :=
  m.filter (fun p => p.1 ≠ a)

/-- Addresses strictly rising. -/
abbrev keysRise (m : List (Nat × α)) : Prop := m.Pairwise (fun p q => p.1 < q.1)

/-- Every listed address is below `n`. -/
abbrev keysBelow (n : Nat) (m : List (Nat × α)) : Prop := ∀ p ∈ m, p.1 < n

/-- The `n` values at addresses 0 to `n − 1`, `d` where nothing is listed. -/
def toDense (d : α) (n : Nat) (m : List (Nat × α)) : Array α :=
  m.foldl (fun arr p => arr.setIfInBounds p.1 p.2) (Array.replicate n d)

/-- The cells of a dense memory: every value but `d`, with its index. -/
def ofDense [DecidableEq α] (d : α) (arr : Array α) : List (Nat × α) :=
  (arr.toList.zipIdx.filter (fun p => p.1 ≠ d)).map (fun p => (p.2, p.1))

/-! ## The SignalBuffer memories (20_memory.md R50 to R52) -/

/-- The sample at an index. An unlisted index reads as 0, which CRT_INIT stored there (45_control.md
R200). -/
def Memory.read (m : Memory) (i : Nat) : Sample := (sparseFind m i).getD 0#8

/-- A store of a sample. -/
def Memory.write (m : Memory) (i : Nat) (v : Sample) : Memory :=
  if v = 0#8 then sparseErase m i else sparseInsert m i v

/-- The canonical form: addresses strictly rising, no cell holding what an unlisted index reads as. -/
abbrev Memory.wf (m : Memory) : Prop := keysRise m ∧ ∀ p ∈ m, p.2 ≠ 0#8

/-- The memory as `CRT_INPUT_SIZE` samples, the form the frame commands work on. -/
def samplesOf (c : Cfg) (m : Memory) : Array Sample := toDense 0#8 (inputSize c) m

/-- The memory that holds the given samples. -/
def memoryOf (arr : Array Sample) : Memory := ofDense 0#8 arr

/-- `line · CRT_HRES + column` (R50). -/
def sampleIndex (c : Cfg) (line column : Nat) : Nat := line * c.crtHres + column

/-- `SigRead(buf, i) = buf[pmod(i, CRT_INPUT_SIZE)]`, sign-extended (R52). -/
def sigRead (c : Cfg) (buf : Array Sample) (i : Word) : Word :=
  sext8 (buf.getD (pmod i (inputSize c)) 0#8)

/-! ## The scratch memory (10_state.md R33) -/

/-- The triple CRT_INIT puts in every entry. -/
def zeroTriple : PerChannel Word := ⟨0#32, 0#32, 0#32⟩

/-- The triple at an index. -/
def Scratch.read (m : Scratch) (i : Nat) : PerChannel Word := (sparseFind m i).getD zeroTriple

/-- The canonical form of the scratch memory. -/
abbrev Scratch.wf (m : Scratch) : Prop := keysRise m ∧ ∀ p ∈ m, p.2 ≠ zeroTriple

/-- The scratch memory as `AV_LEN + 1` triples. -/
def triplesOf (c : Cfg) (m : Scratch) : Array (PerChannel Word) := toDense zeroTriple (avLen c + 1) m

/-- The scratch memory that holds the given triples. -/
def scratchOf (arr : Array (PerChannel Word)) : Scratch := ofDense zeroTriple arr

/-! ## XMEM (20_memory.md R53, R54, R66) -/

/-- The word last written at an address, if there is one. -/
def XMem.find (m : XMem) (a : Word) : Option Word := sparseFind m a.toNat

/-- `MemRead(addr, 4)`: the word at `addr`; a word nobody has written is a free value (R66). -/
def XMem.read (m : XMem) (a : Word) : Word := (XMem.find m a).getD (Config.xmemUnwritten a.toNat)

/-- `MemWrite(addr, 4, v)`. -/
def XMem.write (m : XMem) (a v : Word) : XMem := sparseInsert m a.toNat v

/-- The canonical form: addresses strictly rising and inside the 2^32 words of R53. (An unlisted word
holds no value, so no cell can equal it.) -/
abbrev XMem.wf (m : XMem) : Prop := keysRise m ∧ keysBelow (2 ^ 32) m

/-- Byte `j` (0 to 3) of a word on a byte-addressed platform: with `little`, the blue byte lies at `4a`
(R57). -/
def wordByte (order : PixelByteOrder) (v : Word) (j : Nat) : BitVec 8 :=
  match order with
  | .little => v.extractLsb' (8 * (j % 4)) 8
  | .big => v.extractLsb' (8 * (3 - j % 4)) 8

/-- The byte a byte-addressed platform shows at a byte address: word address `a` is bytes `4a .. 4a+3`
(R57). No command reads XMEM this way. -/
def XMem.byteAt (order : PixelByteOrder) (m : XMem) (byteAddr : Nat) : BitVec 8 :=
  wordByte order (XMem.read m (ofCount (byteAddr / 4))) byteAddr

/-! ## Sticky flags -/

/-- `raise <Flag>`: set the sticky STATUS flag, and nothing else (00_scope.md section 5.3,
60_exceptions.md R220, R221). -/
def raise (f : StickyFlag) (s : State) : State :=
  match f with
  | .ill => { s with flags := { s.flags with errIll := true } }
  | .seq => { s with flags := { s.flags with errSeq := true } }
  | .arg => { s with flags := { s.flags with errArg := true } }
  | .busy => { s with flags := { s.flags with errBusy := true } }
  | .divz => { s with flags := { s.flags with divz := true } }

/-- `raise` if the condition holds. -/
def raiseIf (b : Bool) (f : StickyFlag) (s : State) : State := if b then raise f s else s

/-- A command that fails a check of 60_exceptions.md R221 "sets that one flag, changes nothing else ...
and ends at once". -/
def refuseWith (f : StickyFlag) (s : State) : Host.Outcome State Fault Refusal := .next (raise f s)

end Sys2Proof.Machine
end

