-- ==== Sys2Proof/Machine/Flags.lean ====
section
/-! DEFINITION. The STATUS register as the host sees it (10_state.md R23): assembled on a read, its error
bits cleared by writing 1. The hardware has no condition codes. -/

namespace Sys2Proof.Machine

/-- A flag at its bit of STATUS. -/
def statusBit (b : Bool) (n : Nat) : Word := if b then 1#32 <<< n else 0#32

/-- STATUS as read: `BUSY`, `INITD`, `ERR_ILL`, `ERR_SEQ`, `ERR_ARG`, `ERR_BUSY`, `DIVZ` in bits 0 to 6;
"every bit not listed reads 0" (R23). -/
def statusWord (s : State) : Word :=
  statusBit s.flags.busy 0 ||| statusBit s.initd 1 ||| statusBit s.flags.errIll 2 |||
  statusBit s.flags.errSeq 3 ||| statusBit s.flags.errArg 4 ||| statusBit s.flags.errBusy 5 |||
  statusBit s.flags.divz 6

/-- A write to STATUS: bits 2 to 6 are write-1-to-clear, every other bit ignores the write (R23). -/
def clearFlags (v : Word) (f : StatusFlags) : StatusFlags :=
  { busy := f.busy
    errIll := f.errIll && !v.getLsbD 2
    errSeq := f.errSeq && !v.getLsbD 3
    errArg := f.errArg && !v.getLsbD 4
    errBusy := f.errBusy && !v.getLsbD 5
    divz := f.divz && !v.getLsbD 6 }

end Sys2Proof.Machine
end

