-- ==== Sys2Proof/Machine/Operands.lean ====
section
/-! DEFINITION. The operands of the commands, read from `ARG0` to `ARG5` "at the moment it starts"
(10_state.md R20), with the legal ranges of 60_exceptions.md R221 (order 3). -/

namespace Sys2Proof.Machine

/-- `v ≥ 1`, signed. -/
def atLeast1 (v : Word) : Bool := (0#32).slt v

/-- `0 ≤ v < n`, signed. -/
def inRange (v : Word) (n : Nat) : Bool := decide (0 ≤ v.toInt) && decide (v.toInt < n)

/-- CRT_INIT and CRT_RESIZE: `outw ≥ 1` and `outh ≥ 1` (45_control.md R200, R201). -/
def rasterArgsOk (s : State) : Bool := atLeast1 s.args.a0 && atLeast1 s.args.a1

/-- RDSIG and WRSIG: line and column inside the buffer (45_control.md R203). -/
def sigArgsOk (c : Cfg) (s : State) : Bool :=
  inRange s.args.a0 c.crtVres && inRange s.args.a1 c.crtHres

/-- The index of the sample `ARG0`, `ARG1` name (45_control.md R203). -/
def sigArgIndex (c : Cfg) (s : State) : Nat := sampleIndex c (countOf s.args.a0) (countOf s.args.a1)

/-- The operands of ENCODE (43_encoder.md R130). -/
structure EncodeArgs where
  src : Word
  w : Word
  h : Word
  /-- `ARG3 & 1`. -/
  field : Word
  /-- `ARG4 ≠ 0`. -/
  color : Bool
deriving DecidableEq, Repr

/-- ENCODE's operands as it takes them (R130). -/
def encodeArgs (s : State) : EncodeArgs :=
  { src := s.args.a0, w := s.args.a1, h := s.args.a2, field := s.args.a3 &&& 1#32,
    color := s.args.a4 != 0#32 }

/-- ENCODE: `w ≥ 1` and `h ≥ 1` (R130). -/
def encodeArgsOk (s : State) : Bool := atLeast1 s.args.a1 && atLeast1 s.args.a2

/-- DECODE's operand as it takes it: `clamp(ARG0, 0, 255)` (44_decoder.md R160). -/
def noiseArg (s : State) : Word := clamp s.args.a0 0#32 255#32

end Sys2Proof.Machine
end

