-- ==== Sys2Proof/Machine/FixedMath.lean ====
section
/-! DEFINITION. 40_fixedmath.md: the sine and cosine interpolator, the exponential, and the commands NOP,
SINCOS14 and EXPX. -/

namespace Sys2Proof.Machine

/-- `SINTAB[i]` as a 32-bit value (R90). -/
def sinEntry (c : Cfg) (i : Nat) : Word := (c.sintab.getD i 0#16).setWidth 32

/-- Table interpolation `sintab(a)` (R91). -/
def sintab (c : Cfg) (a : Word) : Word :=
  let f := a &&& 0xFF#32
  let i := (sar a 8 &&& 0xFF#32).toNat
  let lo := sinEntry c i
  let hi := sinEntry c (i + 1)
  lo + sar ((hi - lo) * f) 8

/-- A sine and a cosine. -/
structure SinCos where
  sin : Word
  cos : Word
deriving DecidableEq, Repr

/-- The half turn at position `h`, 0 to 8191 (R92). -/
def halfTurn (c : Cfg) (h : Word) : SinCos :=
  if (4095#32).slt h then { sin := sintab c (8192#32 - h), cos := -sintab c (h - 4096#32) }
  else { sin := sintab c h, cos := sintab c (4096#32 - h) }

/-- `sincos14(n)` (R92). -/
def sincos14 (c : Cfg) (angle : Word) : SinCos :=
  let n := angle &&& 0x3FFF#32
  let r := halfTurn c (n &&& 0x1FFF#32)
  if (8191#32).slt n then { sin := -r.sin, cos := -r.cos } else r

/-- A quotient, or a result computed from quotients, with whether a division by zero happened (00_scope.md R6). -/
structure Checked where
  val : Word
  divz : Bool
deriving DecidableEq, Repr

/-- `a / b` with its report (R6). -/
def checkedDiv (a b : Word) : Checked := { val := tdiv a b, divz := divides0 b }

/-- `EXP_MUL(x, y) = (x · y) ≫ 11` (R95). -/
def expMul (x y : Word) : Word := sar (x * y) 11

/-- `EXP_DIV(x, y) = (x ≪ 11) / y` (R95). -/
def expDiv (x y : Word) : Checked := checkedDiv (shl x 11) y

/-- `EXPTAB[k]` (R94). -/
def expEntry (c : Cfg) (k : Nat) : Word := c.exptab.getD k 0#32

/-- `repeat n times: res = EXP_MUL(res, EXPTAB[4])` (R95). -/
def expScale (c : Cfg) : Nat → Word → Word
  | 0, res => res
  | n + 1, res => expScale c n (expMul res (expEntry c 4))

/-- The Taylor loop `for i in [i, i + n)` of R95, over the fraction `frac`; the value is `acc` at its end.
`del` is positive at every division, so none of them is by zero. -/
def expTaylor (frac : Word) : Nat → Nat → Word → Word → Word → Word
  | 0, _, _, acc, _ => acc
  | n + 1, i, nxt, acc, del =>
    let acc := acc + tdiv nxt del
    let nxt := expMul nxt frac
    let del := del * ofCount i
    if nxt.slt del || nxt.sle 0#32 || del.sle 0#32 then acc
    else expTaylor frac n (i + 1) nxt acc del

/-- `expx(|n|)`: the positive exponential, for `n` already made positive (R95). -/
def expPositive (c : Cfg) (n : Word) : Word :=
  let idx := sar n 11
  let res := expScale c (countOf (tdiv idx 4#32)) expOne
  let k := (idx &&& 3#32).toNat
  let res := if 0 < k then expMul res (expEntry c k) else res
  expMul res (expTaylor (n &&& 2047#32) 16 1 expOne 0#32 1#32)

/-- `expx(n)` (R95), with the division by zero its reciprocal can make. -/
def expx (c : Cfg) (n : Word) : Checked :=
  if n = 0#32 then { val := expOne, divz := false }
  else if n.slt 0#32 then expDiv expOne (expPositive c (-n))
  else { val := expPositive c n, divz := false }

/-- NOP (R98): "Pseudocode: nothing. It changes no state". -/
def execNop (s : State) : Host.Outcome State Fault Refusal := .next s

/-- SINCOS14 (R92). -/
def execSincos14 (s : State) : Host.Outcome State Fault Refusal :=
  let r := sincos14 cfg s.args.a0
  .next { s with res0 := r.sin, res1 := r.cos }

/-- EXPX (R95). -/
def execExpx (s : State) : Host.Outcome State Fault Refusal :=
  let r := expx cfg s.args.a0
  .next (raiseIf r.divz .divz { s with res0 := r.val })

end Sys2Proof.Machine
end

