-- ==== Sys2Proof/Machine/Iir.lean ====
section
/-! DEFINITION. 41_iir.md: the single-pole IIR low-pass and the commands IIR_INIT, IIR_RESET, IIR_STEP. -/

namespace Sys2Proof.Machine

/-- An instance and whether making it divided by zero. -/
structure IirBuilt where
  unit : IirUnit
  divz : Bool
deriving DecidableEq, Repr

/-- `iir_init(k, freq, limit)` (R110). -/
def iirInit (c : Cfg) (freq limit : Word) : IirBuilt :=
  let rate := checkedDiv (shl freq 9) limit
  let ratio := checkedDiv (shl c.expPi 9) rate.val
  let e := expx c (-ratio.val)
  { unit := { c := expOne - e.val, h := 0#32 }, divz := rate.divz || ratio.divz || e.divz }

/-- `iir_reset(k)` (R111): `h <- 0`, `c` kept. -/
def iirReset (u : IirUnit) : IirUnit := { u with h := 0#32 }

/-- `iir_step(k, s)` (R112); its value is the new `h`. -/
def iirStep (u : IirUnit) (x : Word) : IirUnit := { u with h := u.h + sar ((x - u.h) * u.c) 11 }

/-- IIR_INIT (R110). -/
def execIirInit (k : Channel) (s : State) : Host.Outcome State Fault Refusal :=
  let r := iirInit cfg s.args.a0 s.args.a1
  .next (raiseIf r.divz .divz { s with iir := channelSet s.iir k r.unit })

/-- IIR_RESET (R111). -/
def execIirReset (k : Channel) (s : State) : Host.Outcome State Fault Refusal :=
  .next { s with iir := channelSet s.iir k (iirReset (channelGet s.iir k)) }

/-- IIR_STEP (R112). -/
def execIirStep (k : Channel) (s : State) : Host.Outcome State Fault Refusal :=
  let u := iirStep (channelGet s.iir k) s.args.a0
  .next { s with iir := channelSet s.iir k u, res0 := u.h }

end Sys2Proof.Machine
end

