-- ==== Sys2Proof/Machine/Equalizer.lean ====
section
/-! DEFINITION. 42_eq.md: the three-band equalizer and the commands EQ_INIT, EQ_RESET, EQ_STEP. -/

namespace Sys2Proof.Machine

/-- The operands of `eq_init` (R120). -/
structure EqParams where
  fLo : Word
  fHi : Word
  rate : Word
  gLo : Word
  gMid : Word
  gHi : Word
deriving DecidableEq, Repr

/-- An instance and whether making it divided by zero. -/
structure EqBuilt where
  unit : EqUnit
  divz : Bool
deriving DecidableEq, Repr

/-- A coefficient: `2 · (sn ≪ 1)` for the sine at `(8192 · f) / rate` (R120). -/
def eqCoefficient (c : Cfg) (f rate : Word) : Word :=
  2#32 * shl (sincos14 c (tdiv (8192#32 * f) rate)).sin 1

/-- `eq_init(k, ...)` (R120). -/
def eqInit (c : Cfg) (p : EqParams) : EqBuilt :=
  { unit :=
      { lf := eqCoefficient c p.fLo p.rate, hf := eqCoefficient c p.fHi p.rate
        g0 := p.gLo, g1 := p.gMid, g2 := p.gHi
        fL := zeroCascade, fH := zeroCascade, h0 := 0#32, h1 := 0#32, h2 := 0#32 }
    divz := divides0 p.rate }

/-- `eq_reset(k)` (R121): the cascades and the delay line zeroed, `lf`, `hf` and `g` kept. -/
def eqReset (u : EqUnit) : EqUnit :=
  { u with fL := zeroCascade, fH := zeroCascade, h0 := 0#32, h1 := 0#32, h2 := 0#32 }

/-- One stage: `f <- f + ((coef · (drive − f) + RND) ≫ 16)`, `RND = 32768` (R122). -/
def eqStage (coef drive f : Word) : Word := f + sar (coef * (drive - f) + 32768#32) 16

/-- A cascade's four stages, each driven by the value just updated before it (R122). -/
def eqCascade (coef x : Word) (f : Cascade) : Cascade :=
  let s0 := eqStage coef x f.s0
  let s1 := eqStage coef s0 f.s1
  let s2 := eqStage coef s1 f.s2
  let s3 := eqStage coef s2 f.s3
  { s0 := s0, s1 := s1, s2 := s2, s3 := s3 }

/-- One band: `(r · g) ≫ 16` (R122). -/
def eqBand (r g : Word) : Word := sar (r * g) 16

/-- An instance after a step, and the step's value. -/
structure EqStepped where
  unit : EqUnit
  out : Word
deriving DecidableEq, Repr

/-- `eq_step(k, s)` (R122). The high band uses the delay line as it was before this step's shift. -/
def eqStep (u : EqUnit) (x : Word) : EqStepped :=
  let fL := eqCascade u.lf x u.fL
  let fH := eqCascade u.hf x u.fH
  { unit := { u with fL := fL, fH := fH, h0 := x, h1 := u.h0, h2 := u.h1 }
    out := eqBand fL.s3 u.g0 + eqBand (fH.s3 - fL.s3) u.g1 + eqBand (u.h2 - fH.s3) u.g2 }

/-- EQ_INIT (R120). -/
def execEqInit (k : Channel) (s : State) : Host.Outcome State Fault Refusal :=
  let r := eqInit cfg
    { fLo := s.args.a0, fHi := s.args.a1, rate := s.args.a2, gLo := s.args.a3, gMid := s.args.a4,
      gHi := s.args.a5 }
  .next (raiseIf r.divz .divz { s with eq := channelSet s.eq k r.unit })

/-- EQ_RESET (R121). -/
def execEqReset (k : Channel) (s : State) : Host.Outcome State Fault Refusal :=
  .next { s with eq := channelSet s.eq k (eqReset (channelGet s.eq k)) }

/-- EQ_STEP (R122). -/
def execEqStep (k : Channel) (s : State) : Host.Outcome State Fault Refusal :=
  let r := eqStep (channelGet s.eq k) s.args.a0
  .next { s with eq := channelSet s.eq k r.unit, res0 := r.out }

end Sys2Proof.Machine
end

