-- ==== Sys2Proof/Machine/Encoder.lean ====
section
/-! DEFINITION. 43_encoder.md: the ENCODE command (sync generator, colour burst, QAM modulator). The
working form of ANALOG inside the command is an array of `CRT_INPUT_SIZE` samples. -/

namespace Sys2Proof.Machine

/-! ## Sync patterning, per scan line (R131 to R135) -/

/-- `fill(lo, hi, v)` on line `n` (R131). -/
def fill (c : Cfg) (n lo hi : Nat) (v : Word) (analog : Array Sample) : Array Sample :=
  (List.range' lo (hi - lo)).foldl (fun a t => a.setIfInBounds (sampleIndex c n t) (low8 v)) analog

/-- A line of alternating `SYNC_LEVEL` and `BLANK_LEVEL` with the given percent-of-line boundaries
(R132, R133). -/
def percentLine (c : Cfg) (n b0 b1 b2 b3 : Nat) (analog : Array Sample) : Array Sample :=
  let analog := fill c n 0 (pct c b0) syncLevel analog
  let analog := fill c n (pct c b0) (pct c b1) blankLevel analog
  let analog := fill c n (pct c b1) (pct c b2) syncLevel analog
  fill c n (pct c b2) (pct c b3) blankLevel analog

/-- An equalizing line (R132). -/
def equalizingLine (c : Cfg) (n : Nat) (analog : Array Sample) : Array Sample :=
  percentLine c n 4 50 54 100 analog

/-- A vertical-sync line; `field = 0` is the even field (R133). -/
def vsyncLine (c : Cfg) (field : Word) (n : Nat) (analog : Array Sample) : Array Sample :=
  percentLine c n (if field = 0#32 then 46 else 4) 50 96 100 analog

/-- A burst sample: `BLANK_LEVEL + cc[t & 3] · BURST_LEVEL`, `t` the column (R135). -/
def burstLevelAt (t : Nat) : Word := blankLevel + quadAt carrier t * burstLevel

/-- The colour burst of line `n` (R135). -/
def burst (c : Cfg) (n : Nat) (analog : Array Sample) : Array Sample :=
  (List.range' (cbBeg c) (cbEnd c - cbBeg c)).foldl
    (fun a t => a.setIfInBounds (sampleIndex c n t) (low8 (burstLevelAt t))) analog

/-- A normal line (R134), with its burst if `as_color` (R135). -/
def normalLine (c : Cfg) (color : Bool) (n : Nat) (analog : Array Sample) : Array Sample :=
  let analog := fill c n 0 (syncBeg c) blankLevel analog
  let analog := fill c n (syncBeg c) (bwBeg c) syncLevel analog
  let analog := fill c n (bwBeg c) (avBeg c) blankLevel analog
  let analog := if n < c.crtTop then fill c n (avBeg c) c.crtHres blankLevel analog else analog
  if color then burst c n analog else analog

/-- The line classes of R131. -/
inductive LineClass where
  | equalizing
  | vsync
  | normal
deriving DecidableEq, Repr

/-- The class of line `n` "depends on `n` alone" (R131). -/
def lineClass (n : Nat) : LineClass :=
  if n < 4 then .equalizing
  else if n < 7 then .vsync
  else if n < 10 then .equalizing
  else .normal

/-- `sync_line(n)` (R131). -/
def syncLine (c : Cfg) (o : EncodeArgs) (n : Nat) (analog : Array Sample) : Array Sample :=
  match lineClass n with
  | .equalizing => equalizingLine c n analog
  | .vsync => vsyncLine c o.field n analog
  | .normal => normalLine c o.color n analog

/-- `for n in [0, CRT_VRES): sync_line(n)` (R130). -/
def syncLines (c : Cfg) (o : EncodeArgs) (analog : Array Sample) : Array Sample :=
  (List.range c.crtVres).foldl (fun a n => syncLine c o n a) analog

/-! ## Active video (R136 to R141) -/

/-- `field_offset = ((field · h + desth) / desth) / 2` (R136). -/
def fieldOffset (c : Cfg) (o : EncodeArgs) : Word :=
  tdiv (tdiv (o.field * o.h + ofCount (desth c)) (ofCount (desth c))) 2#32

/-- A row index "clamped to `h`" (R136). -/
def clampRow (h row : Word) : Word := if h.slt row then h else row

/-- `syA` (R136). -/
def sourceRowA (c : Cfg) (o : EncodeArgs) (y : Nat) : Word :=
  clampRow o.h (tdiv (ofCount y * o.h) (ofCount (desth c)) + fieldOffset c o)

/-- `syB` (R136). -/
def sourceRowB (c : Cfg) (o : EncodeArgs) (y : Nat) : Word :=
  clampRow o.h
    (tdiv (ofCount y * o.h + tdiv (ofCount (desth c)) 2#32) (ofCount (desth c)) + fieldOffset c o)

/-- `sx` (R136). -/
def sourceColumn (c : Cfg) (o : EncodeArgs) (x : Nat) : Word :=
  tdiv (ofCount x * o.w) (ofCount (destw c))

/-- A source pixel, and the count of `OOB_SRC` values drawn after it. -/
structure SourceRead where
  pixel : Word
  oobCount : Nat
deriving DecidableEq, Repr

/-- The word address of source pixel (`sx`, `sy`) (20_memory.md R55). -/
def pixelAddr (o : EncodeArgs) (sx sy : Word) : Word := o.src + sx + sy * o.w

/-- A read of row `h`, one past the raster: the word there if somebody has written it, as a host does that "wants a
defined result" (70_reset_and_hazards.md R243 step 5, 90_conflicts.md C5); else a fresh `OOB_SRC` (R137). Log
entry 3. -/
def readPastRaster (xmem : XMem) (oobCount : Nat) (addr : Word) : SourceRead :=
  match XMem.find xmem addr with
  | some v => { pixel := v, oobCount := oobCount }
  | none => { pixel := Config.oobSrc oobCount, oobCount := oobCount + 1 }

/-- A read of the source raster (20_memory.md R55), or of the row after it (R137). -/
def readSource (o : EncodeArgs) (xmem : XMem) (oobCount : Nat) (sx sy : Word) : SourceRead :=
  if sy = o.h then readPastRaster xmem oobCount (pixelAddr o sx sy)
  else { pixel := XMem.read xmem (pixelAddr o sx sy), oobCount := oobCount }

/-- `r = p[23:16]`, `g = p[15:8]`, `b = p[7:0]` (R138). -/
def redOf (p : Word) : Word := (p.extractLsb' 16 8).setWidth 32
def greenOf (p : Word) : Word := (p.extractLsb' 8 8).setWidth 32
def blueOf (p : Word) : Word := (p.extractLsb' 0 8).setWidth 32

/-- One channel of the matrix: the six products added, then one shift by 15 (R138). -/
def matrixSum (kr kg kb pA pB : Word) : Word :=
  sar (kr * redOf pA + kg * greenOf pA + kb * blueOf pA
    + kr * redOf pB + kg * greenOf pB + kb * blueOf pB) 15

/-- `rgb2yiq_sum(pA, pB)` (R138). -/
def rgb2yiqSum (pA pB : Word) : PerChannel Word :=
  { y := matrixSum 19595#32 38470#32 7471#32 pA pB
    i := matrixSum 39059#32 (-18022#32) (-21103#32) pA pB
    q := matrixSum 13894#32 (-34275#32) 20382#32 pA pB }

/-- The three filters stepped, one on each of `fy`, `fi`, `fq` (R139). -/
def bandlimit (iir : PerChannel IirUnit) (f : PerChannel Word) : PerChannel IirUnit :=
  { y := iirStep iir.y f.y, i := iirStep iir.i f.i, q := iirStep iir.q f.q }

/-- `ph`: +1 for an even `y + yo`, −1 for an odd one (R136). -/
def linePhase (c : Cfg) (y : Nat) : Word := if (y + yo c) % 2 = 0 then 1#32 else -1#32

/-- `composite(fy, fi, fq, ph, x)` (R140). -/
def composite (t : Tuning) (color : Bool) (f : PerChannel Word) (ph : Word) (x : Nat) : Word :=
  let ci := if color then f.i * ph * quadAt carrier x else 0#32
  let cq := if color then f.q * ph * quadAt carrier (x + 3) else 0#32
  let comp := f.y + ci + cq
  blackLevel + t.blackPoint + sar (tdiv (comp * whiteLevel * t.whitePoint) 100#32) 10

/-- What the active-video loop carries from pixel to pixel. -/
structure Modulator where
  iir : PerChannel IirUnit
  analog : Array Sample
  oobCount : Nat

/-- What the active-video loop reads and does not change. -/
structure EncodeEnv where
  args : EncodeArgs
  tuning : Tuning
  xmem : XMem

/-- What is fixed for output row `y` (R136): `syA`, `syB` and `ph`. -/
structure RowPlan where
  y : Nat
  rowA : Word
  rowB : Word
  ph : Word
deriving DecidableEq, Repr

/-- The row's plan (R136, R137). -/
def rowPlan (c : Cfg) (o : EncodeArgs) (y : Nat) : RowPlan :=
  { y := y, rowA := sourceRowA c o y, rowB := sourceRowB c o y, ph := linePhase c y }

/-- The body of the column loop (R136): pixel A is read before pixel B. -/
def encodePixel (c : Cfg) (e : EncodeEnv) (r : RowPlan) (m : Modulator) (x : Nat) : Modulator :=
  let sx := sourceColumn c e.args x
  let a := readSource e.args e.xmem m.oobCount sx r.rowA
  let b := readSource e.args e.xmem a.oobCount sx r.rowB
  let iir := bandlimit m.iir (rgb2yiqSum a.pixel b.pixel)
  let ire := composite e.tuning e.args.color ⟨iir.y.h, iir.i.h, iir.q.h⟩ r.ph x
  { iir := iir
    analog := m.analog.setIfInBounds (sampleIndex c (r.y + yo c) (x + xo c)) (low8 (clamp ire 0#32 110#32))
    oobCount := b.oobCount }

/-- `iir_reset(0); iir_reset(1); iir_reset(2)` (R136). -/
def resetIirs (iir : PerChannel IirUnit) : PerChannel IirUnit :=
  { y := iirReset iir.y, i := iirReset iir.i, q := iirReset iir.q }

/-- One output row: the filters reset, then the columns in increasing order (R136). -/
def encodeRow (c : Cfg) (e : EncodeEnv) (m : Modulator) (y : Nat) : Modulator :=
  (List.range (destw c)).foldl (encodePixel c e (rowPlan c e.args y)) { m with iir := resetIirs m.iir }

/-- `active_video()` (R136). -/
def activeVideo (c : Cfg) (e : EncodeEnv) (m : Modulator) : Modulator :=
  (List.range (desth c)).foldl (encodeRow c e) m

/-- The whole of ENCODE's work on ANALOG and the filters, for checked operands (R130). -/
def encodeField (c : Cfg) (s : State) (b : SignalBuffers) : Modulator :=
  activeVideo c { args := encodeArgs s, tuning := s.tuning, xmem := s.xmem }
    { iir := s.iir, analog := syncLines c (encodeArgs s) (samplesOf c b.analog), oobCount := s.oobCount }

/-- ENCODE (R130). -/
def execEncode (s : State) : Host.Outcome State Fault Refusal :=
  match s.signal with
  | none => refuseWith .seq s
  | some b =>
    if encodeArgsOk s then
      let m := encodeField cfg s b
      .next { s with
        iir := m.iir
        signal := some { b with analog := memoryOf m.analog }
        oobCount := m.oobCount }
    else refuseWith .arg s

end Sys2Proof.Machine
end

