-- ==== Sys2Proof/Machine/Decoder.lean ====
section
/-! DEFINITION. 44_decoder.md: the DECODE command (noise, sync search, burst recovery, demodulation,
bloom, resample, blend). The working forms of INP and SCRATCH inside the command are arrays. -/

namespace Sys2Proof.Machine

/-! ## Noise injection (R161) -/

/-- `RN <- 214019 · RN + 140327895`, wrapping (R161). -/
def lcgNext (rn : Word) : Word := lcgMul * rn + lcgInc

/-- `r = (RN ≫ 16) & 0xff` (R161). -/
def noiseByte (rn : Word) : Word := sar rn 16 &&& 0xFF#32

/-- `clamp(ANALOG[i] + (noise · (r − 0x7f)) / 256, −127, 127)` for the generator state `rn` (R161). -/
def noisySample (noise rn : Word) (x : Sample) : Sample :=
  low8 (clamp (sext8 x + tdiv (noise * (noiseByte rn - 0x7F#32)) 256#32) (-127#32) 127#32)

/-- INP as far as it is written, and `RN`. -/
structure NoiseState where
  inp : Array Sample
  rn : Word

/-- One sample of `inject_noise()`: the generator is stepped first (R161). -/
def injectSample (noise : Word) (st : NoiseState) (x : Sample) : NoiseState :=
  let rn := lcgNext st.rn
  { inp := st.inp.push (noisySample noise rn x), rn := rn }

/-- `inject_noise()`: one generator step per sample, in index order (R161). -/
def injectNoise (noise rn : Word) (analog : Array Sample) : NoiseState :=
  analog.toList.foldl (injectSample noise) { inp := #[], rn := rn }

/-! ## Sync searches (R162 to R164, R167, R168) -/

/-- The running-sum test both searches make: the first of `k, k + 1, ...` (`n` of them) at which the sum,
starting from `sum`, is `≤ threshold` after the value there is added. -/
def crossAt (threshold : Word) (value : Nat → Word) : Nat → Nat → Word → Option Nat
  | 0, _, _ => none
  | n + 1, k, sum =>
    let sum := sum + value k
    if sum.sle threshold then some k else crossAt threshold value n (k + 1) sum

/-- Candidate number `k` of the vertical search: line `VSYNC − VSYNC_WINDOW + k` (R162). -/
def vsyncCandidate (c : Cfg) (vsync : Word) (k : Nat) : Nat :=
  pmod (vsync + (ofCount k - ofCount c.vsyncWindow)) c.crtVres

/-- Where the running sum of a line reaches `100 · SYNC_LEVEL`, if it does (R162). -/
def vsyncCrossing (c : Cfg) (inp : Array Sample) (cand : Nat) : Option Nat :=
  crossAt (100#32 * syncLevel) (fun jj => sext8 (inp.getD (sampleIndex c cand jj) 0#8)) c.crtHres 0 0#32

/-- What the vertical search finds: `cand` and `j`. -/
structure VSync where
  cand : Nat
  j : Nat
deriving DecidableEq, Repr

/-- The candidates `k, k + 1, ...` (`n` of them) in order, stopping at the first that triggers; when none
does, the last candidate (so far, `cand`) and `j = CRT_HRES` (R162). -/
def vsyncSearchFrom (c : Cfg) (inp : Array Sample) (vsync : Word) : Nat → Nat → Nat → VSync
  | 0, _, cand => { cand := cand, j := c.crtHres }
  | n + 1, k, _ =>
    let cand := vsyncCandidate c vsync k
    match vsyncCrossing c inp cand with
    | some j => { cand := cand, j := j }
    | none => vsyncSearchFrom c inp vsync n (k + 1) cand

/-- The vertical sync search (R162). -/
def vsyncSearch (c : Cfg) (inp : Array Sample) (vsync : Word) : VSync :=
  vsyncSearchFrom c inp vsync (2 * c.vsyncWindow) 0 0

/-- `field = 1 if j > CRT_HRES / 2 else 0` (R164). -/
def recoveredField (c : Cfg) (j : Nat) : BitVec 1 := if c.crtHres / 2 < j then 1#1 else 0#1

/-- What DECODE reads and does not change once `frame_setup()` is done (R160, R166). -/
structure DecodeEnv where
  inp : Array Sample
  vsync : Word
  outw : Word
  outh : Word
  outBase : Word
  sat : Word
  con : Word
  bright : Word
  maxE : Word
  /-- `field_offset_out`. -/
  fo : Word

/-- What DECODE carries from line to line. -/
structure LineState where
  hsync : Word
  ccref : Quad Word
  prevE : Word
  eq : PerChannel EqUnit
  scratch : Array (PerChannel Word)
  xmem : XMem

/-- `ln = pmod(line + VSYNC, CRT_VRES)` (R167). -/
def signalLine (c : Cfg) (e : DecodeEnv) (line : Nat) : Nat := pmod (ofCount line + e.vsync) c.crtVres

/-- The first sample of signal line `ln`. -/
def lineStart (c : Cfg) (ln : Nat) : Word := ofCount (ln * c.crtHres)

/-- `k` of the horizontal search: `HSYNC_WINDOW` when nothing triggers (R167). -/
def hsyncShift (c : Cfg) (inp : Array Sample) (ln : Nat) (hsync : Word) : Word :=
  let first := lineStart c ln + hsync + ofCount (syncBeg c) - ofCount c.hsyncWindow
  match crossAt (4#32 * syncLevel) (fun k => sigRead c inp (first + ofCount k)) (2 * c.hsyncWindow) 0 0#32 with
  | some k => ofCount k - ofCount c.hsyncWindow
  | none => ofCount c.hsyncWindow

/-- `HSYNC <- pmod(HSYNC + k, CRT_HRES)` (R168). -/
def hsyncNext (c : Cfg) (inp : Array Sample) (ln : Nat) (hsync : Word) : Word :=
  pmodWord (hsync + hsyncShift c inp ln hsync) c.crtHres

/-! ## Burst recovery and demodulation axes (R169 to R171) -/

/-- `CCREF[t & 3] <- (CCREF[t & 3] · 127) / 128 + new` (R169). -/
def burstUpdate (ccref : Quad Word) (t : Nat) (new : Word) : Quad Word :=
  quadPut ccref t (tdiv (quadAt ccref t * 127#32) 128#32 + new)

/-- Colour burst recovery on one line, `hsync` as just updated (R169). -/
def burstRecover (c : Cfg) (inp : Array Sample) (ln : Nat) (hsync : Word) (ccref : Quad Word) : Quad Word :=
  let base := lineStart c ln + (hsync &&& ~~~3#32)
  (List.range' (cbBeg c) (cbEnd c - cbBeg c)).foldl
    (fun r t => burstUpdate r t (sigRead c inp (base + ofCount t))) ccref

/-- `pos` (R170). -/
def demodPos (c : Cfg) (ln : Nat) (hsync : Word) : Word :=
  pmodWord (ofCount (avBeg c) + hsync) c.crtHres + lineStart c ln

/-- `dci` and `dcq` (R170), for `pa = pos & 3`. -/
def axisI (ccref : Quad Word) (pa : Nat) : Word := quadAt ccref (pa + 1) - quadAt ccref (pa + 3)
def axisQ (ccref : Quad Word) (pa : Nat) : Word := quadAt ccref (pa + 2) - quadAt ccref (pa + 0)

/-- The demodulation wave (R171). -/
def demodWave (dci dcq sat : Word) : Quad Word := ⟨-dcq * sat, dci * sat, dcq * sat, -dci * sat⟩

/-! ## Line energy and bloom (R172) -/

/-- `e`: the sum of `AV_LEN` samples from `pos` (R172). -/
def lineEnergy (c : Cfg) (inp : Array Sample) (pos : Word) : Word :=
  (List.range (avLen c)).foldl (fun e i => e + sigRead c inp (pos + ofCount i)) 0#32

/-- The new `prev_e` (R172). -/
def bloomEnergy (maxE prevE e : Word) : Word :=
  tdiv (prevE * 123#32) 128#32 + tdiv ((tdiv maxE 2#32 - e) * 1024#32) maxE

/-- `line_w` (R172). -/
def lineWidth (c : Cfg) (prevE : Word) : Word :=
  tdiv (ofCount (avLen c) * 112#32) 128#32 + tdiv prevE 512#32

/-- `scanL` (R172). -/
def scanLeft (c : Cfg) (lineW : Word) : Word :=
  (tdiv (ofCount (avLen c)) 2#32 - tdiv lineW 2#32 + 8#32) * 4096#32

/-- `scanR` (R172). -/
def scanRight (c : Cfg) : Word := (ofCount (avLen c) - 1#32) * 4096#32

/-- `dx` (R172). -/
def scanStep (lineW outw : Word) : Word := tdiv (lineW * 4096#32) outw

/-! ## Per-sample Y, I, Q into SCRATCH (R173) -/

/-- The equalizers and SCRATCH. -/
structure Demod where
  eq : PerChannel EqUnit
  scratch : Array (PerChannel Word)

/-- The body of R173's loop at offset `i` from `pos`. -/
def demodSample (c : Cfg) (inp : Array Sample) (pos bright : Word) (wave : Quad Word) (d : Demod) (i : Nat) :
    Demod :=
  let sg := sigRead c inp (pos + ofCount i)
  let y := eqStep d.eq.y (sg + bright)
  let ci := eqStep d.eq.i (sar (sg * quadAt wave i) 9)
  let cq := eqStep d.eq.q (sar (sg * quadAt wave (i + 3)) 9)
  { eq := ⟨y.unit, ci.unit, cq.unit⟩
    scratch := d.scratch.setIfInBounds i ⟨shl y.out 4, sar ci.out 3, sar cq.out 3⟩ }

/-- `eq_reset(0); eq_reset(1); eq_reset(2)` (R173). -/
def resetEqs (eq : PerChannel EqUnit) : PerChannel EqUnit :=
  { y := eqReset eq.y, i := eqReset eq.i, q := eqReset eq.q }

/-- Rule R173 whole, from `scanL ≫ 12` up to `scanR ≫ 12`. -/
def demodLine (c : Cfg) (inp : Array Sample) (pos bright : Word) (wave : Quad Word) (scanL : Word) (d : Demod) :
    Demod :=
  let lo := countOf (sar scanL 12)
  let hi := countOf (sar (scanRight c) 12)
  (List.range' lo (hi - lo)).foldl (demodSample c inp pos bright wave) { d with eq := resetEqs d.eq }

/-! ## Resample, colour matrix, blend (R174 to R176) -/

/-- `((A · Lw) ≫ k) + ((B · Rw) ≫ k)` (R174). -/
def lerp (k : Nat) (a b lw rw : Word) : Word := sar (a * lw) k + sar (b * rw) k

/-- The interpolated triple at Q12 position `p` (R174). -/
def resampleAt (scratch : Array (PerChannel Word)) (p : Word) : PerChannel Word :=
  let s := countOf (sar p 12)
  let rw := p &&& 0xFFF#32
  let lw := 0xFFF#32 - rw
  let a := scratch.getD s zeroTriple
  let b := scratch.getD (s + 1) zeroTriple
  { y := lerp 2 a.y b.y lw rw, i := lerp 14 a.i b.i lw rw, q := lerp 14 a.q b.q lw rw }

/-- One colour byte: `clamp(((v ≫ 12) · con) / 256, 0, 255)` (R175). -/
def colourByte (con v : Word) : Word := clamp (tdiv (sar v 12 * con) 256#32) 0#32 255#32

/-- `yiq2rgb` packed as `aa = (r ≪ 16) | (g ≪ 8) | b` (R175, R176). -/
def packedRgb (con : Word) (t : PerChannel Word) : Word :=
  let r := colourByte con (t.y + 3879#32 * t.i + 2556#32 * t.q)
  let g := colourByte con (t.y - 1126#32 * t.i - 2605#32 * t.q)
  let b := colourByte con (t.y - 4530#32 * t.i + 7021#32 * t.q)
  shl r 16 ||| shl g 8 ||| b

/-- `((aa & 0xFEFEFF) ≫ 1) + ((bb & 0xFEFEFF) ≫ 1)` (R176). -/
def blendWords (aa bb : Word) : Word := sar (aa &&& 0xFEFEFF#32) 1 + sar (bb &&& 0xFEFEFF#32) 1

/-- `blend(addr, ...)`: read, blend, write (R176). -/
def blendPixel (xmem : XMem) (addr aa : Word) : XMem := XMem.write xmem addr (blendWords aa (XMem.read xmem addr))

/-- The column loop of R174 from position `p` and address `addr`, with `n` columns of the row left: it
ends when `p` reaches `scanR` or the row is full. -/
def resampleRow (scratch : Array (PerChannel Word)) (con scanR dx : Word) :
    Nat → Word → Word → XMem → XMem
  | 0, _, _, xmem => xmem
  | n + 1, p, addr, xmem =>
    if p.slt scanR then
      resampleRow scratch con scanR dx n (p + dx) (addr + 1#32)
        (blendPixel xmem addr (packedRgb con (resampleAt scratch p)))
    else xmem

/-- The XMEM address of output pixel (0, `row`) (20_memory.md R56). -/
def rowAddr (e : DecodeEnv) (row : Word) : Word := e.outBase + row * e.outw

/-! ## Vertical fill (R177) -/

/-- Copy `n` words from `src` on to `dst` on, in increasing order (R177). -/
def copyWords : Nat → Word → Word → XMem → XMem
  | 0, _, _, xmem => xmem
  | n + 1, src, dst, xmem => copyWords n (src + 1#32) (dst + 1#32) (XMem.write xmem dst (XMem.read xmem src))

/-- `for s in [beg + 1, end)`: copy row `s − 1` to row `s` (R177). -/
def verticalFill (e : DecodeEnv) (beg fin : Word) (xmem : XMem) : XMem :=
  (List.range (countOf (fin - beg - 1#32))).foldl
    (fun xm r => copyWords (countOf e.outw) (rowAddr e (beg + ofCount r)) (rowAddr e (beg + 1#32 + ofCount r)) xm)
    xmem

/-! ## One line, and the command -/

/-- `((line − CRT_TOP) · OUTH) / CRT_LINES + fo` for the `k`-th active line (R165). -/
def destRow (c : Cfg) (e : DecodeEnv) (k : Nat) : Word :=
  tdiv (ofCount k * e.outh) (ofCount c.crtLines) + e.fo

/-- `decode_line(line)` for a line that is not skipped: R167 to R177 in order. -/
def decodeShownLine (c : Cfg) (e : DecodeEnv) (line : Nat) (beg fin : Word) (st : LineState) : LineState :=
  let ln := signalLine c e line
  let hsync := hsyncNext c e.inp ln st.hsync
  let ccref := burstRecover c e.inp ln hsync st.ccref
  let pos := demodPos c ln hsync
  let pa := (pos &&& 3#32).toNat
  let wave := demodWave (axisI ccref pa) (axisQ ccref pa) e.sat
  let prevE := bloomEnergy e.maxE st.prevE (lineEnergy c e.inp pos)
  let lineW := lineWidth c prevE
  let scanL := scanLeft c lineW
  let d := demodLine c e.inp pos e.bright wave scanL { eq := st.eq, scratch := st.scratch }
  let xmem := resampleRow d.scratch e.con (scanRight c) (scanStep lineW e.outw) (countOf e.outw) scanL
    (rowAddr e beg) st.xmem
  { hsync := hsync, ccref := ccref, prevE := prevE, eq := d.eq, scratch := d.scratch
    xmem := verticalFill e beg fin xmem }

/-- `decode_line(line)`: nothing at all is done for a line with `beg ≥ OUTH` (R165). -/
def decodeLine (c : Cfg) (e : DecodeEnv) (st : LineState) (line : Nat) : LineState :=
  let beg := destRow c e (line - c.crtTop)
  let fin := destRow c e (line - c.crtTop + 1)
  if e.outh.sle beg then st
  else decodeShownLine c e line beg (if e.outh.slt fin then e.outh else fin) st

/-- `for line in [CRT_TOP, CRT_BOT): decode_line(line)` (R160). -/
def decodeLines (c : Cfg) (e : DecodeEnv) (st : LineState) : LineState :=
  (List.range' c.crtTop (c.crtBot - c.crtTop)).foldl (decodeLine c e) st

/-- `max_e = (128 + noise / 2) · AV_LEN` (R166). -/
def maxEnergy (c : Cfg) (noise : Word) : Word := (128#32 + tdiv noise 2#32) * ofCount (avLen c)

/-- `fo = field · (ratio / 2)`, `ratio = (OUTH + CRT_LINES / 2) / CRT_LINES` (R166). -/
def fieldOffsetOut (c : Cfg) (field : BitVec 1) (outh : Word) : Word :=
  let ratio := tdiv (outh + tdiv (ofCount c.crtLines) 2#32) (ofCount c.crtLines)
  field.setWidth 32 * tdiv ratio 2#32

/-- `bright = BRIGHTNESS − (BLACK_LEVEL + BLACK_POINT)` (R160). -/
def brightOffset (t : Tuning) : Word := t.brightness - (blackLevel + t.blackPoint)

/-- DECODE's frame constants (R160, R166), for the noisy signal and what the vertical search found. -/
def decodeEnv (c : Cfg) (s : State) (inp : Array Sample) (v : VSync) : DecodeEnv :=
  { inp := inp, vsync := ofCount v.cand, outw := s.outw, outh := s.outh, outBase := s.outBase
    sat := s.tuning.saturation, con := s.tuning.contrast, bright := brightOffset s.tuning
    maxE := maxEnergy c (noiseArg s), fo := fieldOffsetOut c (recoveredField c v.j) s.outh }

/-- What the first line starts from: `CCREF` zeroed, `prev_e = PREV_E_INIT` (R160, R166). -/
def firstLineState (c : Cfg) (s : State) (b : SignalBuffers) : LineState :=
  { hsync := s.hsync, ccref := zeroQuad, prevE := c.prevEInit, eq := s.eq
    scratch := triplesOf c b.scratch, xmem := s.xmem }

/-- The whole of DECODE's work once `INITD` is checked (R160). -/
def decodeField (c : Cfg) (s : State) (b : SignalBuffers) : State :=
  let n := injectNoise (noiseArg s) s.rn (samplesOf c b.analog)
  let v := vsyncSearch c n.inp s.vsync
  let st := decodeLines c (decodeEnv c s n.inp v) (firstLineState c s b)
  { s with
    hsync := st.hsync
    vsync := ofCount v.cand
    rn := n.rn
    fieldDet := recoveredField c v.j
    ccref := st.ccref
    eq := st.eq
    signal := some { b with inp := memoryOf n.inp, scratch := scratchOf st.scratch }
    xmem := st.xmem }

/-- DECODE (R160). -/
def execDecode (s : State) : Host.Outcome State Fault Refusal :=
  match s.signal with
  | none => refuseWith .seq s
  | some b => .next (decodeField cfg s b)

end Sys2Proof.Machine
end

