-- ==== Sys2Proof/Machine/Control.lean ====
section
/-! DEFINITION. 45_control.md: the commands CRT_INIT, CRT_RESIZE, CRT_RESET, RDSIG and WRSIG. -/

namespace Sys2Proof.Machine

/-- The tuning defaults CRT_INIT and CRT_RESET write (R200, R202). -/
def defaultTuning : Tuning :=
  { saturation := defaultSaturation, brightness := defaultBrightness, contrast := defaultContrast
    blackPoint := defaultBlackPoint, whitePoint := defaultWhitePoint }

/-- The arguments CRT_INIT builds the equalizers with (42_eq.md R123). -/
def eqYParams (c : Cfg) : EqParams :=
  { fLo := kHz2L c 1500#32, fHi := kHz2L c 3000#32, rate := ofCount c.crtHres
    gLo := 65536#32, gMid := 8192#32, gHi := 9175#32 }
def eqIParams (c : Cfg) : EqParams :=
  { fLo := kHz2L c 80#32, fHi := kHz2L c 1150#32, rate := ofCount c.crtHres
    gLo := 65536#32, gMid := 65536#32, gHi := 1311#32 }
def eqQParams (c : Cfg) : EqParams :=
  { fLo := kHz2L c 80#32, fHi := kHz2L c 1000#32, rate := ofCount c.crtHres
    gLo := 65536#32, gMid := 65536#32, gHi := 0#32 }

/-- The equalizers as CRT_INIT builds them (42_eq.md R123). -/
def builtEqs (c : Cfg) : PerChannel EqUnit :=
  { y := (eqInit c (eqYParams c)).unit, i := (eqInit c (eqIParams c)).unit
    q := (eqInit c (eqQParams c)).unit }

/-- The IIR filters as CRT_INIT builds them (41_iir.md R113). -/
def builtIirs (c : Cfg) : PerChannel IirUnit :=
  { y := (iirInit c c.lFreq c.yFreq).unit, i := (iirInit c c.lFreq c.iFreq).unit
    q := (iirInit c c.lFreq c.qFreq).unit }

/-- ANALOG, INP and SCRATCH all zero (R200): nothing listed. -/
def zeroBuffers : SignalBuffers := { analog := [], inp := [], scratch := [] }

/-- The raster descriptor from the operands (R201). -/
def setRaster (s : State) : State :=
  { s with outw := s.args.a0, outh := s.args.a1, outBase := s.args.a2 }

/-- Tuning defaults and sync trackers 0 (R202). -/
def resetTuningAndSync (s : State) : State :=
  { s with tuning := defaultTuning, hsync := 0#32, vsync := 0#32 }

/-- "zero state, assign defaults, build filters and equalizers" (R200). The memories then hold values,
which is `INITD = 1`. -/
def initialise (c : Cfg) (s : State) : State :=
  let s := resetTuningAndSync (setRaster s)
  { s with
    ccref := zeroQuad, rn := rnInit, fieldDet := 0#1
    eq := builtEqs c, iir := builtIirs c, signal := some zeroBuffers }

/-- CRT_INIT (R200). -/
def execCrtInit (s : State) : Host.Outcome State Fault Refusal :=
  if rasterArgsOk s then .next (initialise cfg s) else refuseWith .arg s

/-- CRT_RESIZE (R201). -/
def execCrtResize (s : State) : Host.Outcome State Fault Refusal :=
  if rasterArgsOk s then .next (setRaster s) else refuseWith .arg s

/-- CRT_RESET (R202). -/
def execCrtReset (s : State) : Host.Outcome State Fault Refusal := .next (resetTuningAndSync s)

/-- The memory `sel` names (R203). -/
def bufferOf (buf : SigBuf) (b : SignalBuffers) : Memory :=
  match buf with
  | .analog => b.analog
  | .inp => b.inp

/-- RDSIG (R203). -/
def execRdsig (buf : SigBuf) (s : State) : Host.Outcome State Fault Refusal :=
  match s.signal with
  | none => refuseWith .seq s
  | some b =>
    if sigArgsOk cfg s then .next { s with res0 := sext8 (Memory.read (bufferOf buf b) (sigArgIndex cfg s)) }
    else refuseWith .arg s

/-- WRSIG (R204). `WRSIG.INP` is an illegal word (30_encoding.md R74, R76): it sets `ERR_ILL`, the first
of R221's checks. -/
def execWrsig (buf : SigBuf) (s : State) : Host.Outcome State Fault Refusal :=
  match buf, s.signal with
  | .inp, _ => refuseWith .ill s
  | .analog, none => refuseWith .seq s
  | .analog, some b =>
    if sigArgsOk cfg s then
      .next { s with
        signal := some { b with analog := Memory.write b.analog (sigArgIndex cfg s) (low8 s.args.a2) } }
    else refuseWith .arg s

end Sys2Proof.Machine
end

