-- ==== Sys2Proof/Machine/Dispatch.lean ====
section
/-! DEFINITION. One arm per command: the meaning `exec` gives it. -/

namespace Sys2Proof.Machine

def exec (i : Instr) (s : State) : Host.Outcome State Fault Refusal :=
  match i with
  | .nop => Sys2Proof.Machine.execNop s
  | .sincos14 => Sys2Proof.Machine.execSincos14 s
  | .expx => Sys2Proof.Machine.execExpx s
  | .iirInit k => Sys2Proof.Machine.execIirInit k s
  | .iirReset k => Sys2Proof.Machine.execIirReset k s
  | .iirStep k => Sys2Proof.Machine.execIirStep k s
  | .eqInit k => Sys2Proof.Machine.execEqInit k s
  | .eqReset k => Sys2Proof.Machine.execEqReset k s
  | .eqStep k => Sys2Proof.Machine.execEqStep k s
  | .crtInit => Sys2Proof.Machine.execCrtInit s
  | .crtResize => Sys2Proof.Machine.execCrtResize s
  | .crtReset => Sys2Proof.Machine.execCrtReset s
  | .encode => Sys2Proof.Machine.execEncode s
  | .decode => Sys2Proof.Machine.execDecode s
  | .rdsig buf => Sys2Proof.Machine.execRdsig buf s
  | .wrsig buf => Sys2Proof.Machine.execWrsig buf s

end Sys2Proof.Machine
end

