-- ==== Sys2Proof/Machine/Bus.lean ====
section
/-! DEFINITION. The register bus (10_state.md R36, R37; 60_exceptions.md R223), the issue of a command by
a write to `CMD` (30_encoding.md R70, 60_exceptions.md R221), the host's own XMEM accesses (R78) and
hardware reset (70_reset_and_hazards.md R240). -/

namespace Sys2Proof.Machine

/-- The registers of the register map (10_state.md R36). `eqReg k j` is the `j`-th of the sixteen words
of `EQ[k]`, in the order of the map. -/
inductive Reg where
  | cmd
  | status
  | arg (k : Nat)
  | res0
  | res1
  | saturation
  | brightness
  | contrast
  | blackPoint
  | whitePoint
  | hsync
  | vsync
  | outw
  | outh
  | outBase
  | rn
  | fieldDet
  | ccref (k : Nat)
  | iirC (k : Channel)
  | iirH (k : Channel)
  | eqReg (k : Channel) (j : Nat)
deriving DecidableEq, Repr

/-- The sixteen words of `EQ[k]`, from their first offset on (R36). -/
def eqWords (base : Nat) (k : Channel) : List (Nat × Reg) :=
  (List.range 16).map (fun j => (base + 4 * j, .eqReg k j))

/-- The register map (R36): each register at its byte offset. -/
def regMap : List (Nat × Reg) :=
  [(0x000, .cmd), (0x004, .status), (0x008, .arg 0), (0x00C, .arg 1), (0x010, .arg 2), (0x014, .arg 3),
    (0x018, .arg 4), (0x01C, .arg 5), (0x020, .res0), (0x024, .res1), (0x030, .saturation),
    (0x034, .brightness), (0x038, .contrast), (0x03C, .blackPoint), (0x040, .whitePoint), (0x044, .hsync),
    (0x048, .vsync), (0x04C, .outw), (0x050, .outh), (0x054, .outBase), (0x058, .rn), (0x05C, .fieldDet),
    (0x060, .ccref 0), (0x064, .ccref 1), (0x068, .ccref 2), (0x06C, .ccref 3), (0x080, .iirC .y),
    (0x084, .iirH .y), (0x088, .iirC .i), (0x08C, .iirH .i), (0x090, .iirC .q), (0x094, .iirH .q)]
  ++ eqWords 0x100 .y ++ eqWords 0x140 .i ++ eqWords 0x180 .q

/-- The register at an offset; `none` is a reserved offset (R36). -/
def regAt (offset : Word) : Option Reg := (regMap.find? (fun p => p.1 == offset.toNat)).map Prod.snd

/-- `ARGk`. -/
def argGet (a : Args) (k : Nat) : Word :=
  match k with
  | 0 => a.a0
  | 1 => a.a1
  | 2 => a.a2
  | 3 => a.a3
  | 4 => a.a4
  | _ => a.a5

/-- `ARGk <- v`. -/
def argPut (a : Args) (k : Nat) (v : Word) : Args :=
  match k with
  | 0 => { a with a0 := v }
  | 1 => { a with a1 := v }
  | 2 => { a with a2 := v }
  | 3 => { a with a3 := v }
  | 4 => { a with a4 := v }
  | _ => { a with a5 := v }

/-- The `j`-th word of an equalizer instance, in the order of R36: `lf`, `hf`, `g[0..2]`, `fL[0..3]`,
`fH[0..3]`, `h[0..2]`. -/
def eqWord (u : EqUnit) (j : Nat) : Word :=
  match j with
  | 0 => u.lf
  | 1 => u.hf
  | 2 => u.g0
  | 3 => u.g1
  | 4 => u.g2
  | 5 => u.fL.s0
  | 6 => u.fL.s1
  | 7 => u.fL.s2
  | 8 => u.fL.s3
  | 9 => u.fH.s0
  | 10 => u.fH.s1
  | 11 => u.fH.s2
  | 12 => u.fH.s3
  | 13 => u.h0
  | 14 => u.h1
  | _ => u.h2

/-- What a read of a register returns (R36). "Register reads have no side effects" (20_memory.md R59). -/
def readReg (s : State) : Reg → Word
  | .cmd => s.cmd
  | .status => statusWord s
  | .arg k => argGet s.args k
  | .res0 => s.res0
  | .res1 => s.res1
  | .saturation => s.tuning.saturation
  | .brightness => s.tuning.brightness
  | .contrast => s.tuning.contrast
  | .blackPoint => s.tuning.blackPoint
  | .whitePoint => s.tuning.whitePoint
  | .hsync => s.hsync
  | .vsync => s.vsync
  | .outw => s.outw
  | .outh => s.outh
  | .outBase => s.outBase
  | .rn => s.rn
  | .fieldDet => s.fieldDet.setWidth 32
  | .ccref k => quadAt s.ccref k
  | .iirC k => (channelGet s.iir k).c
  | .iirH k => (channelGet s.iir k).h
  | .eqReg k j => eqWord (channelGet s.eq k) j

/-- A write to a register other than `CMD` while idle (R36). "A write to a read-only register is ignored
and sets no flag"; HSYNC and VSYNC store the reduced value (R25). -/
def writeReg (c : Cfg) (s : State) (r : Reg) (v : Word) : State :=
  match r with
  | .cmd => { s with cmd := v }
  | .status => { s with flags := clearFlags v s.flags }
  | .arg k => { s with args := argPut s.args k v }
  | .res0 => s
  | .res1 => s
  | .saturation => { s with tuning := { s.tuning with saturation := v } }
  | .brightness => { s with tuning := { s.tuning with brightness := v } }
  | .contrast => { s with tuning := { s.tuning with contrast := v } }
  | .blackPoint => { s with tuning := { s.tuning with blackPoint := v } }
  | .whitePoint => { s with tuning := { s.tuning with whitePoint := v } }
  | .hsync => { s with hsync := pmodWord v c.crtHres }
  | .vsync => { s with vsync := pmodWord v c.crtVres }
  | .outw => s
  | .outh => s
  | .outBase => s
  | .rn => { s with rn := v }
  | .fieldDet => s
  | .ccref k => { s with ccref := quadPut s.ccref k v }
  | .iirC _ => s
  | .iirH _ => s
  | .eqReg _ _ => s

/-- The command word that starts a command: `CMD` holds it, then the checks of R221, the illegal word
first; a legal word's command runs (30_encoding.md R70, R72, R76). -/
def issue (w : Word) (s : State) : Host.Outcome State Fault Refusal :=
  let s := { s with cmd := w }
  match decode w with
  | .error _ => refuseWith .ill s
  | .ok i => exec i s

/-- Whether a bus access is one whole aligned 32-bit word (R36). -/
def wholeWord (offset : Word) (bytes : Nat) : Bool := bytes == 4 && offset.toNat % 4 == 0

/-- The value a host read delivers. -/
def observe (v : Word) (s : State) : State := { s with observed := v :: s.observed }

/-- A bus write. While busy only STATUS takes it; any other is dropped with `ERR_BUSY` (60_exceptions.md R223). -/
def busWrite (offset : Word) (bytes : Nat) (v : Word) (s : State) : Host.Outcome State Fault Refusal :=
  if wholeWord offset bytes then
    match s.flags.busy, regAt offset with
    | false, some .cmd => issue v s
    | false, some r => .next (writeReg cfg s r v)
    | false, none => .next s
    | true, some .status => .next (writeReg cfg s .status v)
    | true, _ => .next (raise .busy s)
  else .refused .narrowHostAccess

/-- A bus read. A reserved offset reads 0 (R36); while busy only STATUS reads normally, any other read
returns 0 and sets `ERR_BUSY` (60_exceptions.md R223). -/
def busRead (offset : Word) (bytes : Nat) (s : State) : Host.Outcome State Fault Refusal :=
  if wholeWord offset bytes then
    match s.flags.busy, regAt offset with
    | false, some r => .next (observe (readReg s r) s)
    | false, none => .next (observe 0#32 s)
    | true, some .status => .next (observe (statusWord s) s)
    | true, _ => .next (observe 0#32 (raise .busy s))
  else .refused .narrowHostAccess

/-- Hardware reset (70_reset_and_hazards.md R240): the reset column of R38, XMEM "whatever it was". The
model's own fields stay. -/
def hardwareReset (s : State) : State :=
  { State.reset with
    xmem := s.xmem, oobCount := s.oobCount, hostOps := s.hostOps, observed := s.observed }

/-- One host operation (30_encoding.md R78), or the reset input. The host's XMEM accesses are "legal only
while NCC is idle"; during a command they are the race of R247. -/
def hostStep (op : HostOp) (s : State) : Host.Outcome State Fault Refusal :=
  match op with
  | .busWrite offset bytes data => busWrite offset bytes data s
  | .busRead offset bytes => busRead offset bytes s
  | .xmemWrite addr data =>
    if s.flags.busy then .fault .xmemRace else .next { s with xmem := XMem.write s.xmem addr data }
  | .xmemRead addr =>
    if s.flags.busy then .fault .xmemRace else .next (observe (XMem.read s.xmem addr) s)
  | .hwReset => .next (hardwareReset s)

/-- The next transition: the first of the host's operations; "an idle NCC holds its state indefinitely"
when there is none (60_exceptions.md R232). -/
def nextStep (s : State) : Host.Outcome State Fault Refusal :=
  match s.hostOps with
  | [] => .next s
  | op :: rest => hostStep op { s with hostOps := rest }

/-- The host's write of a command word to `CMD`, as its next operation; an NCC that takes it is idle. -/
def placeCommand (s : State) (w : Word) : State :=
  { s with
    hostOps := .busWrite 0#32 4 w :: s.hostOps
    flags := { s.flags with busy := false } }

end Sys2Proof.Machine
end

