-- ==== Sys2Proof/Machine/Step.lean ====
section
/-! DEFINITION. One step of the machine, and how a command word is placed where the next step takes it. -/

namespace Sys2Proof.Machine

/-- One transition: the host's next operation and all it starts (30_encoding.md R72). -/
def step (s : State) : Host.Outcome State Fault Refusal := nextStep s

/-- NCC fetches nothing: a command starts when the host writes its word to `CMD` (10_state.md R22). So the
word is placed as the host's next operation, a write to `CMD`. Log entry 2. -/
def State.withFetchWord (s : State) (nbits w : Nat) : State :=
  placeCommand s (BitVec.ofNat 32 (w % 2 ^ nbits))

end Sys2Proof.Machine
end

