-- ==== Sys2Proof/Safety.lean ====
section
/-! DEFINITION. The terms claims are stated in: the invariant of the machine's states, host operations
that the spec gives an effect, and the signal structure of 43_encoder.md as the spec's own tables give it
for the default configuration (literal numbers, not computed by the model), the register map offset by offset, and
what passes between the parts of one DECODE line. -/

namespace Sys2Proof.Machine

/-- `0 ≤ HSYNC < CRT_HRES` and `0 ≤ VSYNC < CRT_VRES` (10_state.md R25). -/
abbrev trackersOk (c : Cfg) (s : State) : Prop := s.hsync.toNat < c.crtHres ∧ s.vsync.toNat < c.crtVres

/-- The memories inside NCC: canonical, inside their sizes, no INP sample −128 (44_decoder.md R161), and
SCRATCH entries `AV_LEN − 1` and `AV_LEN` still zero (10_state.md R33). -/
abbrev buffersOk (c : Cfg) (b : SignalBuffers) : Prop :=
  Memory.wf b.analog ∧ keysBelow (inputSize c) b.analog ∧
  Memory.wf b.inp ∧ keysBelow (inputSize c) b.inp ∧ (∀ p ∈ b.inp, p.2 ≠ 0x80#8) ∧
  Scratch.wf b.scratch ∧ keysBelow (avLen c - 1) b.scratch

/-- `OUTW ≥ 1` and `OUTH ≥ 1` (10_state.md R26). -/
abbrev rasterOk (s : State) : Prop := 1 ≤ s.outw.toInt ∧ 1 ≤ s.outh.toInt

/-- What holds of every state a run reaches: idle between transitions (30_encoding.md R72), the trackers
in range, XMEM canonical, and once `INITD = 1` the memories in order and the output raster not empty. -/
abbrev stateInv (c : Cfg) (s : State) : Prop :=
  s.flags.busy = false ∧ trackersOk c s ∧ XMem.wf s.xmem ∧
  ∀ b ∈ s.signal, buffersOk c b ∧ rasterOk s

/-- A host operation whose effect the spec gives: a bus access is one whole aligned 32-bit word
(10_state.md R36, 20_memory.md R58). -/
def hostOpOk : HostOp → Bool
  | .busWrite offset bytes _ => wholeWord offset bytes
  | .busRead offset bytes => wholeWord offset bytes
  | .xmemWrite _ _ => true
  | .xmemRead _ => true
  | .hwReset => true

/-- What ENCODE's sync patterning writes at line `n`, column `t` (43_encoder.md R131 to R135, with the
column numbers of their worked examples); `none` where it writes nothing. -/
def syncLevelAt (oddField color : Bool) (n t : Nat) : Option Int :=
  if n < 4 ∨ (7 ≤ n ∧ n < 10) then
    some (if t < 36 then -40 else if t < 455 then 0 else if t < 491 then -40 else 0)
  else if n < 7 then
    some (if t < (if oddField then 36 else 418) then -40
      else if t < 455 then 0 else if t < 873 then -40 else 0)
  else if t < 156 then
    some (if t < 21 then 0 else if t < 88 then -40
      else if color = true ∧ 97 ≤ t ∧ t < 137 then
        (if t % 4 = 1 then 20 else if t % 4 = 3 then -20 else 0)
      else 0)
  else if n < 21 then some 0
  else none

/-- The active-video rectangle (43_encoder.md R141): columns 216 to 852 of lines 29 to 260. -/
abbrev inPicture (n t : Nat) : Prop := 29 ≤ n ∧ n < 261 ∧ 216 ≤ t ∧ t < 853

/-- `syA` and `syB` of 43_encoder.md R136 before the clamp, from the operands (`desth = 232`). -/
def rowShear (a : Args) : Word := BitVec.sdiv (BitVec.sdiv ((a.a3 &&& 1#32) * a.a2 + 232#32) 232#32) 2#32
def rowBeforeClampA (a : Args) (y : Nat) : Word := BitVec.sdiv (BitVec.ofNat 32 y * a.a2) 232#32 + rowShear a
def rowBeforeClampB (a : Args) (y : Nat) : Word :=
  BitVec.sdiv (BitVec.ofNat 32 y * a.a2 + 116#32) 232#32 + rowShear a

/-- `src + sx + row · w`, the XMEM word address of the source pixel of output column `x` in a source row
(20_memory.md R55, 43_encoder.md R136, `destw = 637`). -/
def sourceAddr (a : Args) (x : Nat) (row : Word) : Word :=
  a.a0 + BitVec.sdiv (BitVec.ofNat 32 x * a.a1) 637#32 + row * a.a1

/-- The output raster is not empty, and its row numbers do not wrap in 44_decoder.md R165. -/
abbrev rasterFits (s : State) : Prop := rasterOk s ∧ s.outh.toInt ≤ 2 ^ 23

/-- An XMEM word that is none of the `OUTW · OUTH` words of the output raster (20_memory.md R56). -/
abbrev outsideRaster (s : State) (a : Word) : Prop :=
  ∀ x y : Nat, (x : Int) < s.outw.toInt → (y : Int) < s.outh.toInt →
    a ≠ s.outBase + BitVec.ofNat 32 y * s.outw + BitVec.ofNat 32 x

/-- The quarter-sine table of 40_fixedmath.md R90, in decimal as printed there. -/
def printedSines : List Int :=
  [0, 3208, 6392, 9512, 12536, 15440, 18200, 20784, 23168, 25328, 27240, 28896, 30272, 31352, 32136,
   32608, 32768, 32608]

/-- `sintab(a)` of R91 on unbounded integers, `0 ≤ a ≤ 4096`. -/
def quarterSine (a : Nat) : Int :=
  let lo := printedSines.getD (a / 256) 0
  let hi := printedSines.getD (a / 256 + 1) 0
  lo + (hi - lo) * ((a % 256 : Nat) : Int) / 256

/-- The sine of R92 at T14 angle `n`, `0 ≤ n < 16384`. -/
def turnSine (n : Nat) : Int :=
  let h := n % 8192
  let v := if 4095 < h then quarterSine (8192 - h) else quarterSine h
  if 8191 < n then -v else v

/-- The cosine of R92. -/
def turnCosine (n : Nat) : Int :=
  let h := n % 8192
  let v := if 4095 < h then -quarterSine (h - 4096) else quarterSine (4096 - h)
  if 8191 < n then -v else v

/-- Whether a word is legal by the tables of 30_encoding.md R73 and R74: bits 31:12 zero, a listed
opcode, an allowed `sel`. -/
def legalWord (w : Word) : Bool :=
  let opcode := w.toNat % 256
  let sel := w.toNat / 256
  (sel == 0 && [0x00, 0x01, 0x02, 0x20, 0x21, 0x22, 0x30, 0x31, 0x41].contains opcode)
    || (decide (sel < 3) && [0x10, 0x11, 0x12, 0x18, 0x19, 0x1A].contains opcode)
    || (decide (sel < 2) && opcode == 0x40)

/-- The commands that need `INITD = 1` (60_exceptions.md R221, order 2). -/
def needsInit : Instr → Bool
  | .encode => true
  | .decode => true
  | .rdsig _ => true
  | .wrsig _ => true
  | .nop => false
  | .sincos14 => false
  | .expx => false
  | .iirInit _ => false
  | .iirReset _ => false
  | .iirStep _ => false
  | .eqInit _ => false
  | .eqReset _ => false
  | .eqStep _ => false
  | .crtInit => false
  | .crtResize => false
  | .crtReset => false

/-- Whether the operands are in the command's legal range (60_exceptions.md R221, order 3). -/
def operandsLegal (a : Args) : Instr → Prop
  | .crtInit => 1 ≤ a.a0.toInt ∧ 1 ≤ a.a1.toInt
  | .crtResize => 1 ≤ a.a0.toInt ∧ 1 ≤ a.a1.toInt
  | .encode => 1 ≤ a.a1.toInt ∧ 1 ≤ a.a2.toInt
  | .rdsig _ => (0 ≤ a.a0.toInt ∧ a.a0.toInt < 262) ∧ 0 ≤ a.a1.toInt ∧ a.a1.toInt < 910
  | .wrsig _ => (0 ≤ a.a0.toInt ∧ a.a0.toInt < 262) ∧ 0 ≤ a.a1.toInt ∧ a.a1.toInt < 910
  | .nop => True
  | .sincos14 => True
  | .expx => True
  | .iirInit _ => True
  | .iirReset _ => True
  | .iirStep _ => True
  | .eqInit _ => True
  | .eqReset _ => True
  | .eqStep _ => True
  | .crtReset => True
  | .decode => True

/-- The coefficients and gains of the three equalizers are unchanged. -/
abbrev keepsCoefficients (e e' : PerChannel EqUnit) : Prop :=
  ∀ k, (channelGet e' k).lf = (channelGet e k).lf ∧ (channelGet e' k).hf = (channelGet e k).hf ∧
    (channelGet e' k).g0 = (channelGet e k).g0 ∧ (channelGet e' k).g1 = (channelGet e k).g1 ∧
    (channelGet e' k).g2 = (channelGet e k).g2

/-- The sum of `n` signed values. -/
def intSum (n : Nat) (f : Nat → Int) : Int := ((List.range n).map f).sum

/-- `j` is the first of `0 .. n − 1` at which the running sum of `f` is `≤ bound`: the test of the sync
searches (44_decoder.md R162, R167), on unbounded integers. -/
def firstReach (f : Nat → Int) (bound : Int) (n j : Nat) : Prop :=
  j < n ∧ intSum (j + 1) f ≤ bound ∧ ∀ i, i < j → bound < intSum (i + 1) f

/-- The running sum of `f` over `0 .. n − 1` is never `≤ bound`. -/
def neverReach (f : Nat → Int) (bound : Int) (n : Nat) : Prop :=
  ∀ i, i < n → bound < intSum (i + 1) f

/-! ## The register map, offset by offset (10_state.md R36) -/

/-- The sixteen words of an equalizer instance, each at its offset. -/
def eqShown (base : Nat) (u : EqUnit) : List (Nat × Word) :=
  [(base + 0x00, u.lf), (base + 0x04, u.hf), (base + 0x08, u.g0), (base + 0x0C, u.g1), (base + 0x10, u.g2),
    (base + 0x14, u.fL.s0), (base + 0x18, u.fL.s1), (base + 0x1C, u.fL.s2), (base + 0x20, u.fL.s3),
    (base + 0x24, u.fH.s0), (base + 0x28, u.fH.s1), (base + 0x2C, u.fH.s2), (base + 0x30, u.fH.s3),
    (base + 0x34, u.h0), (base + 0x38, u.h1), (base + 0x3C, u.h2)]

/-- What each read-only register shows, at its offset. -/
def readOnlyShown (s : State) : List (Nat × Word) :=
  [(0x020, s.res0), (0x024, s.res1), (0x04C, s.outw), (0x050, s.outh), (0x054, s.outBase),
    (0x05C, s.fieldDet.setWidth 32), (0x080, s.iir.y.c), (0x084, s.iir.y.h), (0x088, s.iir.i.c),
    (0x08C, s.iir.i.h), (0x090, s.iir.q.c), (0x094, s.iir.q.h)]
  ++ eqShown 0x100 s.eq.y ++ eqShown 0x140 s.eq.i ++ eqShown 0x180 s.eq.q

/-- What each read-write register shows, at its offset; STATUS apart. -/
def readWriteShown (s : State) : List (Nat × Word) :=
  [(0x000, s.cmd), (0x008, s.args.a0), (0x00C, s.args.a1), (0x010, s.args.a2), (0x014, s.args.a3),
    (0x018, s.args.a4), (0x01C, s.args.a5), (0x030, s.tuning.saturation), (0x034, s.tuning.brightness),
    (0x038, s.tuning.contrast), (0x03C, s.tuning.blackPoint), (0x040, s.tuning.whitePoint), (0x044, s.hsync),
    (0x048, s.vsync), (0x058, s.rn), (0x060, s.ccref.p0), (0x064, s.ccref.p1), (0x068, s.ccref.p2),
    (0x06C, s.ccref.p3)]

/-- The state a write of `v` leaves at each read-write offset whose register stores `v` and has no other
effect: all but CMD, STATUS and the two trackers (20_memory.md R59). -/
def storedBy (s : State) (v : Word) : List (Nat × State) :=
  [(0x008, { s with args := { s.args with a0 := v } }), (0x00C, { s with args := { s.args with a1 := v } }),
    (0x010, { s with args := { s.args with a2 := v } }), (0x014, { s with args := { s.args with a3 := v } }),
    (0x018, { s with args := { s.args with a4 := v } }), (0x01C, { s with args := { s.args with a5 := v } }),
    (0x030, { s with tuning := { s.tuning with saturation := v } }),
    (0x034, { s with tuning := { s.tuning with brightness := v } }),
    (0x038, { s with tuning := { s.tuning with contrast := v } }),
    (0x03C, { s with tuning := { s.tuning with blackPoint := v } }),
    (0x040, { s with tuning := { s.tuning with whitePoint := v } }), (0x058, { s with rn := v }),
    (0x060, { s with ccref := { s.ccref with p0 := v } }), (0x064, { s with ccref := { s.ccref with p1 := v } }),
    (0x068, { s with ccref := { s.ccref with p2 := v } }), (0x06C, { s with ccref := { s.ccref with p3 := v } })]

/-! ## One line of DECODE -/

/-- The sample `i` past a place in the signal, read around the ring (20_memory.md R52). -/
def ringSample (inp : Array Sample) (i : Nat) : Sample := inp.getD (i % 238420) 0#8

/-- `max_e` of 44_decoder.md R166, for the noise operand. -/
def fullEnergy (noise : Word) : Word := BitVec.ofInt 32 ((128 + max 0 (min 255 noise.toInt) / 2) * 753)

/-- `field_offset_out` of 44_decoder.md R166. -/
def rowOffset (field : BitVec 1) (outh : Word) : Word :=
  if field = 1#1 then BitVec.sdiv (BitVec.sdiv (outh + 120#32) 240#32) 2#32 else 0#32

/-- What the line rules 44_decoder.md R167 to R177 make of the state `st` before a line that is shown in rows
`beg` to `fin − 1`: signal line `ln`, over the noisy signal `inp`, with the tuning, raster and noise operand of
`s`. The tracker, the burst vector, the demodulated samples, the row of pixels and the vertical fill are those
of `hsyncNext`, `burstRecover`, `demodLine`, `resampleRow` and `verticalFill`; all that passes between them is
written out. -/
def lineDecoded (s : State) (inp : Array Sample) (ln : Nat) (beg fin : Word) (st st' : LineState) : Prop :=
  ∃ (pos : Nat) (dci dcq e lineW scanL : Word) (d : Demod) (env : DecodeEnv),
    st'.hsync = hsyncNext cfg inp ln st.hsync ∧
    st'.ccref = burstRecover cfg inp ln st'.hsync st.ccref ∧
    pos = (156 + st'.hsync.toNat) % 910 + ln * 910 ∧
    dci = quadAt st'.ccref (pos + 1) - quadAt st'.ccref (pos + 3) ∧
    dcq = quadAt st'.ccref (pos + 2) - quadAt st'.ccref pos ∧
    e = BitVec.ofInt 32 (intSum 753 (fun i => (ringSample inp (pos + i)).toInt)) ∧
    st'.prevE = BitVec.sdiv (st.prevE * 123#32) 128#32 +
      BitVec.sdiv ((BitVec.sdiv (fullEnergy s.args.a0) 2#32 - e) * 1024#32) (fullEnergy s.args.a0) ∧
    lineW = 658#32 + BitVec.sdiv st'.prevE 512#32 ∧
    scanL = (376#32 - BitVec.sdiv lineW 2#32 + 8#32) * 4096#32 ∧
    d = demodLine cfg inp (BitVec.ofNat 32 pos) (s.tuning.brightness - (7#32 + s.tuning.blackPoint))
      ⟨-dcq * s.tuning.saturation, dci * s.tuning.saturation, dcq * s.tuning.saturation,
        -dci * s.tuning.saturation⟩ scanL { eq := st.eq, scratch := st.scratch } ∧
    st'.eq = d.eq ∧ st'.scratch = d.scratch ∧
    env.outw = s.outw ∧ env.outBase = s.outBase ∧
    st'.xmem = verticalFill env beg fin
      (resampleRow d.scratch s.tuning.contrast 3080192#32 (BitVec.sdiv (lineW * 4096#32) s.outw)
        s.outw.toInt.toNat scanL (s.outBase + beg * s.outw) st.xmem)

end Sys2Proof.Machine
end

