-- ==== Sys2Proof/Certificates/Slice0/Obligations.lean ====
section
/-! DEFINITION. The statements about the machine that are left to be proved, each a rule of spec/ or a
consequence of several (OBLIGATIONS.json says which). -/

open Sys2Proof Sys2Proof.Machine

/-! ## Decoding and the issue of a command -/

/-- A word decodes to a command exactly when the command is legal and encodes to that word: no bit of a
word is dropped, and no legal word has two meanings (30_encoding.md R71 to R77). -/
def Obligations.DecodeAndEncodeAgree : Prop :=
  ∀ (w : Word) (i : Instr), decode w = .ok i ↔ (i.wellFormed = true ∧ encode i = w)

/-- Words written out from 30_encoding.md R71, R73 and R74 decode to the commands they stand for. -/
def Obligations.WrittenWordsDecode : Prop :=
  decode 0x00000000#32 = .ok .nop ∧ decode 0x00000001#32 = .ok .sincos14 ∧
  decode 0x00000212#32 = .ok (.iirStep .q) ∧ decode 0x0000011A#32 = .ok (.eqStep .i) ∧
  decode 0x00000020#32 = .ok .crtInit ∧ decode 0x00000030#32 = .ok .encode ∧
  decode 0x00000031#32 = .ok .decode ∧ decode 0x00000140#32 = .ok (.rdsig .inp) ∧
  decode 0x00000041#32 = .ok (.wrsig .analog)

/-- R76: a word outside the opcode map, with a non-zero `zero` field or with a `sel` its opcode does not
allow, sets `ERR_ILL`, is stored in `CMD`, and changes nothing else. -/
def Obligations.IllegalWordOnlySetsErrIll : Prop :=
  ∀ (s : State) (w : Word) (rest : List HostOp),
    s.hostOps = .busWrite 0#32 4 w :: rest → s.flags.busy = false → legalWord w = false →
    step s = .next { s with
      cmd := w, hostOps := rest, flags := { s.flags with errIll := true } }

/-- When the host's next operation writes to an idle `CMD` a word that decodes to `i`, the step is `exec i`
on the state with the operation taken and the word stored in `CMD` (10_state.md R22, 30_encoding.md R70). That the host's operations
stand in a list of the state is the model's (log entry 2). -/
def Obligations.StepRunsTheDecodedCommand : Prop :=
  ∀ (s : State) (w : Word) (i : Instr) (rest : List HostOp),
    s.hostOps = .busWrite 0#32 4 w :: rest → s.flags.busy = false → decode w = .ok i →
    step s = exec i { s with cmd := w, hostOps := rest }

/-- R221: a write to an idle `CMD` makes its checks in the order `ERR_ILL`, `ERR_SEQ`, `ERR_ARG`. The first
that fails sets its flag and changes nothing else but `CMD`; a command that passes all three runs to its
end and raises none of the three. -/
def Obligations.CommandChecksRunInOrder : Prop :=
  ∀ (s : State) (w : Word) (rest : List HostOp),
    s.hostOps = .busWrite 0#32 4 w :: rest → s.flags.busy = false →
    (legalWord w = false →
      step s = .next { s with cmd := w, hostOps := rest, flags := { s.flags with errIll := true } }) ∧
    ∀ i, decode w = .ok i → legalWord w = true ∧
      (needsInit i = true → s.signal = none →
        step s = .next { s with cmd := w, hostOps := rest, flags := { s.flags with errSeq := true } }) ∧
      ((needsInit i = true → s.signal ≠ none) → ¬ operandsLegal s.args i →
        step s = .next { s with cmd := w, hostOps := rest, flags := { s.flags with errArg := true } }) ∧
      ((needsInit i = true → s.signal ≠ none) → operandsLegal s.args i →
        ∃ t, step s = .next t ∧ t.flags = { s.flags with divz := t.flags.divz })

/-! ## FixedMath -/

/-- R98: NOP is opcode 0 with `sel` 0, the word `0x00000000`, which is also what `CMD` holds after reset; it
changes no state. -/
def Obligations.NopChangesNothing : Prop :=
  encode .nop = 0x00000000#32 ∧ State.reset.cmd = encode .nop ∧ ∀ s : State, exec .nop s = .next s

/-- R92 on unbounded integers: SINCOS14 is opcode 0x01 with `sel` 0; `RES0` and `RES1` are the sine and cosine
read from the printed table at `ARG0 mod 16384`, for every 32-bit `ARG0`; nothing else changes. -/
def Obligations.Sincos14WritesInterpolatedSineAndCosine : Prop :=
  encode .sincos14 = 0x00000001#32 ∧
  ∀ s : State, exec .sincos14 s = .next { s with
    res0 := BitVec.ofInt 32 (turnSine (s.args.a0.toNat % 16384))
    res1 := BitVec.ofInt 32 (turnCosine (s.args.a0.toNat % 16384)) }

/-- R93 (a) to (d): the period of a turn, the half-turn antisymmetry, the quarter-turn shift and the value
at 0. -/
def Obligations.Sincos14PeriodAndSymmetries : Prop :=
  (∀ n : Word, sincos14 cfg (n + 16384#32) = sincos14 cfg n) ∧
  (∀ n : Word, (sincos14 cfg (n + 8192#32)).sin = -(sincos14 cfg n).sin ∧
    (sincos14 cfg (n + 8192#32)).cos = -(sincos14 cfg n).cos) ∧
  (∀ n : Word, (sincos14 cfg n).cos = (sincos14 cfg (n + 4096#32)).sin) ∧
  sincos14 cfg 0#32 = { sin := 0#32, cos := 32768#32 }

/-- R97: EXPX's reference values; each run changes `RES0` alone. -/
def Obligations.ExpxReferenceValues : Prop :=
  ∀ (s : State) (p : Int × Int),
    p ∈ [((100 : Int), (2150 : Int)), (1024, 3375), (2047, 5562), (2048, 5567), (2049, 5569), (4096, 15133),
      (6144, 41135), (8192, 111817), (10240, 303947), (12777, 1048525), (-100, 1950), (-1024, 1242),
      (-2048, 753), (-4096, 277), (-8192, 37), (-12777, 4)] →
    s.args.a0 = BitVec.ofInt 32 p.1 → exec .expx s = .next { s with res0 := BitVec.ofInt 32 p.2 }

/-- EXPX always completes, writing `RES0` and possibly `DIVZ` (R95): 2048 for 0; for a positive operand the
table passes of its integer part and the Taylor tail of its fraction, whose terms from number 7 on are 0; for
a negative operand the truncated quotient `(2048 ≪ 11) / p` of the value `p` for the negated operand, or 0 with
`DIVZ` when `p` is 0; and no `DIVZ` for an operand `≥ 0`. -/
def Obligations.ExpxCompletesAndReciprocates : Prop :=
  ∀ s : State,
    (s.args.a0 = 0#32 → exec .expx s = .next { s with res0 := 2048#32 }) ∧
    (0 ≤ s.args.a0.toInt → exec .expx s = .next { s with res0 := (expx cfg s.args.a0).val }) ∧
    (∀ (fours whole : Word) (term : Nat → Nat), 0 < s.args.a0.toInt →
      fours = (fun r : Word => (r * 111817#32).sshiftRight 11)^[s.args.a0.toNat / 8192] 2048#32 →
      whole = (match s.args.a0.toNat / 2048 % 4 with
        | 0 => fours
        | 1 => (fours * 5567#32).sshiftRight 11
        | 2 => (fours * 15133#32).sshiftRight 11
        | _ => (fours * 41135#32).sshiftRight 11) →
      term 0 = 2048 → (∀ i, term (i + 1) = term i * (s.args.a0.toNat % 2048) / 2048) →
      exec .expx s = .next { s with
        res0 := (whole * BitVec.ofNat 32 (term 0 + term 1 + term 2 / 2 + term 3 / 6 + term 4 / 24
          + term 5 / 120 + term 6 / 720)).sshiftRight 11 }) ∧
    (s.args.a0.toInt < 0 →
      exec .expx s = .next { s with
        res0 := BitVec.sdiv 4194304#32 (expx cfg (-s.args.a0)).val
        flags := { s.flags with divz := s.flags.divz || (expx cfg (-s.args.a0)).val == 0#32 } })

/-! ## IIR -/

/-- R110: IIR_INIT is opcode 0x10 and names its instance by `sel` 0, 1, 2. It zeroes `h`, sets `c` to
`2048 − expx(−((EXP_PI ≪ 9) / rate))` with `rate = (freq ≪ 9) / limit`, and sets `DIVZ` exactly when
`limit = 0` or `rate = 0`; the other instances and every other register stay. -/
def Obligations.IirInitBuildsTheCoefficient : Prop :=
  (encode (.iirInit .y) = 0x010#32 ∧ encode (.iirInit .i) = 0x110#32 ∧ encode (.iirInit .q) = 0x210#32) ∧
  ∀ (s : State) (k : Channel) (rate : Word), rate = BitVec.sdiv (s.args.a0 <<< 9) s.args.a1 →
    ∃ t, exec (.iirInit k) s = .next t ∧
      t = { s with
        iir := t.iir
        flags := { s.flags with divz := s.flags.divz || s.args.a1 == 0#32 || rate == 0#32 } } ∧
      channelGet t.iir k =
        { c := 2048#32 - (expx cfg (-(BitVec.sdiv 3294208#32 rate))).val, h := 0#32 } ∧
      ∀ j, j ≠ k → channelGet t.iir j = channelGet s.iir j

/-- R111: IIR_RESET is opcode 0x11; it zeroes the accumulator of the instance `sel` names, and changes nothing
else. -/
def Obligations.IirResetZeroesTheAccumulator : Prop :=
  (encode (.iirReset .y) = 0x011#32 ∧ encode (.iirReset .i) = 0x111#32 ∧ encode (.iirReset .q) = 0x211#32) ∧
  ∀ (s : State) (k : Channel), ∃ t, exec (.iirReset k) s = .next t ∧ t = { s with iir := t.iir } ∧
    channelGet t.iir k = { c := (channelGet s.iir k).c, h := 0#32 } ∧
    ∀ j, j ≠ k → channelGet t.iir j = channelGet s.iir j

/-- R112: IIR_STEP is opcode 0x12; it moves the accumulator by `((s − h) · c) ≫ 11` (flooring) and writes it to
`RES0`; nothing else changes. -/
def Obligations.IirStepFiltersOneSample : Prop :=
  (encode (.iirStep .y) = 0x012#32 ∧ encode (.iirStep .i) = 0x112#32 ∧ encode (.iirStep .q) = 0x212#32) ∧
  ∀ (s : State) (k : Channel) (c h h' : Word), channelGet s.iir k = { c := c, h := h } →
    h' = h + ((s.args.a0 - h) * c).sshiftRight 11 →
    ∃ t, exec (.iirStep k) s = .next t ∧ t = { s with iir := t.iir, res0 := h' } ∧
      channelGet t.iir k = { c := c, h := h' } ∧
      ∀ j, j ≠ k → channelGet t.iir j = channelGet s.iir j

/-- The corner case of R112: with `0 ≤ c ≤ 2048` and `|s − h| < 2^20`, the new accumulator lies between the
old one and the input, ends included. -/
def Obligations.IirStepStaysBetweenStateAndInput : Prop :=
  ∀ (u : IirUnit) (x : Word), 0 ≤ u.c.toInt → u.c.toInt ≤ 2048 →
    |x.toInt - u.h.toInt| < 2 ^ 20 →
    (u.h.toInt ≤ x.toInt → u.h.toInt ≤ (iirStep u x).h.toInt ∧ (iirStep u x).h.toInt ≤ x.toInt) ∧
    (x.toInt ≤ u.h.toInt → x.toInt ≤ (iirStep u x).h.toInt ∧ (iirStep u x).h.toInt ≤ u.h.toInt)

/-! ## EQ -/

/-- R120: EQ_INIT is opcode 0x18. It zeroes the cascades and the delay line, takes the gains as given, and sets `lf` and `hf` to
four times the sines at `(8192 · f) / rate`; `DIVZ` is set exactly when `rate = 0`. -/
def Obligations.EqInitBuildsTheInstance : Prop :=
  (encode (.eqInit .y) = 0x018#32 ∧ encode (.eqInit .i) = 0x118#32 ∧ encode (.eqInit .q) = 0x218#32) ∧
  ∀ (s : State) (k : Channel), ∃ t, exec (.eqInit k) s = .next t ∧
    t = { s with
      eq := t.eq, flags := { s.flags with divz := s.flags.divz || s.args.a2 == 0#32 } } ∧
    channelGet t.eq k =
      { lf := 4#32 * (sincos14 cfg (BitVec.sdiv (8192#32 * s.args.a0) s.args.a2)).sin
        hf := 4#32 * (sincos14 cfg (BitVec.sdiv (8192#32 * s.args.a1) s.args.a2)).sin
        g0 := s.args.a3, g1 := s.args.a4, g2 := s.args.a5
        fL := ⟨0#32, 0#32, 0#32, 0#32⟩, fH := ⟨0#32, 0#32, 0#32, 0#32⟩
        h0 := 0#32, h1 := 0#32, h2 := 0#32 } ∧
    ∀ j, j ≠ k → channelGet t.eq j = channelGet s.eq j

/-- R121: EQ_RESET is opcode 0x19; it zeroes the cascades and the delay line of the named instance and keeps `lf`, `hf` and the
gains; nothing else changes. -/
def Obligations.EqResetZeroesTheHistory : Prop :=
  (encode (.eqReset .y) = 0x019#32 ∧ encode (.eqReset .i) = 0x119#32 ∧ encode (.eqReset .q) = 0x219#32) ∧
  ∀ (s : State) (k : Channel), ∃ t, exec (.eqReset k) s = .next t ∧ t = { s with eq := t.eq } ∧
    channelGet t.eq k = { channelGet s.eq k with
      fL := ⟨0#32, 0#32, 0#32, 0#32⟩, fH := ⟨0#32, 0#32, 0#32, 0#32⟩
      h0 := 0#32, h1 := 0#32, h2 := 0#32 } ∧
    ∀ j, j ≠ k → channelGet t.eq j = channelGet s.eq j

/-- R122: EQ_STEP (opcode 0x1A): its eight stage updates, the three bands scaled and added into `RES0`, and the shift of the
delay line; nothing else changes. -/
def Obligations.EqStepFiltersOneSample : Prop :=
  (encode (.eqStep .y) = 0x01A#32 ∧ encode (.eqStep .i) = 0x11A#32 ∧ encode (.eqStep .q) = 0x21A#32) ∧
  ∀ (s : State) (k : Channel) (u : EqUnit) (x l0 l1 l2 l3 m0 m1 m2 m3 : Word),
    channelGet s.eq k = u → x = s.args.a0 →
    l0 = u.fL.s0 + (u.lf * (x - u.fL.s0) + 32768#32).sshiftRight 16 →
    l1 = u.fL.s1 + (u.lf * (l0 - u.fL.s1) + 32768#32).sshiftRight 16 →
    l2 = u.fL.s2 + (u.lf * (l1 - u.fL.s2) + 32768#32).sshiftRight 16 →
    l3 = u.fL.s3 + (u.lf * (l2 - u.fL.s3) + 32768#32).sshiftRight 16 →
    m0 = u.fH.s0 + (u.hf * (x - u.fH.s0) + 32768#32).sshiftRight 16 →
    m1 = u.fH.s1 + (u.hf * (m0 - u.fH.s1) + 32768#32).sshiftRight 16 →
    m2 = u.fH.s2 + (u.hf * (m1 - u.fH.s2) + 32768#32).sshiftRight 16 →
    m3 = u.fH.s3 + (u.hf * (m2 - u.fH.s3) + 32768#32).sshiftRight 16 →
    ∃ t, exec (.eqStep k) s = .next t ∧
      t = { s with
        eq := t.eq
        res0 := (l3 * u.g0).sshiftRight 16 + ((m3 - l3) * u.g1).sshiftRight 16
          + ((u.h2 - m3) * u.g2).sshiftRight 16 } ∧
      channelGet t.eq k = { u with
        fL := ⟨l0, l1, l2, l3⟩, fH := ⟨m0, m1, m2, m3⟩, h0 := x, h1 := u.h0, h2 := u.h1 } ∧
      ∀ j, j ≠ k → channelGet t.eq j = channelGet s.eq j

/-- With all three gains 65536 the bands of R122 add up to `h[2]`, the input of three steps ago, whatever the
coefficients, as long as no band leaves the signed 16-bit range. -/
def Obligations.EqUnityGainsGiveTheDelayedInput : Prop :=
  ∀ (u : EqUnit) (x : Word), u.g0 = 65536#32 → u.g1 = 65536#32 → u.g2 = 65536#32 →
    (-32768 ≤ (eqStep u x).unit.fL.s3.toInt ∧ (eqStep u x).unit.fL.s3.toInt < 32768) →
    (-32768 ≤ ((eqStep u x).unit.fH.s3 - (eqStep u x).unit.fL.s3).toInt ∧
      ((eqStep u x).unit.fH.s3 - (eqStep u x).unit.fL.s3).toInt < 32768) →
    (-32768 ≤ (u.h2 - (eqStep u x).unit.fH.s3).toInt ∧ (u.h2 - (eqStep u x).unit.fH.s3).toInt < 32768) →
    (eqStep u x).out = u.h2

/-! ## Control and buffer access -/

/-- R200: CRT_INIT is opcode 0x20 with `sel` 0. On a non-empty raster it leaves exactly the state of its pseudocode (with the coefficients of
41_iir.md R113 and 42_eq.md R123); on an empty one it sets `ERR_ARG` and nothing else. -/
def Obligations.CrtInitStartsTheMachineOver : Prop :=
  encode .crtInit = 0x00000020#32 ∧
  ∀ s : State,
    (1 ≤ s.args.a0.toInt ∧ 1 ≤ s.args.a1.toInt →
      exec .crtInit s = .next { s with
        signal := some { analog := [], inp := [], scratch := [] }
        ccref := ⟨0#32, 0#32, 0#32, 0#32⟩, rn := 194#32, fieldDet := 0#1
        outw := s.args.a0, outh := s.args.a1, outBase := s.args.a2
        tuning :=
          { saturation := 18#32, brightness := 0#32, contrast := 179#32, blackPoint := 0#32
            whitePoint := 100#32 }
        hsync := 0#32, vsync := 0#32
        eq :=
          { y := { lf := 42156#32, hf := 79824#32, g0 := 65536#32, g1 := 8192#32, g2 := 9175#32
                   fL := ⟨0#32, 0#32, 0#32, 0#32⟩, fH := ⟨0#32, 0#32, 0#32, 0#32⟩
                   h0 := 0#32, h1 := 0#32, h2 := 0#32 }
            i := { lf := 2252#32, hf := 32636#32, g0 := 65536#32, g1 := 65536#32, g2 := 1311#32
                   fL := ⟨0#32, 0#32, 0#32, 0#32⟩, fH := ⟨0#32, 0#32, 0#32, 0#32⟩
                   h0 := 0#32, h1 := 0#32, h2 := 0#32 }
            q := { lf := 2252#32, hf := 28248#32, g0 := 65536#32, g1 := 65536#32, g2 := 0#32
                   fL := ⟨0#32, 0#32, 0#32, 0#32⟩, fH := ⟨0#32, 0#32, 0#32, 0#32⟩
                   h0 := 0#32, h1 := 0#32, h2 := 0#32 } }
        iir := ⟨⟨1233#32, 0#32⟩, ⟨574#32, 0#32⟩, ⟨232#32, 0#32⟩⟩ }) ∧
    (s.args.a0.toInt < 1 ∨ s.args.a1.toInt < 1 →
      exec .crtInit s = .next { s with flags := { s.flags with errArg := true } }) ∧
    ∀ i, Memory.read ([] : Memory) i = 0#8 ∧ Scratch.read ([] : Scratch) i = ⟨0#32, 0#32, 0#32⟩

/-- R201: CRT_RESIZE is opcode 0x21 with `sel` 0; it writes the raster descriptor and nothing else, or sets `ERR_ARG` and nothing else. -/
def Obligations.CrtResizeRebindsTheRaster : Prop :=
  encode .crtResize = 0x00000021#32 ∧
  ∀ s : State,
    (1 ≤ s.args.a0.toInt ∧ 1 ≤ s.args.a1.toInt →
      exec .crtResize s = .next { s with outw := s.args.a0, outh := s.args.a1, outBase := s.args.a2 }) ∧
    (s.args.a0.toInt < 1 ∨ s.args.a1.toInt < 1 →
      exec .crtResize s = .next { s with flags := { s.flags with errArg := true } })

/-- R202: CRT_RESET is opcode 0x22 with `sel` 0; it writes the tuning defaults and zeroes the sync trackers, and nothing else. -/
def Obligations.CrtResetRestoresTuningAndSync : Prop :=
  encode .crtReset = 0x00000022#32 ∧
  ∀ s : State, exec .crtReset s = .next { s with
    tuning :=
      { saturation := 18#32, brightness := 0#32, contrast := 179#32, blackPoint := 0#32
        whitePoint := 100#32 }
    hsync := 0#32, vsync := 0#32 }

/-- R203: RDSIG is opcode 0x40 with `sel` 0 for ANALOG and 1 for INP; it writes the named sample, sign-extended, to `RES0` and changes nothing else; before CRT_INIT it
sets `ERR_SEQ` alone, out of range `ERR_ARG` alone. -/
def Obligations.RdsigReadsOneSample : Prop :=
  (encode (.rdsig .analog) = 0x040#32 ∧ encode (.rdsig .inp) = 0x140#32) ∧
  ∀ (s : State) (buf : SigBuf),
    (s.signal = none → exec (.rdsig buf) s = .next { s with flags := { s.flags with errSeq := true } }) ∧
    ∀ b, s.signal = some b →
      ((0 ≤ s.args.a0.toInt ∧ s.args.a0.toInt < 262) ∧ 0 ≤ s.args.a1.toInt ∧ s.args.a1.toInt < 910 →
        exec (.rdsig buf) s = .next { s with
          res0 := BitVec.ofInt 32
            (Memory.read (match buf with | .analog => b.analog | .inp => b.inp)
              (s.args.a0.toNat * 910 + s.args.a1.toNat)).toInt }) ∧
      (s.args.a0.toInt < 0 ∨ 262 ≤ s.args.a0.toInt ∨ s.args.a1.toInt < 0 ∨ 910 ≤ s.args.a1.toInt →
        exec (.rdsig buf) s = .next { s with flags := { s.flags with errArg := true } })

/-- R204: WRSIG is opcode 0x41 with `sel` 0; it stores `ARG2[7:0]` at the named sample of ANALOG; every other
sample of ANALOG, and all else, stays. Before CRT_INIT it sets `ERR_SEQ` alone, out of range `ERR_ARG` alone. -/
def Obligations.WrsigWritesOneSample : Prop :=
  encode (.wrsig .analog) = 0x00000041#32 ∧
  ∀ s : State,
    (s.signal = none →
      exec (.wrsig .analog) s = .next { s with flags := { s.flags with errSeq := true } }) ∧
    ∀ b, s.signal = some b →
      ((0 ≤ s.args.a0.toInt ∧ s.args.a0.toInt < 262) ∧ 0 ≤ s.args.a1.toInt ∧ s.args.a1.toInt < 910 →
        ∃ m, exec (.wrsig .analog) s = .next { s with signal := some { b with analog := m } } ∧
          ∀ i, Memory.read m i =
            if i = s.args.a0.toNat * 910 + s.args.a1.toNat then s.args.a2.setWidth 8
            else Memory.read b.analog i) ∧
      (s.args.a0.toInt < 0 ∨ 262 ≤ s.args.a0.toInt ∨ s.args.a1.toInt < 0 ∨ 910 ≤ s.args.a1.toInt →
        exec (.wrsig .analog) s = .next { s with flags := { s.flags with errArg := true } })

/-! ## ENCODE -/

/-- R130 to R135, R141, R142, R144: ENCODE on checked operands completes; every sample holds the level of the
sync tables where the sync patterning writes, a level in `[0, 110]` inside the picture rectangle, and what it
held anywhere else; of the rest of the state only the three `IIR[k].h` change (and the model's own count of
`OOB_SRC` values). -/
def Obligations.EncodeWritesTheField : Prop :=
  ∀ (s : State) (b : SignalBuffers), s.signal = some b → Memory.wf b.analog →
    1 ≤ s.args.a1.toInt → 1 ≤ s.args.a2.toInt →
    ∃ (m : Memory) (iir : PerChannel IirUnit) (oob : Nat),
      exec .encode s = .next { s with
        signal := some { b with analog := m }, iir := iir, oobCount := oob } ∧
      (∀ k, (channelGet iir k).c = (channelGet s.iir k).c) ∧
      (∀ n t, n < 262 → t < 910 →
        (∀ v, syncLevelAt (s.args.a3.getLsbD 0) (s.args.a4 != 0#32) n t = some v →
          (Memory.read m (n * 910 + t)).toInt = v) ∧
        (inPicture n t →
          0 ≤ (Memory.read m (n * 910 + t)).toInt ∧ (Memory.read m (n * 910 + t)).toInt ≤ 110) ∧
        (syncLevelAt (s.args.a3.getLsbD 0) (s.args.a4 != 0#32) n t = none → ¬ inPicture n t →
          Memory.read m (n * 910 + t) = Memory.read b.analog (n * 910 + t)))

/-- R130, R160 and R221: before CRT_INIT, ENCODE and DECODE set `ERR_SEQ` alone; ENCODE with `w < 1` or
`h < 1` sets `ERR_ARG` alone. The last clause is the model's choice (log entry 10): the term `WRSIG.INP`, which
no word decodes to, sets `ERR_ILL` alone, as its illegal word does by R76. -/
def Obligations.RefusedCommandsSetOneFlag : Prop :=
  ∀ s : State,
    (s.signal = none →
      exec .encode s = .next { s with flags := { s.flags with errSeq := true } } ∧
      exec .decode s = .next { s with flags := { s.flags with errSeq := true } }) ∧
    (s.signal ≠ none → s.args.a1.toInt < 1 ∨ s.args.a2.toInt < 1 →
      exec .encode s = .next { s with flags := { s.flags with errArg := true } }) ∧
    exec (.wrsig .inp) s = .next { s with flags := { s.flags with errIll := true } }

/-- R136 to R141 for one output row: from accumulators 0, the filters step through the columns in order, each of
Y, I and Q by `h <- h + ((v − h) · c) ≫ 11` over its own summed matrix value `v` of the two source pixels (R139,
41_iir.md R112), and each sample is the clamped composite level of R140. Where the row is row `h` of the source,
the pixel is the word there if somebody has written it, and any word if nobody has (70_reset_and_hazards.md R243
step 5; the model's reading, log entry 3, DEDUCED). After the command the filters are those of the last column of
the last row. -/
def Obligations.EncodePictureRow : Prop :=
  ∀ (s t : State) (b b' : SignalBuffers) (y : Nat) (rowA rowB ph : Word),
    s.signal = some b → Memory.wf b.analog → 1 ≤ s.args.a1.toInt → 1 ≤ s.args.a2.toInt → y < 232 →
    rowA = rowBeforeClampA s.args y → rowB = rowBeforeClampB s.args y →
    ph = (if (y + 29) % 2 = 0 then 1#32 else -1#32) →
    exec .encode s = .next t → t.signal = some b' →
    ∃ f : Nat → PerChannel IirUnit,
      f 0 = { y := ⟨s.iir.y.c, 0#32⟩, i := ⟨s.iir.i.c, 0#32⟩, q := ⟨s.iir.q.c, 0#32⟩ } ∧
      (y = 231 → t.iir = f 637) ∧
      ∀ x, x < 637 →
        ∃ p p' : Word,
          let v : PerChannel Word := rgb2yiqSum p p'
          let cc : Nat → Word := fun n =>
            if n % 4 = 1 then 1#32 else if n % 4 = 3 then -1#32 else 0#32
          let comp : Word := (f (x + 1)).y.h +
            (if s.args.a4 = 0#32 then 0#32
             else (f (x + 1)).i.h * ph * cc x + (f (x + 1)).q.h * ph * cc (x + 3))
          let ire : Word := 7#32 + s.tuning.blackPoint +
            (BitVec.sdiv (comp * 100#32 * s.tuning.whitePoint) 100#32).sshiftRight 10
          (rowA.toInt < s.args.a2.toInt → p = XMem.read s.xmem (sourceAddr s.args x rowA)) ∧
          (rowB.toInt < s.args.a2.toInt → p' = XMem.read s.xmem (sourceAddr s.args x rowB)) ∧
          (∀ w, XMem.find s.xmem (sourceAddr s.args x s.args.a2) = some w →
            (s.args.a2.toInt ≤ rowA.toInt → p = w) ∧ (s.args.a2.toInt ≤ rowB.toInt → p' = w)) ∧
          f (x + 1) =
            { y := ⟨(f x).y.c, (f x).y.h + ((v.y - (f x).y.h) * (f x).y.c).sshiftRight 11⟩
              i := ⟨(f x).i.c, (f x).i.h + ((v.i - (f x).i.h) * (f x).i.c).sshiftRight 11⟩
              q := ⟨(f x).q.c, (f x).q.h + ((v.q - (f x).q.h) * (f x).q.c).sshiftRight 11⟩ } ∧
          (Memory.read b'.analog ((x + 216) + (y + 29) * 910)).toInt
            = if ire.toInt < 0 then 0 else if 110 < ire.toInt then 110 else ire.toInt

/-- R138: each channel of the matrix is the floored sum of the six products over 2^15, and the channels lie in
`0 ≤ fy ≤ 1020`, `−609 ≤ fi ≤ 607`, `−534 ≤ fq ≤ 533`, for all 32-bit pixel words; bits 31:24 do not matter. -/
def Obligations.MatrixSumsTwoPixels : Prop :=
  ∀ p p' : Word,
    let r : Int := (p.toNat / 65536 % 256 : Nat) + (p'.toNat / 65536 % 256 : Nat)
    let g : Int := (p.toNat / 256 % 256 : Nat) + (p'.toNat / 256 % 256 : Nat)
    let b : Int := (p.toNat % 256 : Nat) + (p'.toNat % 256 : Nat)
    (rgb2yiqSum p p').y.toInt = (19595 * r + 38470 * g + 7471 * b) / 32768 ∧
    (rgb2yiqSum p p').i.toInt = (39059 * r - 18022 * g - 21103 * b) / 32768 ∧
    (rgb2yiqSum p p').q.toInt = (13894 * r - 34275 * g + 20382 * b) / 32768 ∧
    (0 ≤ (rgb2yiqSum p p').y.toInt ∧ (rgb2yiqSum p p').y.toInt ≤ 1020) ∧
    (-609 ≤ (rgb2yiqSum p p').i.toInt ∧ (rgb2yiqSum p p').i.toInt ≤ 607) ∧
    (-534 ≤ (rgb2yiqSum p p').q.toInt ∧ (rgb2yiqSum p p').q.toInt ≤ 533)

/-- R137: for heights below 2^23, ENCODE asks for source row `h` exactly when `h ≤ 116`, or `232 ≤ h ≤ 348` with
`field = 1`: with no word of that row written, those are the heights at which it draws an `OOB_SRC` (the model
counts the draws, log entry 3). With every word of that row written, as a host does that "wants a defined result"
(70_reset_and_hazards.md R243 step 5), it draws none, at any height: that a written word of row `h` is read as
written is the model's reading (log entry 3, DEDUCED). -/
def Obligations.EncodeReadsRowHExactlyForTheseHeights : Prop :=
  ∀ (s t : State), s.signal ≠ none → 1 ≤ s.args.a1.toInt → 1 ≤ s.args.a2.toInt → exec .encode s = .next t →
    ((∀ x, x < 637 → XMem.find s.xmem (sourceAddr s.args x s.args.a2) = none) → s.args.a2.toInt < 2 ^ 23 →
      (t.oobCount ≠ s.oobCount ↔
        (s.args.a2.toInt ≤ 116 ∨
          (s.args.a3.getLsbD 0 = true ∧ 232 ≤ s.args.a2.toInt ∧ s.args.a2.toInt ≤ 348)))) ∧
    ((∀ x, x < 637 → XMem.find s.xmem (sourceAddr s.args x s.args.a2) ≠ none) → t.oobCount = s.oobCount)

/-- R144: two states that agree on ENCODE's operands, the words of the source (those at the addresses of R136
in the rows below `h`, and what is written in row `h` where it is asked for, wherever each state's source lies),
`BLACK_POINT`, `WHITE_POINT`, the coefficients `IIR[k].c`, and on which `OOB_SRC` values come next, get the same
samples wherever ENCODE writes, and the same filters, whatever else they hold, in XMEM too. Where every word of
row `h` has been written (70_reset_and_hazards.md R243 step 5, "a defined result"), they need not agree on the
`OOB_SRC` values (the model's reading, log entry 3, DEDUCED). -/
def Obligations.EncodeDependsOnItsInputsOnly : Prop :=
  ∀ (s s' t t' : State) (b b' c c' : SignalBuffers),
    s.signal = some b → s'.signal = some b' → Memory.wf b.analog → Memory.wf b'.analog →
    1 ≤ s.args.a1.toInt → 1 ≤ s.args.a2.toInt →
    s'.args.a1 = s.args.a1 → s'.args.a2 = s.args.a2 →
    s'.args.a3 &&& 1#32 = s.args.a3 &&& 1#32 → (s'.args.a4 = 0#32 ↔ s.args.a4 = 0#32) →
    (∀ x y : Nat, x < 637 → y < 232 → ∀ row ∈ [rowBeforeClampA s.args y, rowBeforeClampB s.args y],
      (row.toInt < s.args.a2.toInt →
        XMem.read s'.xmem (sourceAddr s'.args x row) = XMem.read s.xmem (sourceAddr s.args x row)) ∧
      (s.args.a2.toInt ≤ row.toInt →
        XMem.find s'.xmem (sourceAddr s'.args x s.args.a2) = XMem.find s.xmem (sourceAddr s.args x s.args.a2))) →
    s'.tuning.blackPoint = s.tuning.blackPoint → s'.tuning.whitePoint = s.tuning.whitePoint →
    (∀ k, (channelGet s'.iir k).c = (channelGet s.iir k).c) →
    (s'.oobCount = s.oobCount ∨
      ∀ x, x < 637 → XMem.find s.xmem (sourceAddr s.args x s.args.a2) ≠ none) →
    exec .encode s = .next t → exec .encode s' = .next t' → t.signal = some c → t'.signal = some c' →
    t'.iir = t.iir ∧
    ∀ n x, n < 262 → x < 910 →
      (syncLevelAt (s.args.a3.getLsbD 0) (s.args.a4 != 0#32) n x ≠ none ∨ inPicture n x) →
      Memory.read c'.analog (n * 910 + x) = Memory.read c.analog (n * 910 + x)

/-! ## DECODE -/

/-- R180, "What DECODE leaves alone": DECODE completes once CRT_INIT has run; ANALOG, the tuning registers,
the raster descriptor, the IIR file, the equalizers' coefficients and gains, the operand and result registers,
`CMD` and every flag are unchanged, and (with `OUTH` at most 2^23, so that the row numbers of R165 do not wrap)
so is every XMEM word outside the output raster. -/
def Obligations.DecodeCompletesAndLeavesAlone : Prop :=
  ∀ (s : State) (b : SignalBuffers), s.signal = some b →
    ∃ (t : State) (inp : Memory) (scratch : Scratch), exec .decode s = .next t ∧
      t = { s with
        hsync := t.hsync, vsync := t.vsync, rn := t.rn, fieldDet := t.fieldDet, ccref := t.ccref
        eq := t.eq, xmem := t.xmem
        signal := some { analog := b.analog, inp := inp, scratch := scratch } } ∧
      keepsCoefficients s.eq t.eq ∧
      (rasterFits s → ∀ a, outsideRaster s a → XMem.find t.xmem a = XMem.find s.xmem a)

/-- R161: after DECODE, `INP[i]` is `clamp(ANALOG[i] + (noise · (r − 0x7f)) / 256, −127, 127)` with `r` the
byte of the generator's `i + 1`-th state, on unbounded integers, for every `i`; and `RN` has taken one step
per sample. -/
def Obligations.DecodeInjectsNoise : Prop :=
  ∀ (s t : State) (b b' : SignalBuffers), s.signal = some b → Memory.wf b.analog →
    exec .decode s = .next t → t.signal = some b' →
    t.rn = (fun r : Word => 214019#32 * r + 140327895#32)^[238420] s.rn ∧
    ∀ i, i < 238420 →
      (Memory.read b'.inp i).toInt =
        max (-127) (min 127 ((Memory.read b.analog i).toInt +
          Int.tdiv (max 0 (min 255 s.args.a0.toInt) *
            (((((fun r : Word => 214019#32 * r + 140327895#32)^[i + 1] s.rn).toNat / 65536 % 256 : Nat) : Int)
              - 127)) 256))

/-- R162 to R164, on unbounded integers: the candidates `VSYNC − 8` to `VSYNC + 7` are tried in order; the
first on which the running sum of INP reaches −4000 becomes `VSYNC`, and `FIELD_DET` says whether it did so
past column 455; when none does, `VSYNC` is the last candidate and `FIELD_DET` is 1. -/
def Obligations.DecodeFindsVerticalSync : Prop :=
  ∀ (s t : State) (b b' : SignalBuffers), s.signal = some b → s.vsync.toNat < 262 →
    exec .decode s = .next t → t.signal = some b' →
    let cand : Nat → Nat := fun k => (s.vsync.toNat + 254 + k) % 262
    let line : Nat → Nat → Int := fun l k => (Memory.read b'.inp (l * 910 + k)).toInt
    (∃ k j, k < 16 ∧ firstReach (line (cand k)) (-4000) 910 j ∧
      (∀ k', k' < k → neverReach (line (cand k')) (-4000) 910) ∧
      t.vsync.toNat = cand k ∧ t.fieldDet = if 455 < j then 1#1 else 0#1) ∨
    ((∀ k, k < 16 → neverReach (line (cand k)) (-4000) 910) ∧
      t.vsync.toNat = cand 15 ∧ t.fieldDet = 1#1)

/-- R167 and R168, on unbounded integers: from signal line `ln` and tracker `hsync`, the search answers the
first of −8 to 7 at which the running sum, read around the ring from `SYNC_BEG − 8`, reaches −160, and 8 when
none does; the new tracker is the old one plus that, modulo 910. (DecodeRunsItsLinesInOrder says that DECODE's
`HSYNC` is this tracker after the last line.) -/
def Obligations.HorizontalSyncSearch : Prop :=
  ∀ (inp : Array Sample) (ln : Nat) (hsync : Word), ln < 262 → hsync.toNat < 910 →
    let value : Nat → Int := fun k => (ringSample inp (ln * 910 + hsync.toNat + 13 + k)).toInt
    ∃ k : Int,
      ((∃ j, firstReach value (-160) 16 j ∧ k = (j : Int) - 8) ∨ (neverReach value (-160) 16 ∧ k = 8)) ∧
      (hsyncShift cfg inp ln hsync).toInt = k ∧
      ((hsyncNext cfg inp ln hsync).toNat : Int) = ((hsync.toNat : Int) + k) % 910

/-- 44_decoder.md R169: on one line each of the four burst registers takes ten updates
`c <- (c · 127) / 128 + sample`, over the samples of the burst window whose column is its number modulo 4, from
the 4-aligned tracker on, around the ring. R178 (h): after DECODE, whatever the state before,
`|CCREF[k]| ≤ 16256`. -/
def Obligations.BurstRecoveryAveragesWithinBounds : Prop :=
  (∀ (inp : Array Sample) (ln : Nat) (hsync : Word) (ccref : Quad Word) (k : Nat),
    ln < 262 → hsync.toNat < 910 → k < 4 →
    quadAt (burstRecover cfg inp ln hsync ccref) k =
      (List.range 10).foldl
        (fun c j => BitVec.sdiv (c * 127#32) 128#32 +
          (ringSample inp (ln * 910 + hsync.toNat / 4 * 4 + (97 + (k + 3) % 4) + 4 * j)).signExtend 32)
        (quadAt ccref k)) ∧
  ∀ (s t : State), s.signal ≠ none → exec .decode s = .next t →
    ∀ k, |(quadAt t.ccref k).toInt| ≤ 16256

/-- 90_conflicts.md C1: DECODE's whole result does not depend on the `CCREF`, `FIELD_DET` or INP before it. -/
def Obligations.DecodeForgetsTheOldBurstVector : Prop :=
  ∀ (s : State) (b : SignalBuffers) (q : Quad Word) (f : BitVec 1) (m : Memory), s.signal = some b →
    exec .decode { s with ccref := q, fieldDet := f, signal := some { b with inp := m } } = exec .decode s

/-- 44_decoder.md R178 (c) to (f): the bloom keeps `prev_e` in `[−12903, 39117]`, and the line width and the
left end of the scan then lie in `[633, 734]` and `[17, 68]`. Within these bounds no column of a row reaches `scanR`
(752 · 4096 = 3080192): the position of every column, whatever `OUTW`, lies in `[17 · 4096, scanR)`, so that R174's
loop always ends on the row's last column. -/
def Obligations.BloomStaysInBounds : Prop :=
  ∀ noise e p : Word, 0 ≤ noise.toInt → noise.toInt ≤ 255 → |e.toInt| ≤ 95631 →
    -12903 ≤ p.toInt → p.toInt ≤ 39117 →
    let p' := bloomEnergy (maxEnergy cfg noise) p e
    (-12903 ≤ p'.toInt ∧ p'.toInt ≤ 39117) ∧
    (633 ≤ (lineWidth cfg p').toInt ∧ (lineWidth cfg p').toInt ≤ 734) ∧
    17 ≤ ((scanLeft cfg (lineWidth cfg p')).sshiftRight 12).toInt ∧
    ((scanLeft cfg (lineWidth cfg p')).sshiftRight 12).toInt ≤ 68 ∧
    ∀ (outw : Word) (col : Nat), (col : Int) < outw.toInt →
      let position := scanLeft cfg (lineWidth cfg p') +
        BitVec.ofNat 32 col * BitVec.sdiv (lineWidth cfg p' * 4096#32) outw
      69632 ≤ position.toInt ∧ position.toInt < 3080192

/-- 44_decoder.md R173: demodulating a line resets the three equalizers' histories and then takes the samples of
the window `scanL ≫ 12 .. AV_LEN − 2` in order; it writes no SCRATCH entry outside the window, and the equalizers
keep their coefficients and gains. -/
def Obligations.DemodulationRunsThroughItsWindow : Prop :=
  ∀ (inp : Array Sample) (pos bright scanL : Word) (wave : Quad Word) (d : Demod) (lo : Nat),
    lo = (scanL.sshiftRight 12).toInt.toNat →
    (∃ f : Nat → Demod,
      f lo = { eq := ⟨eqReset d.eq.y, eqReset d.eq.i, eqReset d.eq.q⟩, scratch := d.scratch } ∧
      (∀ i, lo ≤ i → i < 752 → f (i + 1) = demodSample cfg inp pos bright wave (f i) i) ∧
      demodLine cfg inp pos bright wave scanL d = f (max lo 752)) ∧
    (∀ i, i < lo ∨ 752 ≤ i →
      (demodLine cfg inp pos bright wave scanL d).scratch.getD i zeroTriple = d.scratch.getD i zeroTriple) ∧
    (demodLine cfg inp pos bright wave scanL d).scratch.size = d.scratch.size ∧
    keepsCoefficients d.eq (demodLine cfg inp pos bright wave scanL d).eq

/-- DECODE line by line, R160 and R165 to R177: from `CCREF = 0` and `prev_e = 2048`, the 240 lines run in order,
each on what the line before left; a line whose first row is at or past `OUTH` does nothing at all, any other
does what `lineDecoded` says, its last row cut to `OUTH`; what the last line leaves is what DECODE leaves. -/
def Obligations.DecodeRunsItsLinesInOrder : Prop :=
  ∀ (s t : State) (b b' : SignalBuffers), s.signal = some b → Scratch.wf b.scratch →
    exec .decode s = .next t → t.signal = some b' →
    ∃ (inp : Array Sample) (f : Nat → LineState),
      (inp.size = 238420 ∧ ∀ i, inp.getD i 0#8 = Memory.read b'.inp i) ∧
      ((f 0).hsync = s.hsync ∧ (f 0).ccref = ⟨0#32, 0#32, 0#32, 0#32⟩ ∧ (f 0).prevE = 2048#32 ∧
        (f 0).eq = s.eq ∧ (f 0).xmem = s.xmem ∧ (f 0).scratch.size = 754 ∧
        ∀ i, i < 754 → (f 0).scratch.getD i zeroTriple = Scratch.read b.scratch i) ∧
      ((f 240).hsync = t.hsync ∧ (f 240).ccref = t.ccref ∧ (f 240).eq = t.eq ∧ (f 240).xmem = t.xmem ∧
        ∀ i, (f 240).scratch.getD i zeroTriple = Scratch.read b'.scratch i) ∧
      ∀ (n : Nat) (beg fin : Word), n < 240 →
        beg = BitVec.sdiv (BitVec.ofNat 32 n * s.outh) 240#32 + rowOffset t.fieldDet s.outh →
        fin = BitVec.sdiv (BitVec.ofNat 32 (n + 1) * s.outh) 240#32 + rowOffset t.fieldDet s.outh →
        (s.outh.toInt ≤ beg.toInt → f (n + 1) = f n) ∧
        (beg.toInt < s.outh.toInt →
          lineDecoded s inp ((n + 21 + t.vsync.toNat) % 262) beg
            (if s.outh.toInt < fin.toInt then s.outh else fin) (f n) (f (n + 1)))

/-- 44_decoder.md R173, the loop body: at offset `i` from `pos` the three equalizers take one step each, over the
sample plus `bright`, and over the sample times the wave at phases `i` and `i + 3`, shifted by 9; entry `i` of
SCRATCH becomes their outputs, shifted, and no other entry changes. -/
def Obligations.DemodulateOneSample : Prop :=
  ∀ (inp : Array Sample) (pos bright sg : Word) (wave : Quad Word) (d : Demod) (i : Nat)
    (ey ei eq : EqStepped), pos.toNat + i < 2 ^ 31 →
    sg = (ringSample inp (pos.toNat + i)).signExtend 32 →
    ey = eqStep d.eq.y (sg + bright) →
    ei = eqStep d.eq.i ((sg * (match i % 4 with
      | 0 => wave.p0 | 1 => wave.p1 | 2 => wave.p2 | _ => wave.p3)).sshiftRight 9) →
    eq = eqStep d.eq.q ((sg * (match i % 4 with
      | 0 => wave.p3 | 1 => wave.p0 | 2 => wave.p1 | _ => wave.p2)).sshiftRight 9) →
    (demodSample cfg inp pos bright wave d i).eq = ⟨ey.unit, ei.unit, eq.unit⟩ ∧
    (i < d.scratch.size →
      (demodSample cfg inp pos bright wave d i).scratch.getD i zeroTriple =
        ⟨ey.out <<< 4, ei.out.sshiftRight 3, eq.out.sshiftRight 3⟩) ∧
    ∀ j, j ≠ i →
      (demodSample cfg inp pos bright wave d i).scratch.getD j zeroTriple = d.scratch.getD j zeroTriple

/-- 44_decoder.md R174, R175 and the packing of R176: the colour of a pixel at a position `p ≥ 0`, from the two
SCRATCH entries around it. -/
def Obligations.PixelColourFromTwoTriples : Prop :=
  ∀ (scratch : Array (PerChannel Word)) (con p rw lw y i q : Word) (a b : PerChannel Word), 0 ≤ p.toInt →
    a = scratch.getD (p.toNat / 4096) zeroTriple → b = scratch.getD (p.toNat / 4096 + 1) zeroTriple →
    rw = BitVec.ofNat 32 (p.toNat % 4096) → lw = 4095#32 - rw →
    y = (a.y * lw).sshiftRight 2 + (b.y * rw).sshiftRight 2 →
    i = (a.i * lw).sshiftRight 14 + (b.i * rw).sshiftRight 14 →
    q = (a.q * lw).sshiftRight 14 + (b.q * rw).sshiftRight 14 →
    let byte := fun v : Word => max 0 (min 255 (Int.tdiv (v.sshiftRight 12 * con).toInt 256))
    ((packedRgb con (resampleAt scratch p)).toNat : Int) =
      byte (y + 3879#32 * i + 2556#32 * q) * 65536 + byte (y - 1126#32 * i - 2605#32 * q) * 256 +
        byte (y - 4530#32 * i + 7021#32 * q)

/-- 44_decoder.md R174 and R176: of a row of `n` columns, of which the first `m` have positions left of `scanR` and
the next one, if the row has one, has not, the column loop blends each of the first `m` columns' pixel into its
word, once, and touches no other word: the columns from `m` on keep theirs. -/
def Obligations.ColumnLoopBlendsEachPixel : Prop :=
  ∀ (scratch : Array (PerChannel Word)) (con scanR dx p addr : Word) (n m : Nat) (xmem : XMem), n ≤ 2 ^ 32 →
    m ≤ n → (∀ col, col < m → (p + BitVec.ofNat 32 col * dx).slt scanR = true) →
    (m < n → (p + BitVec.ofNat 32 m * dx).slt scanR = false) →
    (∀ col, col < m →
      XMem.read (resampleRow scratch con scanR dx n p addr xmem) (addr + BitVec.ofNat 32 col) =
        blendWords (packedRgb con (resampleAt scratch (p + BitVec.ofNat 32 col * dx)))
          (XMem.read xmem (addr + BitVec.ofNat 32 col))) ∧
    (∀ a : Word, (∀ col, col < m → a ≠ addr + BitVec.ofNat 32 col) →
      XMem.find (resampleRow scratch con scanR dx n p addr xmem) a = XMem.find xmem a) ∧
    ∀ col, m ≤ col → col < n →
      XMem.find (resampleRow scratch con scanR dx n p addr xmem) (addr + BitVec.ofNat 32 col) =
        XMem.find xmem (addr + BitVec.ofNat 32 col)

/-- 44_decoder.md R176: the blend is half of each channel of the new pixel plus half of the old one's, each
halved with truncation, and bits 31:24 of the result are 0. -/
def Obligations.BlendHalvesEachChannel : Prop :=
  ∀ aa bb : Word, (blendWords aa bb).toNat =
    (aa.toNat / 65536 % 256 / 2 + bb.toNat / 65536 % 256 / 2) * 65536 +
    (aa.toNat / 256 % 256 / 2 + bb.toNat / 256 % 256 / 2) * 256 +
    (aa.toNat % 256 / 2 + bb.toNat % 256 / 2)

/-- 44_decoder.md R177: when the rows do not wrap around XMEM, the vertical fill makes rows `beg + 1` to
`end − 1` equal to row `beg`, and touches no word outside them; with `beg = end` (several lines blended into one
row, R165) it touches nothing. -/
def Obligations.VerticalFillRepeatsTheRow : Prop :=
  ∀ (e : DecodeEnv) (beg fin : Word) (xmem : XMem), 0 ≤ beg.toInt → 1 ≤ e.outw.toInt →
    beg.toInt ≤ fin.toInt → (fin.toInt - beg.toInt) * e.outw.toInt ≤ 2 ^ 32 →
    (∀ (r x : Nat), (beg.toInt + r < fin.toInt) → (x : Int) < e.outw.toInt →
      XMem.read (verticalFill e beg fin xmem)
          (e.outBase + (beg + BitVec.ofNat 32 r) * e.outw + BitVec.ofNat 32 x) =
        XMem.read xmem (e.outBase + beg * e.outw + BitVec.ofNat 32 x)) ∧
    (∀ a : Word,
      (∀ r x : Nat, 1 ≤ r → beg.toInt + r < fin.toInt → (x : Int) < e.outw.toInt →
        a ≠ e.outBase + (beg + BitVec.ofNat 32 r) * e.outw + BitVec.ofNat 32 x) →
      XMem.find (verticalFill e beg fin xmem) a = XMem.find xmem a)

/-- 20_memory.md R56: with `OUTH` at most 2^23, so that the row numbers of R165 do not wrap, DECODE touches no
XMEM word outside the `OUTW · OUTH` words of the output raster. -/
def Obligations.DecodeWritesTheOutputRasterOnly : Prop :=
  ∀ (s t : State) (a : Word), s.signal ≠ none → rasterFits s → exec .decode s = .next t →
    outsideRaster s a → XMem.find t.xmem a = XMem.find s.xmem a

/-- 20_memory.md R54: every word DECODE writes has bits 31:24 equal to 0 (for `OUTH` at most 2^23). -/
def Obligations.DecodeWritesColourBitsOnly : Prop :=
  ∀ (s t : State) (a v : Word), s.signal ≠ none → rasterFits s → exec .decode s = .next t →
    XMem.find t.xmem a = some v → XMem.find s.xmem a = some v ∨ v.toNat < 2 ^ 24

/-! ## Whole-machine rules -/

/-- R39: a command writes only the state in its row of the table (the error flags apart, and the model's own
count of `OOB_SRC` values, which ENCODE advances): of ANALOG, ENCODE writes the part of R141 and WRSIG one sample;
of XMEM, DECODE writes the words of the output raster (with `OUTH` at most 2^23, so that the row numbers of R165
do not wrap). -/
def Obligations.CommandWriteSets : Prop :=
  ∀ (i : Instr) (s t : State), exec i s = .next t →
    match i with
    | .nop => t = s
    | .sincos14 => t = { s with res0 := t.res0, res1 := t.res1 }
    | .expx => t = { s with res0 := t.res0, flags := t.flags }
    | .iirInit k =>
      t = { s with iir := t.iir, flags := t.flags } ∧ ∀ j, j ≠ k → channelGet t.iir j = channelGet s.iir j
    | .iirReset k =>
      t = { s with iir := t.iir } ∧ (channelGet t.iir k).c = (channelGet s.iir k).c ∧
        ∀ j, j ≠ k → channelGet t.iir j = channelGet s.iir j
    | .iirStep k =>
      t = { s with iir := t.iir, res0 := t.res0 } ∧ (channelGet t.iir k).c = (channelGet s.iir k).c ∧
        ∀ j, j ≠ k → channelGet t.iir j = channelGet s.iir j
    | .eqInit k =>
      t = { s with eq := t.eq, flags := t.flags } ∧ ∀ j, j ≠ k → channelGet t.eq j = channelGet s.eq j
    | .eqReset k =>
      t = { s with eq := t.eq } ∧ keepsCoefficients s.eq t.eq ∧
        ∀ j, j ≠ k → channelGet t.eq j = channelGet s.eq j
    | .eqStep k =>
      t = { s with eq := t.eq, res0 := t.res0 } ∧ keepsCoefficients s.eq t.eq ∧
        ∀ j, j ≠ k → channelGet t.eq j = channelGet s.eq j
    | .crtInit =>
      t = { s with
        flags := t.flags, tuning := t.tuning, hsync := t.hsync, vsync := t.vsync, outw := t.outw, outh := t.outh
        outBase := t.outBase, rn := t.rn, fieldDet := t.fieldDet, ccref := t.ccref, iir := t.iir, eq := t.eq
        signal := t.signal }
    | .crtResize =>
      t = { s with outw := t.outw, outh := t.outh, outBase := t.outBase, flags := t.flags }
    | .crtReset => t = { s with tuning := t.tuning, hsync := t.hsync, vsync := t.vsync }
    | .encode =>
      t = { s with iir := t.iir, signal := t.signal, oobCount := t.oobCount, flags := t.flags } ∧
        (∀ k, (channelGet t.iir k).c = (channelGet s.iir k).c) ∧
        t.signal.map (fun b => (b.inp, b.scratch)) = s.signal.map (fun b => (b.inp, b.scratch)) ∧
        ∀ b b', s.signal = some b → t.signal = some b' → Memory.wf b.analog →
          ∀ n x, n < 262 → x < 910 →
            syncLevelAt (s.args.a3.getLsbD 0) (s.args.a4 != 0#32) n x = none → ¬ inPicture n x →
            Memory.read b'.analog (n * 910 + x) = Memory.read b.analog (n * 910 + x)
    | .decode =>
      t = { s with
        rn := t.rn, ccref := t.ccref, hsync := t.hsync, vsync := t.vsync, fieldDet := t.fieldDet
        eq := t.eq, signal := t.signal, xmem := t.xmem, flags := t.flags } ∧
        keepsCoefficients s.eq t.eq ∧
        t.signal.map (fun b => b.analog) = s.signal.map (fun b => b.analog) ∧
        (rasterFits s → ∀ a, outsideRaster s a → XMem.find t.xmem a = XMem.find s.xmem a)
    | .rdsig _ => t = { s with res0 := t.res0, flags := t.flags }
    | .wrsig _ =>
      t = { s with signal := t.signal, flags := t.flags } ∧
        t.signal.map (fun b => (b.inp, b.scratch)) = s.signal.map (fun b => (b.inp, b.scratch)) ∧
        ∀ b b', s.signal = some b → t.signal = some b' →
          ∀ j, j ≠ s.args.a0.toNat * 910 + s.args.a1.toNat → Memory.read b'.analog j = Memory.read b.analog j

/-- R220: no command stops the machine; every one ends in a next state. -/
def Obligations.EveryCommandEndsInANextState : Prop :=
  ∀ (i : Instr) (s : State), ∃ t, exec i s = .next t

/-- R23, "The five error bits are sticky: no command clears them"; nor does any command clear `INITD`. -/
def Obligations.NoCommandClearsAStickyBit : Prop :=
  ∀ (i : Instr) (s t : State), exec i s = .next t →
    (s.flags.errIll = true → t.flags.errIll = true) ∧ (s.flags.errSeq = true → t.flags.errSeq = true) ∧
    (s.flags.errArg = true → t.flags.errArg = true) ∧ (s.flags.errBusy = true → t.flags.errBusy = true) ∧
    (s.flags.divz = true → t.flags.divz = true) ∧ (s.initd = true → t.initd = true)

/-- R23: `INITD` is set by CRT_INIT and cleared by hardware reset only. -/
def Obligations.InitdChangesOnlyByInitAndReset : Prop :=
  ∀ (s t : State), step s = .next t → t.initd ≠ s.initd →
    (∃ rest, s.hostOps = .hwReset :: rest ∧ t.initd = false) ∨
    (∃ rest, s.hostOps = .busWrite 0#32 4 0x20#32 :: rest ∧ t.initd = true)

/-- The invariant of Safety.lean holds at reset. -/
def Obligations.InvariantHoldsAtReset : Prop := stateInv cfg State.reset

/-- From every state with the invariant, a step that answers a next state answers one with the invariant:
trackers in range, memories canonical and inside their sizes, no INP sample −128, the last two SCRATCH entries
zero, the output raster not empty, `BUSY` 0. -/
def Obligations.EveryStepKeepsTheInvariant : Prop :=
  ∀ s t : State, stateInv cfg s → step s = .next t → stateInv cfg t

/-- From every state with the invariant, a host that makes whole-word accesses only is never stopped (log entries
2, 8 and 9); with nothing from the host a step changes nothing, for "an idle NCC holds its state indefinitely"
(R232; the host's list of operations is the model's, log entry 2). -/
def Obligations.WholeWordHostsAreNeverStopped : Prop :=
  ∀ s : State,
    (stateInv cfg s → (∀ op ∈ s.hostOps, hostOpOk op = true) → ∃ t, step s = .next t) ∧
    (s.hostOps = [] → step s = .next s)

/-! ## The register bus, XMEM and reset -/

/-- R23 and R223: a read of STATUS shows the seven fields at their bits and every other bit 0, and changes
nothing but what the host has observed; a write clears the error bits written with 1 and nothing else; both
busy or not. -/
def Obligations.StatusReadsItsFieldsAndClearsErrorBits : Prop :=
  ∀ (s : State) (rest : List HostOp),
    (s.hostOps = .busRead 4#32 4 :: rest →
      ∃ v : Word, step s = .next { s with hostOps := rest, observed := v :: s.observed } ∧
        v.getLsbD 0 = s.flags.busy ∧ v.getLsbD 1 = s.initd ∧ v.getLsbD 2 = s.flags.errIll ∧
        v.getLsbD 3 = s.flags.errSeq ∧ v.getLsbD 4 = s.flags.errArg ∧ v.getLsbD 5 = s.flags.errBusy ∧
        v.getLsbD 6 = s.flags.divz ∧ v.toNat < 128) ∧
    ∀ v, s.hostOps = .busWrite 4#32 4 v :: rest →
      step s = .next { s with
        hostOps := rest
        flags :=
          { busy := s.flags.busy
            errIll := s.flags.errIll && !v.getLsbD 2
            errSeq := s.flags.errSeq && !v.getLsbD 3
            errArg := s.flags.errArg && !v.getLsbD 4
            errBusy := s.flags.errBusy && !v.getLsbD 5
            divz := s.flags.divz && !v.getLsbD 6 } }

/-- R223: while `BUSY = 1`, every whole-word access to an offset other than STATUS's is dropped and sets
`ERR_BUSY`; a read then returns 0. -/
def Obligations.BusyAccessesAreDropped : Prop :=
  ∀ (s : State) (offset v : Word) (rest : List HostOp), s.flags.busy = true → offset ≠ 4#32 →
    offset.toNat % 4 = 0 →
    (s.hostOps = .busWrite offset 4 v :: rest →
      step s = .next { s with hostOps := rest, flags := { s.flags with errBusy := true } }) ∧
    (s.hostOps = .busRead offset 4 :: rest →
      step s = .next { s with
        hostOps := rest, flags := { s.flags with errBusy := true }, observed := 0#32 :: s.observed })

/-- R25: a host write of `v` to HSYNC stores `pmod(v, 910)`, to VSYNC `pmod(v, 262)`; nothing else changes. -/
def Obligations.HostWritesToTrackersAreReduced : Prop :=
  ∀ (s : State) (v : Word) (rest : List HostOp), s.flags.busy = false →
    (s.hostOps = .busWrite 0x044#32 4 v :: rest →
      step s = .next { s with hostOps := rest, hsync := BitVec.ofInt 32 (v.toInt % 910) }) ∧
    (s.hostOps = .busWrite 0x048#32 4 v :: rest →
      step s = .next { s with hostOps := rest, vsync := BitVec.ofInt 32 (v.toInt % 262) })

/-- R36: a write to a read-only register or a reserved offset is ignored and sets no flag; a read of each
read-only register observes that register; a reserved offset reads 0. -/
def Obligations.ReadOnlyAndReservedOffsets : Prop :=
  ∀ (s : State) (offset v : Word) (rest : List HostOp), s.flags.busy = false → offset.toNat % 4 = 0 →
    ((offset.toNat ∈ [0x020, 0x024, 0x04C, 0x050, 0x054, 0x05C] ∨ 0x070 ≤ offset.toNat) →
      s.hostOps = .busWrite offset 4 v :: rest → step s = .next { s with hostOps := rest }) ∧
    ((offset.toNat, v) ∈ readOnlyShown s → s.hostOps = .busRead offset 4 :: rest →
      step s = .next { s with hostOps := rest, observed := v :: s.observed }) ∧
    ((offset.toNat ∈ [0x028, 0x02C] ∨ (0x070 ≤ offset.toNat ∧ offset.toNat < 0x080) ∨
        (0x098 ≤ offset.toNat ∧ offset.toNat < 0x100) ∨ 0x1C0 ≤ offset.toNat) →
      (s.hostOps = .busWrite offset 4 v :: rest → step s = .next { s with hostOps := rest }) ∧
      (s.hostOps = .busRead offset 4 :: rest →
        step s = .next { s with hostOps := rest, observed := 0#32 :: s.observed }))

/-- R36 and R59: a read of each read-write register observes that register and changes nothing else; what the
host writes to an operand, tuning, `RN` or `CCREF` register is stored in that register and changes nothing else,
and its next read of the same offset observes it. (The writes with more effect than that have statements of their
own: CMD, STATUS and the two trackers.) -/
def Obligations.ReadWriteRegistersReadBack : Prop :=
  ∀ (s : State) (offset v : Word) (rest : List HostOp), s.flags.busy = false →
    ((offset.toNat, v) ∈ readWriteShown s → s.hostOps = .busRead offset 4 :: rest →
      step s = .next { s with hostOps := rest, observed := v :: s.observed }) ∧
    ∀ t, (offset.toNat, t) ∈ storedBy s v →
      (s.hostOps = .busWrite offset 4 v :: rest → step s = .next { t with hostOps := rest }) ∧
      (offset.toNat, v) ∈ readWriteShown t ∧
      (s.hostOps = .busWrite offset 4 v :: .busRead offset 4 :: rest →
        ∃ u, step s = .next u ∧ step u = .next { t with hostOps := rest, observed := v :: s.observed })

/-- A host access that is not one whole aligned 32-bit word is refused by name: the model's choice (log entry 9)
for what 20_memory.md R58 leaves open, "a model refuses it". -/
def Obligations.NarrowHostAccessIsRefused : Prop :=
  ∀ (s : State) (offset v : Word) (bytes : Nat) (rest : List HostOp),
    (bytes ≠ 4 ∨ offset.toNat % 4 ≠ 0) →
    (s.hostOps = .busWrite offset bytes v :: rest → step s = .refused .narrowHostAccess) ∧
    (s.hostOps = .busRead offset bytes :: rest → step s = .refused .narrowHostAccess)

/-- R78 and R53: while NCC is idle, the host's own XMEM write changes its word alone, and its XMEM read
observes the word; during a command either is the race of 70_reset_and_hazards.md R247, where the model's choice
is to stop with a fault (log entry 8). -/
def Obligations.HostAccessesXmemWhileIdle : Prop :=
  ∀ (s : State) (a v : Word) (rest : List HostOp),
    (s.flags.busy = false → s.hostOps = .xmemWrite a v :: rest →
      ∃ m, step s = .next { s with hostOps := rest, xmem := m } ∧
        ∀ a', XMem.read m a' = if a' = a then v else XMem.read s.xmem a') ∧
    (s.flags.busy = false → s.hostOps = .xmemRead a :: rest →
      step s = .next { s with hostOps := rest, observed := XMem.read s.xmem a :: s.observed }) ∧
    (s.flags.busy = true → (s.hostOps = .xmemWrite a v :: rest ∨ s.hostOps = .xmemRead a :: rest) →
      step s = .fault .xmemRace)

/-- R240 and R38: hardware reset, in whatever state, leaves every register 0 but `RN = 194`, `STATUS = 0`, the
memories inside NCC without value, and XMEM as it was. -/
def Obligations.HardwareResetLeavesTheResetColumn : Prop :=
  ∀ (s : State) (rest : List HostOp), s.hostOps = .hwReset :: rest →
    ∃ t, step s = .next t ∧ t.cmd = 0#32 ∧ t.args = ⟨0#32, 0#32, 0#32, 0#32, 0#32, 0#32⟩ ∧
      t.res0 = 0#32 ∧ t.res1 = 0#32 ∧ statusWord t = 0#32 ∧
      t.tuning = ⟨0#32, 0#32, 0#32, 0#32, 0#32⟩ ∧ t.hsync = 0#32 ∧ t.vsync = 0#32 ∧
      t.outw = 0#32 ∧ t.outh = 0#32 ∧ t.outBase = 0#32 ∧ t.rn = 194#32 ∧ t.fieldDet = 0#1 ∧
      t.ccref = ⟨0#32, 0#32, 0#32, 0#32⟩ ∧ (∀ k, channelGet t.iir k = ⟨0#32, 0#32⟩) ∧
      (∀ k, channelGet t.eq k = ⟨0#32, 0#32, 0#32, 0#32, 0#32, ⟨0#32, 0#32, 0#32, 0#32⟩,
        ⟨0#32, 0#32, 0#32, 0#32⟩, 0#32, 0#32, 0#32⟩) ∧
      t.signal = none ∧ t.xmem = s.xmem ∧ t.hostOps = rest
end

