-- ==== Sys2Proof/Laws/Arith.lean ====
section
/-! SUPPORT. What the arithmetic operations of 00_scope.md R4 to R8 compute, on integers and counts. -/

namespace Sys2Proof.Machine

/-- The flooring shift is a floored quotient (R5). -/
theorem sar_toInt (a : Word) (k : Nat) : (sar a k).toInt = a.toInt / 2 ^ k := by
  simp [sar, BitVec.toInt_sshiftRight, Int.shiftRight_eq_div_pow]

/-- The truncating quotient (R6), but for the one quotient that does not fit. -/
theorem tdiv_toInt (a b : Word) (h : a.toInt ≠ -2147483648 ∨ b.toInt ≠ -1) :
    (tdiv a b).toInt = a.toInt.tdiv b.toInt := by
  unfold tdiv
  refine BitVec.toInt_sdiv_of_ne_or_ne a b ?_
  rcases h with h | h
  · exact .inl fun e => h (by rw [e]; decide)
  · exact .inr fun e => h (by rw [e]; decide)

/-- A division by 0 gives 0 (R6). -/
@[simp] theorem tdiv_zero (a : Word) : tdiv a 0#32 = 0#32 := by simp [tdiv]

/-- `pmod` is the Euclidean remainder (R7). -/
theorem pmod_toInt (a : Word) {m : Nat} (hm : 0 < m) : ((pmod a m : Nat) : Int) = a.toInt % m := by
  have := Int.emod_nonneg a.toInt (b := (m : Int)) (by omega)
  simp [pmod, this]

theorem pmod_lt (a : Word) {m : Nat} (hm : 0 < m) : pmod a m < m := by
  have h := pmod_toInt a hm
  have := Int.emod_lt_of_pos a.toInt (b := (m : Int)) (by omega)
  omega

theorem pmodWord_toNat (a : Word) {m : Nat} (hm : 0 < m) (h : m ≤ 2 ^ 32) : (pmodWord a m).toNat = pmod a m := by
  have := pmod_lt a hm
  simp only [pmodWord, BitVec.toNat_ofNat]
  exact Nat.mod_eq_of_lt (by omega)

/-- A reduced register value is in range. -/
theorem pmodWord_lt (a : Word) {m : Nat} (hm : 0 < m) (h : m ≤ 2 ^ 32) : (pmodWord a m).toNat < m :=
  pmodWord_toNat a hm h ▸ pmod_lt a hm

theorem ofCount_toNat {n : Nat} (h : n < 2 ^ 32) : (ofCount n).toNat = n := by
  simp only [ofCount, BitVec.toNat_ofNat]
  exact Nat.mod_eq_of_lt h

theorem ofCount_toInt {n : Nat} (h : n < 2 ^ 31) : (ofCount n).toInt = n := by
  rw [BitVec.toInt_eq_toNat_cond, ofCount_toNat (by omega)]
  split <;> omega

theorem countOf_ofCount {n : Nat} (h : n < 2 ^ 31) : countOf (ofCount n) = n := by
  simp [countOf, ofCount_toInt h]

/-- A 32-bit value as a loop count is its value, or 0 when that is negative. -/
theorem countOf_eq (w : Word) : (countOf w : Int) = max w.toInt 0 := by
  unfold countOf; omega

/-- `clamp` on integers (R8). -/
theorem clamp_toInt (v lo hi : Word) (h : lo.toInt ≤ hi.toInt) :
    (clamp v lo hi).toInt = max lo.toInt (min hi.toInt v.toInt) := by
  unfold clamp
  simp only [BitVec.slt_iff_toInt_lt]
  split_ifs <;> omega

/-- A sample is its signed value (20_memory.md R51). -/
theorem sext8_toInt (b : Sample) : (sext8 b).toInt = b.toInt := by
  rw [sext8, BitVec.toInt_signExtend, show min 32 8 = 8 from rfl]
  have := BitVec.toInt_lt (x := b)
  have := BitVec.le_toInt b
  exact Int.bmod_eq_of_le (by omega) (by omega)

/-- What a store keeps of a value that fits. -/
theorem low8_toInt {v : Word} (h : -128 ≤ v.toInt) (h' : v.toInt < 128) : (low8 v).toInt = v.toInt := by
  have e : (low8 v).toInt = v.toInt.bmod 256 := by
    rw [low8, BitVec.toInt_setWidth, BitVec.toInt_eq_toNat_bmod, Int.bmod_bmod_of_dvd (by decide)]
  rw [e]
  exact Int.bmod_eq_of_le (by omega) (by omega)

theorem sext8_bounds (b : Sample) : -128 ≤ (sext8 b).toInt ∧ (sext8 b).toInt < 128 := by
  rw [sext8_toInt]
  have := BitVec.toInt_lt (x := b)
  have := BitVec.le_toInt b
  omega

/-- A sum that fits is the sum of the values. -/
theorem add_toInt {a b : Word} (h : -2147483648 ≤ a.toInt + b.toInt) (h' : a.toInt + b.toInt < 2147483648) :
    (a + b).toInt = a.toInt + b.toInt := by
  rw [BitVec.toInt_add]; exact Int.bmod_eq_of_le (by omega) (by omega)

theorem sub_toInt {a b : Word} (h : -2147483648 ≤ a.toInt - b.toInt) (h' : a.toInt - b.toInt < 2147483648) :
    (a - b).toInt = a.toInt - b.toInt := by
  rw [BitVec.toInt_sub]; exact Int.bmod_eq_of_le (by omega) (by omega)

theorem mul_toInt {a b : Word} (h : -2147483648 ≤ a.toInt * b.toInt) (h' : a.toInt * b.toInt < 2147483648) :
    (a * b).toInt = a.toInt * b.toInt := by
  rw [BitVec.toInt_mul]; exact Int.bmod_eq_of_le (by omega) (by omega)

end Sys2Proof.Machine
end

