-- ==== Sys2Proof/Laws/State.lean ====
section
/-! SUPPORT. One lemma per field for each named update of the state, so that no proof unfolds a record
update. -/

namespace Sys2Proof.Machine

/-! ## raise -/

@[simp] theorem raise_cmd (f : StickyFlag) (s : State) : (raise f s).cmd = s.cmd := by cases f <;> rfl
@[simp] theorem raise_args (f : StickyFlag) (s : State) : (raise f s).args = s.args := by cases f <;> rfl
@[simp] theorem raise_res0 (f : StickyFlag) (s : State) : (raise f s).res0 = s.res0 := by cases f <;> rfl
@[simp] theorem raise_res1 (f : StickyFlag) (s : State) : (raise f s).res1 = s.res1 := by cases f <;> rfl
@[simp] theorem raise_tuning (f : StickyFlag) (s : State) : (raise f s).tuning = s.tuning := by cases f <;> rfl
@[simp] theorem raise_hsync (f : StickyFlag) (s : State) : (raise f s).hsync = s.hsync := by cases f <;> rfl
@[simp] theorem raise_vsync (f : StickyFlag) (s : State) : (raise f s).vsync = s.vsync := by cases f <;> rfl
@[simp] theorem raise_outw (f : StickyFlag) (s : State) : (raise f s).outw = s.outw := by cases f <;> rfl
@[simp] theorem raise_outh (f : StickyFlag) (s : State) : (raise f s).outh = s.outh := by cases f <;> rfl
@[simp] theorem raise_outBase (f : StickyFlag) (s : State) : (raise f s).outBase = s.outBase := by cases f <;> rfl
@[simp] theorem raise_rn (f : StickyFlag) (s : State) : (raise f s).rn = s.rn := by cases f <;> rfl
@[simp] theorem raise_fieldDet (f : StickyFlag) (s : State) : (raise f s).fieldDet = s.fieldDet := by cases f <;> rfl
@[simp] theorem raise_ccref (f : StickyFlag) (s : State) : (raise f s).ccref = s.ccref := by cases f <;> rfl
@[simp] theorem raise_iir (f : StickyFlag) (s : State) : (raise f s).iir = s.iir := by cases f <;> rfl
@[simp] theorem raise_eq (f : StickyFlag) (s : State) : (raise f s).eq = s.eq := by cases f <;> rfl
@[simp] theorem raise_signal (f : StickyFlag) (s : State) : (raise f s).signal = s.signal := by cases f <;> rfl
@[simp] theorem raise_xmem (f : StickyFlag) (s : State) : (raise f s).xmem = s.xmem := by cases f <;> rfl
@[simp] theorem raise_oobCount (f : StickyFlag) (s : State) : (raise f s).oobCount = s.oobCount := by cases f <;> rfl
@[simp] theorem raise_hostOps (f : StickyFlag) (s : State) : (raise f s).hostOps = s.hostOps := by cases f <;> rfl
@[simp] theorem raise_observed (f : StickyFlag) (s : State) : (raise f s).observed = s.observed := by cases f <;> rfl

/-! ## raiseIf -/

@[simp] theorem raiseIf_cmd (b : Bool) (f : StickyFlag) (s : State) : (raiseIf b f s).cmd = s.cmd := by cases b <;> cases f <;> rfl
@[simp] theorem raiseIf_args (b : Bool) (f : StickyFlag) (s : State) : (raiseIf b f s).args = s.args := by cases b <;> cases f <;> rfl
@[simp] theorem raiseIf_res0 (b : Bool) (f : StickyFlag) (s : State) : (raiseIf b f s).res0 = s.res0 := by cases b <;> cases f <;> rfl
@[simp] theorem raiseIf_res1 (b : Bool) (f : StickyFlag) (s : State) : (raiseIf b f s).res1 = s.res1 := by cases b <;> cases f <;> rfl
@[simp] theorem raiseIf_tuning (b : Bool) (f : StickyFlag) (s : State) : (raiseIf b f s).tuning = s.tuning := by cases b <;> cases f <;> rfl
@[simp] theorem raiseIf_hsync (b : Bool) (f : StickyFlag) (s : State) : (raiseIf b f s).hsync = s.hsync := by cases b <;> cases f <;> rfl
@[simp] theorem raiseIf_vsync (b : Bool) (f : StickyFlag) (s : State) : (raiseIf b f s).vsync = s.vsync := by cases b <;> cases f <;> rfl
@[simp] theorem raiseIf_outw (b : Bool) (f : StickyFlag) (s : State) : (raiseIf b f s).outw = s.outw := by cases b <;> cases f <;> rfl
@[simp] theorem raiseIf_outh (b : Bool) (f : StickyFlag) (s : State) : (raiseIf b f s).outh = s.outh := by cases b <;> cases f <;> rfl
@[simp] theorem raiseIf_outBase (b : Bool) (f : StickyFlag) (s : State) : (raiseIf b f s).outBase = s.outBase := by cases b <;> cases f <;> rfl
@[simp] theorem raiseIf_rn (b : Bool) (f : StickyFlag) (s : State) : (raiseIf b f s).rn = s.rn := by cases b <;> cases f <;> rfl
@[simp] theorem raiseIf_fieldDet (b : Bool) (f : StickyFlag) (s : State) : (raiseIf b f s).fieldDet = s.fieldDet := by cases b <;> cases f <;> rfl
@[simp] theorem raiseIf_ccref (b : Bool) (f : StickyFlag) (s : State) : (raiseIf b f s).ccref = s.ccref := by cases b <;> cases f <;> rfl
@[simp] theorem raiseIf_iir (b : Bool) (f : StickyFlag) (s : State) : (raiseIf b f s).iir = s.iir := by cases b <;> cases f <;> rfl
@[simp] theorem raiseIf_eq (b : Bool) (f : StickyFlag) (s : State) : (raiseIf b f s).eq = s.eq := by cases b <;> cases f <;> rfl
@[simp] theorem raiseIf_signal (b : Bool) (f : StickyFlag) (s : State) : (raiseIf b f s).signal = s.signal := by cases b <;> cases f <;> rfl
@[simp] theorem raiseIf_xmem (b : Bool) (f : StickyFlag) (s : State) : (raiseIf b f s).xmem = s.xmem := by cases b <;> cases f <;> rfl
@[simp] theorem raiseIf_oobCount (b : Bool) (f : StickyFlag) (s : State) : (raiseIf b f s).oobCount = s.oobCount := by cases b <;> cases f <;> rfl
@[simp] theorem raiseIf_hostOps (b : Bool) (f : StickyFlag) (s : State) : (raiseIf b f s).hostOps = s.hostOps := by cases b <;> cases f <;> rfl
@[simp] theorem raiseIf_observed (b : Bool) (f : StickyFlag) (s : State) : (raiseIf b f s).observed = s.observed := by cases b <;> cases f <;> rfl

@[simp] theorem raise_flags_divz (s : State) : (raise .divz s).flags = { s.flags with divz := true } := rfl
@[simp] theorem raise_flags_ill (s : State) : (raise .ill s).flags = { s.flags with errIll := true } := rfl
@[simp] theorem raise_flags_seq (s : State) : (raise .seq s).flags = { s.flags with errSeq := true } := rfl
@[simp] theorem raise_flags_arg (s : State) : (raise .arg s).flags = { s.flags with errArg := true } := rfl
@[simp] theorem raise_flags_busy (s : State) : (raise .busy s).flags = { s.flags with errBusy := true } := rfl

/-- A conditional report of a division by zero leaves every field but `STATUS.DIVZ`. -/
theorem raiseIf_divz (b : Bool) (s : State) :
    raiseIf b .divz s = { s with flags := { s.flags with divz := s.flags.divz || b } } := by
  cases b <;> cases s <;> simp [raiseIf, raise]

/-! ## setRaster -/

@[simp] theorem setRaster_cmd (s : State) : (setRaster s).cmd = s.cmd := rfl
@[simp] theorem setRaster_args (s : State) : (setRaster s).args = s.args := rfl
@[simp] theorem setRaster_res0 (s : State) : (setRaster s).res0 = s.res0 := rfl
@[simp] theorem setRaster_res1 (s : State) : (setRaster s).res1 = s.res1 := rfl
@[simp] theorem setRaster_flags (s : State) : (setRaster s).flags = s.flags := rfl
@[simp] theorem setRaster_tuning (s : State) : (setRaster s).tuning = s.tuning := rfl
@[simp] theorem setRaster_hsync (s : State) : (setRaster s).hsync = s.hsync := rfl
@[simp] theorem setRaster_vsync (s : State) : (setRaster s).vsync = s.vsync := rfl
@[simp] theorem setRaster_outw (s : State) : (setRaster s).outw = s.args.a0 := rfl
@[simp] theorem setRaster_outh (s : State) : (setRaster s).outh = s.args.a1 := rfl
@[simp] theorem setRaster_outBase (s : State) : (setRaster s).outBase = s.args.a2 := rfl
@[simp] theorem setRaster_rn (s : State) : (setRaster s).rn = s.rn := rfl
@[simp] theorem setRaster_fieldDet (s : State) : (setRaster s).fieldDet = s.fieldDet := rfl
@[simp] theorem setRaster_ccref (s : State) : (setRaster s).ccref = s.ccref := rfl
@[simp] theorem setRaster_iir (s : State) : (setRaster s).iir = s.iir := rfl
@[simp] theorem setRaster_eq (s : State) : (setRaster s).eq = s.eq := rfl
@[simp] theorem setRaster_signal (s : State) : (setRaster s).signal = s.signal := rfl
@[simp] theorem setRaster_xmem (s : State) : (setRaster s).xmem = s.xmem := rfl
@[simp] theorem setRaster_oobCount (s : State) : (setRaster s).oobCount = s.oobCount := rfl
@[simp] theorem setRaster_hostOps (s : State) : (setRaster s).hostOps = s.hostOps := rfl
@[simp] theorem setRaster_observed (s : State) : (setRaster s).observed = s.observed := rfl

/-! ## resetTuningAndSync -/

@[simp] theorem resetTuningAndSync_cmd (s : State) : (resetTuningAndSync s).cmd = s.cmd := rfl
@[simp] theorem resetTuningAndSync_args (s : State) : (resetTuningAndSync s).args = s.args := rfl
@[simp] theorem resetTuningAndSync_res0 (s : State) : (resetTuningAndSync s).res0 = s.res0 := rfl
@[simp] theorem resetTuningAndSync_res1 (s : State) : (resetTuningAndSync s).res1 = s.res1 := rfl
@[simp] theorem resetTuningAndSync_flags (s : State) : (resetTuningAndSync s).flags = s.flags := rfl
@[simp] theorem resetTuningAndSync_tuning (s : State) : (resetTuningAndSync s).tuning = defaultTuning := rfl
@[simp] theorem resetTuningAndSync_hsync (s : State) : (resetTuningAndSync s).hsync = 0#32 := rfl
@[simp] theorem resetTuningAndSync_vsync (s : State) : (resetTuningAndSync s).vsync = 0#32 := rfl
@[simp] theorem resetTuningAndSync_outw (s : State) : (resetTuningAndSync s).outw = s.outw := rfl
@[simp] theorem resetTuningAndSync_outh (s : State) : (resetTuningAndSync s).outh = s.outh := rfl
@[simp] theorem resetTuningAndSync_outBase (s : State) : (resetTuningAndSync s).outBase = s.outBase := rfl
@[simp] theorem resetTuningAndSync_rn (s : State) : (resetTuningAndSync s).rn = s.rn := rfl
@[simp] theorem resetTuningAndSync_fieldDet (s : State) : (resetTuningAndSync s).fieldDet = s.fieldDet := rfl
@[simp] theorem resetTuningAndSync_ccref (s : State) : (resetTuningAndSync s).ccref = s.ccref := rfl
@[simp] theorem resetTuningAndSync_iir (s : State) : (resetTuningAndSync s).iir = s.iir := rfl
@[simp] theorem resetTuningAndSync_eq (s : State) : (resetTuningAndSync s).eq = s.eq := rfl
@[simp] theorem resetTuningAndSync_signal (s : State) : (resetTuningAndSync s).signal = s.signal := rfl
@[simp] theorem resetTuningAndSync_xmem (s : State) : (resetTuningAndSync s).xmem = s.xmem := rfl
@[simp] theorem resetTuningAndSync_oobCount (s : State) : (resetTuningAndSync s).oobCount = s.oobCount := rfl
@[simp] theorem resetTuningAndSync_hostOps (s : State) : (resetTuningAndSync s).hostOps = s.hostOps := rfl
@[simp] theorem resetTuningAndSync_observed (s : State) : (resetTuningAndSync s).observed = s.observed := rfl

/-! ## initialise -/

@[simp] theorem initialise_cmd (c : Cfg) (s : State) : (initialise c s).cmd = s.cmd := rfl
@[simp] theorem initialise_args (c : Cfg) (s : State) : (initialise c s).args = s.args := rfl
@[simp] theorem initialise_res0 (c : Cfg) (s : State) : (initialise c s).res0 = s.res0 := rfl
@[simp] theorem initialise_res1 (c : Cfg) (s : State) : (initialise c s).res1 = s.res1 := rfl
@[simp] theorem initialise_flags (c : Cfg) (s : State) : (initialise c s).flags = s.flags := rfl
@[simp] theorem initialise_tuning (c : Cfg) (s : State) : (initialise c s).tuning = defaultTuning := rfl
@[simp] theorem initialise_hsync (c : Cfg) (s : State) : (initialise c s).hsync = 0#32 := rfl
@[simp] theorem initialise_vsync (c : Cfg) (s : State) : (initialise c s).vsync = 0#32 := rfl
@[simp] theorem initialise_outw (c : Cfg) (s : State) : (initialise c s).outw = s.args.a0 := rfl
@[simp] theorem initialise_outh (c : Cfg) (s : State) : (initialise c s).outh = s.args.a1 := rfl
@[simp] theorem initialise_outBase (c : Cfg) (s : State) : (initialise c s).outBase = s.args.a2 := rfl
@[simp] theorem initialise_rn (c : Cfg) (s : State) : (initialise c s).rn = rnInit := rfl
@[simp] theorem initialise_fieldDet (c : Cfg) (s : State) : (initialise c s).fieldDet = 0#1 := rfl
@[simp] theorem initialise_ccref (c : Cfg) (s : State) : (initialise c s).ccref = zeroQuad := rfl
@[simp] theorem initialise_iir (c : Cfg) (s : State) : (initialise c s).iir = builtIirs c := rfl
@[simp] theorem initialise_eq (c : Cfg) (s : State) : (initialise c s).eq = builtEqs c := rfl
@[simp] theorem initialise_signal (c : Cfg) (s : State) : (initialise c s).signal = some zeroBuffers := rfl
@[simp] theorem initialise_xmem (c : Cfg) (s : State) : (initialise c s).xmem = s.xmem := rfl
@[simp] theorem initialise_oobCount (c : Cfg) (s : State) : (initialise c s).oobCount = s.oobCount := rfl
@[simp] theorem initialise_hostOps (c : Cfg) (s : State) : (initialise c s).hostOps = s.hostOps := rfl
@[simp] theorem initialise_observed (c : Cfg) (s : State) : (initialise c s).observed = s.observed := rfl

/-! ## observe -/

@[simp] theorem observe_cmd (v : Word) (s : State) : (observe v s).cmd = s.cmd := rfl
@[simp] theorem observe_args (v : Word) (s : State) : (observe v s).args = s.args := rfl
@[simp] theorem observe_res0 (v : Word) (s : State) : (observe v s).res0 = s.res0 := rfl
@[simp] theorem observe_res1 (v : Word) (s : State) : (observe v s).res1 = s.res1 := rfl
@[simp] theorem observe_flags (v : Word) (s : State) : (observe v s).flags = s.flags := rfl
@[simp] theorem observe_tuning (v : Word) (s : State) : (observe v s).tuning = s.tuning := rfl
@[simp] theorem observe_hsync (v : Word) (s : State) : (observe v s).hsync = s.hsync := rfl
@[simp] theorem observe_vsync (v : Word) (s : State) : (observe v s).vsync = s.vsync := rfl
@[simp] theorem observe_outw (v : Word) (s : State) : (observe v s).outw = s.outw := rfl
@[simp] theorem observe_outh (v : Word) (s : State) : (observe v s).outh = s.outh := rfl
@[simp] theorem observe_outBase (v : Word) (s : State) : (observe v s).outBase = s.outBase := rfl
@[simp] theorem observe_rn (v : Word) (s : State) : (observe v s).rn = s.rn := rfl
@[simp] theorem observe_fieldDet (v : Word) (s : State) : (observe v s).fieldDet = s.fieldDet := rfl
@[simp] theorem observe_ccref (v : Word) (s : State) : (observe v s).ccref = s.ccref := rfl
@[simp] theorem observe_iir (v : Word) (s : State) : (observe v s).iir = s.iir := rfl
@[simp] theorem observe_eq (v : Word) (s : State) : (observe v s).eq = s.eq := rfl
@[simp] theorem observe_signal (v : Word) (s : State) : (observe v s).signal = s.signal := rfl
@[simp] theorem observe_xmem (v : Word) (s : State) : (observe v s).xmem = s.xmem := rfl
@[simp] theorem observe_oobCount (v : Word) (s : State) : (observe v s).oobCount = s.oobCount := rfl
@[simp] theorem observe_hostOps (v : Word) (s : State) : (observe v s).hostOps = s.hostOps := rfl
@[simp] theorem observe_observed (v : Word) (s : State) : (observe v s).observed = v :: s.observed := rfl

/-! ## hardwareReset -/

@[simp] theorem hardwareReset_cmd (s : State) : (hardwareReset s).cmd = State.reset.cmd := rfl
@[simp] theorem hardwareReset_args (s : State) : (hardwareReset s).args = State.reset.args := rfl
@[simp] theorem hardwareReset_res0 (s : State) : (hardwareReset s).res0 = State.reset.res0 := rfl
@[simp] theorem hardwareReset_res1 (s : State) : (hardwareReset s).res1 = State.reset.res1 := rfl
@[simp] theorem hardwareReset_flags (s : State) : (hardwareReset s).flags = State.reset.flags := rfl
@[simp] theorem hardwareReset_tuning (s : State) : (hardwareReset s).tuning = State.reset.tuning := rfl
@[simp] theorem hardwareReset_hsync (s : State) : (hardwareReset s).hsync = State.reset.hsync := rfl
@[simp] theorem hardwareReset_vsync (s : State) : (hardwareReset s).vsync = State.reset.vsync := rfl
@[simp] theorem hardwareReset_outw (s : State) : (hardwareReset s).outw = State.reset.outw := rfl
@[simp] theorem hardwareReset_outh (s : State) : (hardwareReset s).outh = State.reset.outh := rfl
@[simp] theorem hardwareReset_outBase (s : State) : (hardwareReset s).outBase = State.reset.outBase := rfl
@[simp] theorem hardwareReset_rn (s : State) : (hardwareReset s).rn = State.reset.rn := rfl
@[simp] theorem hardwareReset_fieldDet (s : State) : (hardwareReset s).fieldDet = State.reset.fieldDet := rfl
@[simp] theorem hardwareReset_ccref (s : State) : (hardwareReset s).ccref = State.reset.ccref := rfl
@[simp] theorem hardwareReset_iir (s : State) : (hardwareReset s).iir = State.reset.iir := rfl
@[simp] theorem hardwareReset_eq (s : State) : (hardwareReset s).eq = State.reset.eq := rfl
@[simp] theorem hardwareReset_signal (s : State) : (hardwareReset s).signal = State.reset.signal := rfl
@[simp] theorem hardwareReset_xmem (s : State) : (hardwareReset s).xmem = s.xmem := rfl
@[simp] theorem hardwareReset_oobCount (s : State) : (hardwareReset s).oobCount = s.oobCount := rfl
@[simp] theorem hardwareReset_hostOps (s : State) : (hardwareReset s).hostOps = s.hostOps := rfl
@[simp] theorem hardwareReset_observed (s : State) : (hardwareReset s).observed = s.observed := rfl

/-! ## placeCommand -/

@[simp] theorem placeCommand_cmd (s : State) (w : Word) : (placeCommand s w).cmd = s.cmd := rfl
@[simp] theorem placeCommand_args (s : State) (w : Word) : (placeCommand s w).args = s.args := rfl
@[simp] theorem placeCommand_res0 (s : State) (w : Word) : (placeCommand s w).res0 = s.res0 := rfl
@[simp] theorem placeCommand_res1 (s : State) (w : Word) : (placeCommand s w).res1 = s.res1 := rfl
@[simp] theorem placeCommand_flags (s : State) (w : Word) : (placeCommand s w).flags = { s.flags with busy := false } := rfl
@[simp] theorem placeCommand_tuning (s : State) (w : Word) : (placeCommand s w).tuning = s.tuning := rfl
@[simp] theorem placeCommand_hsync (s : State) (w : Word) : (placeCommand s w).hsync = s.hsync := rfl
@[simp] theorem placeCommand_vsync (s : State) (w : Word) : (placeCommand s w).vsync = s.vsync := rfl
@[simp] theorem placeCommand_outw (s : State) (w : Word) : (placeCommand s w).outw = s.outw := rfl
@[simp] theorem placeCommand_outh (s : State) (w : Word) : (placeCommand s w).outh = s.outh := rfl
@[simp] theorem placeCommand_outBase (s : State) (w : Word) : (placeCommand s w).outBase = s.outBase := rfl
@[simp] theorem placeCommand_rn (s : State) (w : Word) : (placeCommand s w).rn = s.rn := rfl
@[simp] theorem placeCommand_fieldDet (s : State) (w : Word) : (placeCommand s w).fieldDet = s.fieldDet := rfl
@[simp] theorem placeCommand_ccref (s : State) (w : Word) : (placeCommand s w).ccref = s.ccref := rfl
@[simp] theorem placeCommand_iir (s : State) (w : Word) : (placeCommand s w).iir = s.iir := rfl
@[simp] theorem placeCommand_eq (s : State) (w : Word) : (placeCommand s w).eq = s.eq := rfl
@[simp] theorem placeCommand_signal (s : State) (w : Word) : (placeCommand s w).signal = s.signal := rfl
@[simp] theorem placeCommand_xmem (s : State) (w : Word) : (placeCommand s w).xmem = s.xmem := rfl
@[simp] theorem placeCommand_oobCount (s : State) (w : Word) : (placeCommand s w).oobCount = s.oobCount := rfl
@[simp] theorem placeCommand_hostOps (s : State) (w : Word) : (placeCommand s w).hostOps = .busWrite 0#32 4 w :: s.hostOps := rfl
@[simp] theorem placeCommand_observed (s : State) (w : Word) : (placeCommand s w).observed = s.observed := rfl

/-! ## decodeField: the fields DECODE leaves alone -/

@[simp] theorem decodeField_cmd (c : Cfg) (s : State) (b : SignalBuffers) : (decodeField c s b).cmd = s.cmd := rfl
@[simp] theorem decodeField_args (c : Cfg) (s : State) (b : SignalBuffers) : (decodeField c s b).args = s.args := rfl
@[simp] theorem decodeField_res0 (c : Cfg) (s : State) (b : SignalBuffers) : (decodeField c s b).res0 = s.res0 := rfl
@[simp] theorem decodeField_res1 (c : Cfg) (s : State) (b : SignalBuffers) : (decodeField c s b).res1 = s.res1 := rfl
@[simp] theorem decodeField_flags (c : Cfg) (s : State) (b : SignalBuffers) : (decodeField c s b).flags = s.flags := rfl
@[simp] theorem decodeField_tuning (c : Cfg) (s : State) (b : SignalBuffers) : (decodeField c s b).tuning = s.tuning := rfl
@[simp] theorem decodeField_outw (c : Cfg) (s : State) (b : SignalBuffers) : (decodeField c s b).outw = s.outw := rfl
@[simp] theorem decodeField_outh (c : Cfg) (s : State) (b : SignalBuffers) : (decodeField c s b).outh = s.outh := rfl
@[simp] theorem decodeField_outBase (c : Cfg) (s : State) (b : SignalBuffers) : (decodeField c s b).outBase = s.outBase := rfl
@[simp] theorem decodeField_iir (c : Cfg) (s : State) (b : SignalBuffers) : (decodeField c s b).iir = s.iir := rfl
@[simp] theorem decodeField_oobCount (c : Cfg) (s : State) (b : SignalBuffers) : (decodeField c s b).oobCount = s.oobCount := rfl
@[simp] theorem decodeField_hostOps (c : Cfg) (s : State) (b : SignalBuffers) : (decodeField c s b).hostOps = s.hostOps := rfl
@[simp] theorem decodeField_observed (c : Cfg) (s : State) (b : SignalBuffers) : (decodeField c s b).observed = s.observed := rfl

/-! ## Units and files -/

@[simp] theorem iirReset_c (u : IirUnit) : (iirReset u).c = u.c := rfl
@[simp] theorem iirReset_h (u : IirUnit) : (iirReset u).h = 0#32 := rfl
@[simp] theorem iirStep_c (u : IirUnit) (x : Word) : (iirStep u x).c = u.c := rfl
@[simp] theorem iirStep_h (u : IirUnit) (x : Word) :
    (iirStep u x).h = u.h + ((x - u.h) * u.c).sshiftRight 11 := rfl
@[simp] theorem eqReset_lf (u : EqUnit) : (eqReset u).lf = u.lf := rfl
@[simp] theorem eqReset_hf (u : EqUnit) : (eqReset u).hf = u.hf := rfl
@[simp] theorem eqReset_g0 (u : EqUnit) : (eqReset u).g0 = u.g0 := rfl
@[simp] theorem eqReset_g1 (u : EqUnit) : (eqReset u).g1 = u.g1 := rfl
@[simp] theorem eqReset_g2 (u : EqUnit) : (eqReset u).g2 = u.g2 := rfl
@[simp] theorem eqStep_unit_lf (u : EqUnit) (x : Word) : (eqStep u x).unit.lf = u.lf := by simp only [eqStep]
@[simp] theorem eqStep_unit_hf (u : EqUnit) (x : Word) : (eqStep u x).unit.hf = u.hf := by simp only [eqStep]
@[simp] theorem eqStep_unit_g0 (u : EqUnit) (x : Word) : (eqStep u x).unit.g0 = u.g0 := by simp only [eqStep]
@[simp] theorem eqStep_unit_g1 (u : EqUnit) (x : Word) : (eqStep u x).unit.g1 = u.g1 := by simp only [eqStep]
@[simp] theorem eqStep_unit_g2 (u : EqUnit) (x : Word) : (eqStep u x).unit.g2 = u.g2 := by simp only [eqStep]

@[simp] theorem channelGet_channelSet_self (f : PerChannel α) (k : Channel) (v : α) :
    channelGet (channelSet f k v) k = v := by cases k <;> rfl

theorem channelGet_channelSet_of_ne (f : PerChannel α) {j k : Channel} (v : α) (h : j ≠ k) :
    channelGet (channelSet f k v) j = channelGet f j := by
  cases j <;> cases k <;> first | rfl | exact absurd rfl h

theorem quadAt_quadPut_self (q : Quad α) (n : Nat) (v : α) : quadAt (quadPut q n v) n = v := by
  have : n % 4 < 4 := Nat.mod_lt _ (by decide)
  unfold quadAt quadPut
  rcases h : n % 4 with _ | _ | _ | _ | k <;> rfl

end Sys2Proof.Machine
end

