-- ==== Sys2Proof/Laws/Bus.lean ====
section
/-! SUPPORT. All that one host operation can do, case by case: the lemmas a proof about `step` cites instead
of unfolding the register bus. -/

namespace Sys2Proof.Machine

/-- A step takes the host's first operation. -/
theorem step_of_op {s : State} {op : HostOp} {rest : List HostOp} (h : s.hostOps = op :: rest) :
    step s = hostStep op { s with hostOps := rest } := by
  simp only [step, nextStep, h]

theorem wholeWord_iff (offset : Word) (bytes : Nat) :
    wholeWord offset bytes = true ↔ bytes = 4 ∧ offset.toNat % 4 = 0 := by
  simp [wholeWord]

theorem wholeWord_false_iff (offset : Word) (bytes : Nat) :
    wholeWord offset bytes = false ↔ bytes ≠ 4 ∨ offset.toNat % 4 ≠ 0 := by
  rw [← Bool.not_eq_true, wholeWord_iff]
  omega

/-! ## Writes -/

theorem busWrite_narrow {offset : Word} {bytes : Nat} (hw : wholeWord offset bytes = false) (v : Word) (s : State) :
    busWrite offset bytes v s = .refused .narrowHostAccess := by
  simp [busWrite, hw]

/-- A word written to an idle `CMD` issues. -/
theorem busWrite_cmd {s : State} (hb : s.flags.busy = false) (w : Word) : busWrite 0#32 4 w s = issue w s := by
  have hr : regAt 0#32 = some .cmd := by decide
  have hw : wholeWord 0#32 4 = true := by decide
  simp [busWrite, hw, hb, hr]

/-- A word written to another register of an idle machine goes to the register. -/
theorem busWrite_reg {s : State} (hb : s.flags.busy = false) {offset : Word} {bytes : Nat}
    (hw : wholeWord offset bytes = true) {r : Reg} (hr : regAt offset = some r) (hc : r ≠ .cmd) (v : Word) :
    busWrite offset bytes v s = .next (writeReg cfg s r v) := by
  cases r <;> simp_all [busWrite]

/-- A word written to a reserved offset of an idle machine is ignored. -/
theorem busWrite_reserved {s : State} (hb : s.flags.busy = false) {offset : Word} {bytes : Nat}
    (hw : wholeWord offset bytes = true) (hr : regAt offset = none) (v : Word) :
    busWrite offset bytes v s = .next s := by
  simp [busWrite, hw, hb, hr]

/-- STATUS takes a write, busy or not. -/
theorem busWrite_status (v : Word) (s : State) :
    busWrite 4#32 4 v s = .next { s with flags := clearFlags v s.flags } := by
  have hr : regAt 4#32 = some .status := by decide
  have hw : wholeWord 4#32 4 = true := by decide
  rcases hb : s.flags.busy <;> simp [busWrite, hw, hb, hr, writeReg]

/-- While busy a word written anywhere but to STATUS is dropped with `ERR_BUSY`. -/
theorem busWrite_busy {s : State} (hb : s.flags.busy = true) {offset : Word} {bytes : Nat}
    (hw : wholeWord offset bytes = true) (hr : regAt offset ≠ some .status) (v : Word) :
    busWrite offset bytes v s = .next (raise .busy s) := by
  rcases h : regAt offset with _ | r
  · simp [busWrite, hw, hb, h]
  · cases r <;> simp_all [busWrite]

/-! ## Reads -/

theorem busRead_narrow {offset : Word} {bytes : Nat} (hw : wholeWord offset bytes = false) (s : State) :
    busRead offset bytes s = .refused .narrowHostAccess := by
  simp [busRead, hw]

theorem busRead_reg {s : State} (hb : s.flags.busy = false) {offset : Word} {bytes : Nat}
    (hw : wholeWord offset bytes = true) {r : Reg} (hr : regAt offset = some r) :
    busRead offset bytes s = .next (observe (readReg s r) s) := by
  simp [busRead, hw, hb, hr]

theorem busRead_reserved {s : State} (hb : s.flags.busy = false) {offset : Word} {bytes : Nat}
    (hw : wholeWord offset bytes = true) (hr : regAt offset = none) :
    busRead offset bytes s = .next (observe 0#32 s) := by
  simp [busRead, hw, hb, hr]

/-- STATUS answers a read, busy or not. -/
theorem busRead_status (s : State) : busRead 4#32 4 s = .next (observe (statusWord s) s) := by
  have hr : regAt 4#32 = some .status := by decide
  have hw : wholeWord 4#32 4 = true := by decide
  rcases hb : s.flags.busy <;> simp [busRead, hw, hb, hr, readReg]

/-- While busy a read anywhere but of STATUS gives 0 and sets `ERR_BUSY`. -/
theorem busRead_busy {s : State} (hb : s.flags.busy = true) {offset : Word} {bytes : Nat}
    (hw : wholeWord offset bytes = true) (hr : regAt offset ≠ some .status) :
    busRead offset bytes s = .next (observe 0#32 (raise .busy s)) := by
  rcases h : regAt offset with _ | r
  · simp [busRead, hw, hb, h]
  · cases r <;> simp_all [busRead]

/-! ## The register map -/

/-- An offset is the word of its number. -/
theorem offset_eq {offset : Word} {n : Nat} (h : offset.toNat = n) : offset = BitVec.ofNat 32 n := by
  subst h; simp

theorem mem_regMap {offset : Word} {r : Reg} (h : regAt offset = some r) : (offset.toNat, r) ∈ regMap := by
  unfold regAt at h
  rcases hf : regMap.find? (fun p => p.1 == offset.toNat) with _ | p
  · simp [hf] at h
  · have he : p.1 = offset.toNat := by simpa using List.find?_some hf
    rw [hf, Option.map_some, Option.some.injEq] at h
    rw [← he, ← h]
    exact List.mem_of_find?_eq_some hf

theorem regAt_cmd {offset : Word} (h : regAt offset = some .cmd) : offset = 0#32 :=
  offset_eq ((by decide +kernel : ∀ p ∈ regMap, p.2 = .cmd → p.1 = 0) _ (mem_regMap h) rfl)

theorem regAt_status {offset : Word} (h : regAt offset = some .status) : offset = 4#32 :=
  offset_eq ((by decide +kernel : ∀ p ∈ regMap, p.2 = .status → p.1 = 4) _ (mem_regMap h) rfl)

/-- The words of 10_state.md R36 that name no register. -/
theorem regAt_reserved {offset : Word}
    (h : offset.toNat ∈ [0x028, 0x02C] ∨ (0x070 ≤ offset.toNat ∧ offset.toNat < 0x080) ∨
      (0x098 ≤ offset.toNat ∧ offset.toNat < 0x100) ∨ 0x1C0 ≤ offset.toNat) : regAt offset = none := by
  have key : ∀ p ∈ regMap, ¬ (p.1 ∈ [0x028, 0x02C] ∨ (0x070 ≤ p.1 ∧ p.1 < 0x080) ∨
      (0x098 ≤ p.1 ∧ p.1 < 0x100) ∨ 0x1C0 ≤ p.1) := by decide +kernel
  rcases hr : regAt offset with _ | r
  · rfl
  · exact absurd h (key _ (mem_regMap hr))

/-- The read-only registers: a write to one changes nothing. -/
theorem writeReg_readOnly {r : Reg} (h : r ≠ .cmd ∧ r ≠ .status ∧ r ≠ .saturation ∧ r ≠ .brightness ∧
    r ≠ .contrast ∧ r ≠ .blackPoint ∧ r ≠ .whitePoint ∧ r ≠ .hsync ∧ r ≠ .vsync ∧ r ≠ .rn ∧
    (∀ k, r ≠ .arg k) ∧ ∀ k, r ≠ .ccref k) (c : Cfg) (s : State) (v : Word) : writeReg c s r v = s := by
  cases r <;> simp_all [writeReg]

/-- What Safety.lean lists for a read-only offset is what the register there reads as. -/
theorem readOnlyShown_reg {s : State} {offset v : Word} (h : (offset.toNat, v) ∈ readOnlyShown s) :
    ∃ r, regAt offset = some r ∧ readReg s r = v := by
  simp only [readOnlyShown, eqShown, List.mem_append, List.mem_cons, Prod.mk.injEq, List.not_mem_nil, or_false] at h
  rcases h with (((_|_|_|_|_|_|_|_|_|_|_|_) | (_|_|_|_|_|_|_|_|_|_|_|_|_|_|_|_)) |
    (_|_|_|_|_|_|_|_|_|_|_|_|_|_|_|_)) | (_|_|_|_|_|_|_|_|_|_|_|_|_|_|_|_)
  all_goals
    rename_i h
    obtain ⟨ho, rfl⟩ := h
    obtain rfl := offset_eq ho
    exact ⟨_, rfl, rfl⟩

/-- What Safety.lean lists for a read-write offset is what the register there reads as. -/
theorem readWriteShown_reg {s : State} {offset v : Word} (h : (offset.toNat, v) ∈ readWriteShown s) :
    wholeWord offset 4 = true ∧ ∃ r, regAt offset = some r ∧ readReg s r = v := by
  simp only [readWriteShown, List.mem_cons, Prod.mk.injEq, List.not_mem_nil, or_false] at h
  rcases h with (_|_|_|_|_|_|_|_|_|_|_|_|_|_|_|_|_|_|_)
  all_goals
    rename_i h
    obtain ⟨ho, rfl⟩ := h
    obtain rfl := offset_eq ho
    exact ⟨by decide +kernel, _, rfl, rfl⟩

/-- What Safety.lean lists for a plain store is the register write, whatever the host does next. -/
theorem storedBy_reg {s t : State} {offset v : Word} (h : (offset.toNat, t) ∈ storedBy s v) :
    wholeWord offset 4 = true ∧ (t.flags = s.flags ∧ t.observed = s.observed) ∧
    (offset.toNat, v) ∈ readWriteShown t ∧
    ∃ r, r ≠ .cmd ∧ regAt offset = some r ∧
      ∀ ops, writeReg cfg { s with hostOps := ops } r v = { t with hostOps := ops } := by
  simp only [storedBy, List.mem_cons, Prod.mk.injEq, List.not_mem_nil, or_false] at h
  rcases h with (_|_|_|_|_|_|_|_|_|_|_|_|_|_|_|_)
  all_goals
    rename_i h
    obtain ⟨ho, rfl⟩ := h
    refine ⟨by rw [offset_eq ho]; decide +kernel, ⟨rfl, rfl⟩, by rw [ho]; simp [readWriteShown], ?_⟩
    obtain rfl := offset_eq ho
    refine ⟨_, ?_, rfl, fun _ => rfl⟩
    simp

end Sys2Proof.Machine
end

