-- ==== Sys2Proof/Laws/Config.lean ====
section
/-! SUPPORT. The numbers of the default configuration, as 00_scope.md R2 and R3 print them. -/

namespace Sys2Proof.Machine

@[simp] theorem cfg_crtHres : cfg.crtHres = 910 := rfl
@[simp] theorem cfg_crtVres : cfg.crtVres = 262 := rfl
@[simp] theorem cfg_crtTop : cfg.crtTop = 21 := rfl
@[simp] theorem cfg_crtBot : cfg.crtBot = 261 := rfl
@[simp] theorem cfg_crtLines : cfg.crtLines = 240 := rfl
@[simp] theorem cfg_hsyncWindow : cfg.hsyncWindow = 8 := rfl
@[simp] theorem cfg_vsyncWindow : cfg.vsyncWindow = 8 := rfl
@[simp] theorem cfg_prevEInit : cfg.prevEInit = 2048#32 := rfl
@[simp] theorem cfg_expPi : cfg.expPi = 6434#32 := rfl
@[simp] theorem syncBeg_cfg : syncBeg cfg = 21 := rfl
@[simp] theorem bwBeg_cfg : bwBeg cfg = 88 := rfl
@[simp] theorem cbBeg_cfg : cbBeg cfg = 97 := rfl
@[simp] theorem cbEnd_cfg : cbEnd cfg = 137 := rfl
@[simp] theorem avBeg_cfg : avBeg cfg = 156 := rfl
@[simp] theorem avLen_cfg : avLen cfg = 753 := rfl
@[simp] theorem inputSize_cfg : inputSize cfg = 238420 := rfl
@[simp] theorem destw_cfg : destw cfg = 637 := rfl
@[simp] theorem desth_cfg : desth cfg = 232 := rfl
@[simp] theorem xo_cfg : xo cfg = 216 := rfl
@[simp] theorem yo_cfg : yo cfg = 29 := rfl
@[simp] theorem sampleIndex_cfg (line column : Nat) : sampleIndex cfg line column = line * 910 + column := rfl

end Sys2Proof.Machine
end

