-- ==== Sys2Proof/Laws/Encoder.lean ====
section
/-! SUPPORT. All that the shared operations of ENCODE can do to the sample array: which samples sync
patterning and active video write, and with what. -/

namespace Sys2Proof.Machine

variable {α : Type}

/-! ## Painting a run of samples -/

theorem set_getD_ne (a : Array α) {j i : Nat} (v d : α) (h : j ≠ i) :
    (a.setIfInBounds j v).getD i d = a.getD i d := by
  simp [Array.getD_eq_getD_getElem?, h]

theorem set_getD_self (a : Array α) {i : Nat} (v d : α) (h : i < a.size) :
    (a.setIfInBounds i v).getD i d = v := by
  simp [Array.getD_eq_getD_getElem?, h]

theorem paint_size (f : Nat → α) (base : Nat) (l : List Nat) (a : Array α) :
    (l.foldl (fun a t => a.setIfInBounds (base + t) (f t)) a).size = a.size := by
  induction l generalizing a with
  | nil => rfl
  | cons t l ih => simp [ih]

/-- A run of stores holds its values on the run, and the array elsewhere. -/
theorem paint_getD (f : Nat → α) (base lo len : Nat) (a : Array α) (i : Nat) (d : α) (hi : i < a.size) :
    ((List.range' lo len).foldl (fun a t => a.setIfInBounds (base + t) (f t)) a).getD i d =
      if base + lo ≤ i ∧ i < base + lo + len then f (i - base) else a.getD i d := by
  induction len generalizing lo a with
  | zero => simp
  | succ len ih =>
    rw [List.range'_succ, List.foldl_cons, ih _ _ (by simpa using hi)]
    by_cases h1 : i = base + lo
    · subst h1
      have h2 : ¬ (base + (lo + 1) ≤ base + lo) := by omega
      simp [h2, Array.getD_eq_getD_getElem?, hi]
    · have h3 : ¬ base + lo = i := fun e => h1 e.symm
      have h4 : (a.setIfInBounds (base + lo) (f lo)).getD i d = a.getD i d := by
        simp [Array.getD_eq_getD_getElem?, h3]
      rw [h4]
      by_cases h5 : base + (lo + 1) ≤ i ∧ i < base + (lo + 1) + len
      · rw [if_pos h5, if_pos (by omega)]
      · rw [if_neg h5, if_neg (by omega)]

@[simp] theorem fill_size (c : Cfg) (n lo hi : Nat) (v : Word) (a : Array Sample) :
    (fill c n lo hi v a).size = a.size := paint_size (fun _ => low8 v) (n * c.crtHres) _ a

/-- `fill` writes its columns of its line, and nothing else (43_encoder.md R131). -/
theorem fill_getD (c : Cfg) (n lo hi : Nat) (v : Word) (a : Array Sample) (i : Nat) (hi' : i < a.size) :
    (fill c n lo hi v a).getD i 0#8 =
      if n * c.crtHres + lo ≤ i ∧ i < n * c.crtHres + hi then low8 v else a.getD i 0#8 := by
  have h := paint_getD (fun _ => low8 v) (n * c.crtHres) lo (hi - lo) a i 0#8 hi'
  refine h.trans ?_
  by_cases hc : n * c.crtHres + lo ≤ i ∧ i < n * c.crtHres + hi
  · rw [if_pos hc, if_pos (by omega)]
  · rw [if_neg hc, if_neg (by omega)]

@[simp] theorem burst_size (c : Cfg) (n : Nat) (a : Array Sample) : (burst c n a).size = a.size :=
  paint_size (fun t => low8 (burstLevelAt t)) (n * c.crtHres) _ a

/-- The burst writes its columns of its line, each by its column number (43_encoder.md R135). -/
theorem burst_getD (n : Nat) (a : Array Sample) (i : Nat) (hi : i < a.size) :
    (burst cfg n a).getD i 0#8 =
      if n * 910 + 97 ≤ i ∧ i < n * 910 + 137 then low8 (burstLevelAt (i - n * 910)) else a.getD i 0#8 :=
  paint_getD (fun t => low8 (burstLevelAt t)) (n * 910) 97 40 a i 0#8 hi

/-- The burst's levels (43_encoder.md R135). -/
theorem burstLevelAt_toInt (t : Nat) :
    (low8 (burstLevelAt t)).toInt = if t % 4 = 1 then 20 else if t % 4 = 3 then -20 else 0 := by
  have : t % 4 < 4 := Nat.mod_lt _ (by decide)
  unfold burstLevelAt quadAt
  rcases h : t % 4 with _ | _ | _ | _ | k
  · decide
  · decide
  · decide
  · decide
  · omega

/-! ## One line of the sync pattern -/

@[simp] theorem syncLine_size (c : Cfg) (o : EncodeArgs) (n : Nat) (a : Array Sample) :
    (syncLine c o n a).size = a.size := by
  unfold syncLine
  split
  · simp [equalizingLine, percentLine]
  · simp [vsyncLine, percentLine]
  · unfold normalLine
    split_ifs <;> simp

/-- What `percentLine` writes over a whole line. -/
theorem percentLine_getD (n b0 b1 b2 : Nat) (a : Array Sample) (t : Nat) (ht : t < 910)
    (hs : n * 910 + t < a.size) (h0 : pct cfg b0 ≤ pct cfg b1) (h1 : pct cfg b1 ≤ pct cfg b2) :
    (percentLine cfg n b0 b1 b2 100 a).getD (n * 910 + t) 0#8 =
      low8 (if t < pct cfg b0 then syncLevel else if t < pct cfg b1 then blankLevel
        else if t < pct cfg b2 then syncLevel else blankLevel) := by
  have hp : pct cfg 100 = 910 := rfl
  unfold percentLine
  simp only [fill_getD, fill_size, hs, cfg_crtHres, hp]
  split_ifs <;> first | omega | rfl

/-- A line's pattern leaves every other line alone. -/
theorem syncLine_getD_other (o : EncodeArgs) (n i : Nat) (a : Array Sample) (hs : i < a.size)
    (h : i < n * 910 ∨ n * 910 + 910 ≤ i) : (syncLine cfg o n a).getD i 0#8 = a.getD i 0#8 := by
  have hp : pct cfg 100 = 910 := rfl
  have e1 : pct cfg 4 = 36 := rfl
  have e2 : pct cfg 50 = 455 := rfl
  have e3 : pct cfg 54 = 491 := rfl
  have e4 : pct cfg 46 = 418 := rfl
  have e5 : pct cfg 96 = 873 := rfl
  unfold syncLine
  split
  · simp only [equalizingLine, percentLine, fill_getD, fill_size, hs, cfg_crtHres, hp, e1, e2, e3]
    split_ifs <;> first | omega | rfl
  · simp only [vsyncLine, percentLine, fill_getD, fill_size, hs, cfg_crtHres, hp, e2, e5]
    split_ifs <;> first | omega | rfl
  · unfold normalLine
    simp only [cfg_crtTop, syncBeg_cfg, bwBeg_cfg, avBeg_cfg, cfg_crtHres]
    by_cases hc : o.color = true <;> by_cases hn : n < 21 <;>
      simp only [hc, hn, Bool.false_eq_true, if_true, if_false, burst_getD, fill_getD, fill_size, hs, cfg_crtHres] <;>
      split_ifs <;> first | omega | rfl

/-- What a normal line holds after its pattern (43_encoder.md R134, R135). -/
theorem normalLine_getD (color : Bool) (n t : Nat) (a : Array Sample) (ht : t < 910)
    (hs : n * 910 + t < a.size) :
    (normalLine cfg color n a).getD (n * 910 + t) 0#8 =
      if color = true ∧ 97 ≤ t ∧ t < 137 then low8 (burstLevelAt t)
      else if t < 21 then low8 blankLevel else if t < 88 then low8 syncLevel
      else if t < 156 then low8 blankLevel else if n < 21 then low8 blankLevel
      else a.getD (n * 910 + t) 0#8 := by
  have k1 : n * 910 + t - n * 910 = t := by omega
  have e : ∀ lo hi, (n * 910 + lo ≤ n * 910 + t ∧ n * 910 + t < n * 910 + hi) ↔ (lo ≤ t ∧ t < hi) := by
    intros; omega
  unfold normalLine
  simp only [cfg_crtTop, syncBeg_cfg, bwBeg_cfg, avBeg_cfg, cfg_crtHres]
  by_cases hc : color = true <;> by_cases hn : n < 21 <;>
    simp only [hc, hn, Bool.false_eq_true, if_true, if_false, burst_getD, fill_getD, fill_size, hs, cfg_crtHres,
      true_and, false_and, k1, e]
  all_goals
    generalize low8 blankLevel = u, low8 syncLevel = v, low8 (burstLevelAt t) = w,
      a.getD (n * 910 + t) 0#8 = z
    split_ifs <;> first | rfl | omega

theorem lineClass_equalizing {n : Nat} (h : n < 4 ∨ (7 ≤ n ∧ n < 10)) : lineClass n = .equalizing := by
  unfold lineClass
  split_ifs <;> first | rfl | omega

theorem lineClass_vsync {n : Nat} (h : 4 ≤ n) (h' : n < 7) : lineClass n = .vsync := by
  unfold lineClass
  split_ifs <;> first | rfl | omega

theorem lineClass_normal {n : Nat} (h : 10 ≤ n) : lineClass n = .normal := by
  unfold lineClass
  split_ifs <;> first | rfl | omega

/-- What the pattern of line `n` leaves in its own samples: the level of the sync tables where it writes,
and what was there where it does not. -/
theorem syncLine_getD_self (o : EncodeArgs) (n t : Nat) (a : Array Sample) (ht : t < 910)
    (hs : n * 910 + t < a.size) (odd : Bool) (ho : o.field = if odd then 1#32 else 0#32) :
    (∀ v, syncLevelAt odd o.color n t = some v →
      ((syncLine cfg o n a).getD (n * 910 + t) 0#8).toInt = v) ∧
    (syncLevelAt odd o.color n t = none →
      (syncLine cfg o n a).getD (n * 910 + t) 0#8 = a.getD (n * 910 + t) 0#8) := by
  have e1 : pct cfg 4 = 36 := rfl
  have e2 : pct cfg 50 = 455 := rfl
  have e3 : pct cfg 54 = 491 := rfl
  have e4 : pct cfg 46 = 418 := rfl
  have e5 : pct cfg 96 = 873 := rfl
  have l1 : (low8 syncLevel).toInt = -40 := by decide
  have l2 : (low8 blankLevel).toInt = 0 := by decide
  by_cases h1 : n < 4 ∨ (7 ≤ n ∧ n < 10)
  · unfold syncLine syncLevelAt
    rw [lineClass_equalizing h1, if_pos h1]
    refine ⟨?_, fun h => by cases h⟩
    rintro v ⟨⟩
    simp only [equalizingLine]
    rw [percentLine_getD _ _ _ _ _ _ ht hs (by decide) (by decide), e1, e2, e3]
    split_ifs <;> first | exact l1 | exact l2
  by_cases h2 : n < 7
  · unfold syncLine syncLevelAt
    rw [lineClass_vsync (by omega) h2, if_neg h1, if_pos h2]
    refine ⟨?_, fun h => by cases h⟩
    rintro v ⟨⟩
    simp only [vsyncLine]
    cases odd
    · simp only [Bool.false_eq_true, if_false] at ho ⊢
      rw [ho, if_pos rfl, percentLine_getD _ _ _ _ _ _ ht hs (by decide) (by decide), e4, e2, e5]
      split_ifs <;> first | exact l1 | exact l2
    · simp only [if_true] at ho ⊢
      rw [ho, if_neg (by decide), percentLine_getD _ _ _ _ _ _ ht hs (by decide) (by decide), e1, e2, e5]
      split_ifs <;> first | exact l1 | exact l2
  · unfold syncLine syncLevelAt
    rw [lineClass_normal (by omega), if_neg h1, if_neg h2]
    simp only [normalLine_getD _ _ _ _ ht hs]
    have l3 := burstLevelAt_toInt t
    by_cases hb : o.color = true ∧ 97 ≤ t ∧ t < 137
    · have c1 : t < 156 := by omega
      have c2 : ¬ t < 21 := by omega
      have c3 : ¬ t < 88 := by omega
      rw [if_pos hb, if_pos c1, if_neg c2, if_neg c3, if_pos hb]
      exact ⟨by rintro v ⟨⟩; exact l3, fun h => by cases h⟩
    · rw [if_neg hb, if_neg hb]
      by_cases c1 : t < 21
      · simp only [c1, show t < 156 by omega, if_true]
        exact ⟨by rintro v ⟨⟩; exact l2, fun h => by cases h⟩
      by_cases c2 : t < 88
      · simp only [c1, c2, show t < 156 by omega, if_true, if_false]
        exact ⟨by rintro v ⟨⟩; exact l1, fun h => by cases h⟩
      by_cases c3 : t < 156
      · simp only [c1, c2, c3, if_true, if_false]
        exact ⟨by rintro v ⟨⟩; exact l2, fun h => by cases h⟩
      by_cases c4 : n < 21
      · simp only [c1, c2, c3, c4, if_true, if_false]
        exact ⟨by rintro v ⟨⟩; exact l2, fun h => by cases h⟩
      · simp only [c1, c2, c3, c4, if_false]
        exact ⟨fun v h => (by cases h), fun _ => trivial⟩

/-- The lines patterned so far. -/
def syncLinesUpTo (c : Cfg) (o : EncodeArgs) (n : Nat) (a : Array Sample) : Array Sample :=
  (List.range n).foldl (fun a n => syncLine c o n a) a

theorem syncLinesUpTo_succ (c : Cfg) (o : EncodeArgs) (n : Nat) (a : Array Sample) :
    syncLinesUpTo c o (n + 1) a = syncLine c o n (syncLinesUpTo c o n a) := by
  simp [syncLinesUpTo, List.range_succ]

theorem syncLines_eq (c : Cfg) (o : EncodeArgs) (a : Array Sample) :
    syncLines c o a = syncLinesUpTo c o c.crtVres a := rfl

@[simp] theorem syncLinesUpTo_size (c : Cfg) (o : EncodeArgs) (n : Nat) (a : Array Sample) :
    (syncLinesUpTo c o n a).size = a.size := by
  induction n with
  | zero => rfl
  | succ n ih => rw [syncLinesUpTo_succ]; simp [ih]

/-- Patterning lines `0` to `n − 1` leaves every later line alone. -/
theorem syncLinesUpTo_getD_after (o : EncodeArgs) (n i : Nat) (a : Array Sample) (hs : i < a.size)
    (h : n * 910 ≤ i) : (syncLinesUpTo cfg o n a).getD i 0#8 = a.getD i 0#8 := by
  induction n with
  | zero => rfl
  | succ n ih =>
    have hi : i < (syncLinesUpTo cfg o n a).size := by simpa using hs
    rw [syncLinesUpTo_succ]
    exact (syncLine_getD_other o n i _ hi (.inr (by omega))).trans
      (ih (le_trans (Nat.mul_le_mul_right _ (Nat.le_succ n)) h))

/-- A line's own pattern is what the lines after it leave. -/
theorem syncLinesUpTo_getD_line (o : EncodeArgs) (n m t : Nat) (a : Array Sample) (ht : t < 910)
    (hs : n * 910 + t < a.size) (h : n < m) :
    (syncLinesUpTo cfg o m a).getD (n * 910 + t) 0#8 =
      (syncLine cfg o n (syncLinesUpTo cfg o n a)).getD (n * 910 + t) 0#8 := by
  induction m with
  | zero => omega
  | succ m ih =>
    rw [syncLinesUpTo_succ]
    by_cases e : n = m
    · rw [e]
    · rw [syncLine_getD_other o m _ _ (by simpa using hs) (by omega), ih (by omega)]

/-! ## Active video -/

/-- How many `OOB_SRC` values a source read draws: one, for a word of row `h` that nobody has written (43_encoder.md
R137, 70_reset_and_hazards.md R243). -/
def drawsOf (o : EncodeArgs) (xmem : XMem) (sx sy : Word) : Nat :=
  if sy = o.h ∧ XMem.find xmem (pixelAddr o sx sy) = none then 1 else 0

/-- All that a source read can answer: inside the raster the word of XMEM; in row `h` the word written there, or
the next free value. -/
theorem readSource_cases (o : EncodeArgs) (xmem : XMem) (n : Nat) (sx sy : Word) :
    (sy ≠ o.h → (readSource o xmem n sx sy).pixel = XMem.read xmem (pixelAddr o sx sy)) ∧
    (∀ v, XMem.find xmem (pixelAddr o sx sy) = some v → (readSource o xmem n sx sy).pixel = v) ∧
    (sy = o.h → XMem.find xmem (pixelAddr o sx sy) = none →
      (readSource o xmem n sx sy).pixel = Config.oobSrc n) ∧
    (readSource o xmem n sx sy).oobCount = n + drawsOf o xmem sx sy := by
  unfold readSource readPastRaster drawsOf XMem.read
  by_cases h : sy = o.h <;> rcases XMem.find xmem (pixelAddr o sx sy) with _ | w <;> simp [h]

/-- A source read of a word somebody has written draws no free value. -/
theorem drawsOf_written {o : EncodeArgs} {xmem : XMem} {sx sy : Word}
    (h : XMem.find xmem (pixelAddr o sx sy) ≠ none) : drawsOf o xmem sx sy = 0 := by
  simp [drawsOf, h]

/-- The filter step of a pixel, channel by channel (43_encoder.md R139, 41_iir.md R112). -/
theorem bandlimit_eq (iir : PerChannel IirUnit) (v : PerChannel Word) :
    bandlimit iir v =
      { y := ⟨iir.y.c, iir.y.h + ((v.y - iir.y.h) * iir.y.c).sshiftRight 11⟩
        i := ⟨iir.i.c, iir.i.h + ((v.i - iir.i.h) * iir.i.c).sshiftRight 11⟩
        q := ⟨iir.q.c, iir.q.h + ((v.q - iir.q.h) * iir.q.c).sshiftRight 11⟩ } := rfl

/-- One pixel of active video: the filters take one step each over the summed matrix of two pixels, one
sample is stored, and nothing else changes (43_encoder.md R136 to R141). The pixels are source words, or a
free value where the row is row `h` and nobody has written the word. -/
theorem encodePixel_cases (c : Cfg) (e : EncodeEnv) (r : RowPlan) (m : Modulator) (x : Nat) :
    ∃ p p' : Word,
      (r.rowA ≠ e.args.h → p = XMem.read e.xmem (pixelAddr e.args (sourceColumn c e.args x) r.rowA)) ∧
      (r.rowB ≠ e.args.h → p' = XMem.read e.xmem (pixelAddr e.args (sourceColumn c e.args x) r.rowB)) ∧
      (encodePixel c e r m x).iir = bandlimit m.iir (rgb2yiqSum p p') ∧
      (encodePixel c e r m x).analog = m.analog.setIfInBounds (sampleIndex c (r.y + yo c) (x + xo c))
        (low8 (clamp (composite e.tuning e.args.color
          ⟨(bandlimit m.iir (rgb2yiqSum p p')).y.h, (bandlimit m.iir (rgb2yiqSum p p')).i.h,
            (bandlimit m.iir (rgb2yiqSum p p')).q.h⟩ r.ph x) 0#32 110#32)) ∧
      (encodePixel c e r m x).oobCount =
        m.oobCount + drawsOf e.args e.xmem (sourceColumn c e.args x) r.rowA
          + drawsOf e.args e.xmem (sourceColumn c e.args x) r.rowB ∧
      (∀ v, XMem.find e.xmem (pixelAddr e.args (sourceColumn c e.args x) r.rowA) = some v → p = v) ∧
      (∀ v, XMem.find e.xmem (pixelAddr e.args (sourceColumn c e.args x) r.rowB) = some v → p' = v) := by
  obtain ⟨a1, a2, -, a4⟩ := readSource_cases e.args e.xmem m.oobCount (sourceColumn c e.args x) r.rowA
  obtain ⟨b1, b2, -, b4⟩ := readSource_cases e.args e.xmem
    (readSource e.args e.xmem m.oobCount (sourceColumn c e.args x) r.rowA).oobCount (sourceColumn c e.args x) r.rowB
  exact ⟨_, _, a1, b1, rfl, rfl, b4.trans (by rw [a4]), a2, b2⟩

@[simp] theorem encodePixel_size (c : Cfg) (e : EncodeEnv) (r : RowPlan) (m : Modulator) (x : Nat) :
    (encodePixel c e r m x).analog.size = m.analog.size := by simp [encodePixel]

/-- A stored level is in `[0, 110]` (43_encoder.md R141). -/
theorem storedLevel_toInt (v : Word) :
    (low8 (clamp v 0#32 110#32)).toInt = max 0 (min 110 v.toInt) := by
  have h : (clamp v 0#32 110#32).toInt = max 0 (min 110 v.toInt) := clamp_toInt v 0#32 110#32 (by decide)
  rw [low8_toInt (by omega) (by omega), h]

/-- The columns of one row done so far. -/
def encodeColumns (c : Cfg) (e : EncodeEnv) (m : Modulator) (y n : Nat) : Modulator :=
  (List.range n).foldl (encodePixel c e (rowPlan c e.args y)) { m with iir := resetIirs m.iir }

theorem encodeColumns_succ (c : Cfg) (e : EncodeEnv) (m : Modulator) (y n : Nat) :
    encodeColumns c e m y (n + 1) = encodePixel c e (rowPlan c e.args y) (encodeColumns c e m y n) n := by
  simp [encodeColumns, List.range_succ]

theorem encodeRow_eq (c : Cfg) (e : EncodeEnv) (m : Modulator) (y : Nat) :
    encodeRow c e m y = encodeColumns c e m y (destw c) := rfl

@[simp] theorem encodeColumns_size (c : Cfg) (e : EncodeEnv) (m : Modulator) (y n : Nat) :
    (encodeColumns c e m y n).analog.size = m.analog.size := by
  induction n with
  | zero => rfl
  | succ n ih => rw [encodeColumns_succ]; simp [ih]

/-- The columns done so far have written their own samples and no other. -/
theorem encodeColumns_getD_other (e : EncodeEnv) (m : Modulator) (y n i : Nat)
    (h : i < (y + 29) * 910 + 216 ∨ (y + 29) * 910 + 216 + n ≤ i) :
    (encodeColumns cfg e m y n).analog.getD i 0#8 = m.analog.getD i 0#8 := by
  induction n with
  | zero => rfl
  | succ n ih =>
    obtain ⟨p, p', -, -, -, ha, -⟩ := encodePixel_cases cfg e (rowPlan cfg e.args y) (encodeColumns cfg e m y n) n
    rw [encodeColumns_succ, ha, ← ih (by omega)]
    refine set_getD_ne _ _ _ ?_
    simp only [rowPlan, yo_cfg, xo_cfg, sampleIndex_cfg]
    omega

/-- The rows done so far. -/
def encodeRows (c : Cfg) (e : EncodeEnv) (m : Modulator) (n : Nat) : Modulator :=
  (List.range n).foldl (encodeRow c e) m

theorem encodeRows_succ (c : Cfg) (e : EncodeEnv) (m : Modulator) (n : Nat) :
    encodeRows c e m (n + 1) = encodeRow c e (encodeRows c e m n) n := by
  simp [encodeRows, List.range_succ]

theorem activeVideo_eq (c : Cfg) (e : EncodeEnv) (m : Modulator) : activeVideo c e m = encodeRows c e m (desth c) :=
  rfl

@[simp] theorem encodeRows_size (c : Cfg) (e : EncodeEnv) (m : Modulator) (n : Nat) :
    (encodeRows c e m n).analog.size = m.analog.size := by
  induction n with
  | zero => rfl
  | succ n ih => rw [encodeRows_succ, encodeRow_eq]; simp [ih]

/-- The filters keep their coefficients through a row. -/
theorem encodeColumns_c (c : Cfg) (e : EncodeEnv) (m : Modulator) (y n : Nat) (k : Channel) :
    (channelGet (encodeColumns c e m y n).iir k).c = (channelGet m.iir k).c := by
  induction n with
  | zero => cases k <;> rfl
  | succ n ih =>
    obtain ⟨p, p', -, -, hi, -⟩ := encodePixel_cases c e (rowPlan c e.args y) (encodeColumns c e m y n) n
    rw [encodeColumns_succ, hi, ← ih]
    cases k <;> rfl

end Sys2Proof.Machine
end

