-- ==== Sys2Proof/Laws/Memory.lean ====
section
/-! SUPPORT. The laws of the memories: a read after a write, the canonical form kept by every operation,
and the passage between a list of cells and the dense form the frame commands work on. -/

namespace Sys2Proof.Machine

variable {α : Type}

/-! ## Lists of cells -/

theorem sparseFind_sparseInsert (m : List (Nat × α)) (a b : Nat) (x : α) :
    sparseFind (sparseInsert m a x) b = if b = a then some x else sparseFind m b := by
  induction m with
  | nil =>
    by_cases h : b = a
    · simp [sparseInsert, sparseFind, h]
    · have : ¬ a = b := fun e => h e.symm
      simp [sparseInsert, sparseFind, h, this]
  | cons p m ih =>
    obtain ⟨k, v⟩ := p
    simp only [sparseInsert]
    split_ifs with h1 h2 h3 h4 h5 <;> simp_all [sparseFind, eq_comm]

theorem sparseFind_sparseErase (m : List (Nat × α)) (a b : Nat) :
    sparseFind (sparseErase m a) b = if b = a then none else sparseFind m b := by
  induction m with
  | nil => simp [sparseErase, sparseFind]
  | cons p m ih =>
    obtain ⟨k, v⟩ := p
    unfold sparseErase at ih ⊢
    by_cases hk : k = a
    · subst hk
      by_cases hb : b = k
      · simp_all
      · have : ¬ k = b := fun h => hb h.symm
        simp_all [sparseFind]
    · by_cases hb : b = a
      · subst hb
        simp_all [sparseFind]
      · simp_all [sparseFind]

theorem sparseFind_of_forall_ne (m : List (Nat × α)) (a : Nat) (h : ∀ p ∈ m, p.1 ≠ a) :
    sparseFind m a = none := by
  induction m with
  | nil => rfl
  | cons p m ih =>
    simp only [List.mem_cons, forall_eq_or_imp] at h
    simp [sparseFind, h.1, ih h.2]

theorem sparseFind_mem {m : List (Nat × α)} {a : Nat} {v : α} (h : sparseFind m a = some v) :
    (a, v) ∈ m := by
  induction m with
  | nil => simp [sparseFind] at h
  | cons p m ih =>
    obtain ⟨k, w⟩ := p
    by_cases hk : k = a
    · simp_all [sparseFind]
    · simp only [sparseFind, hk, if_false] at h
      exact List.mem_cons_of_mem _ (ih h)

/-- In a list with rising addresses, what is listed is what is found. -/
theorem sparseFind_of_mem {m : List (Nat × α)} (hm : keysRise m) {a : Nat} {v : α} (h : (a, v) ∈ m) :
    sparseFind m a = some v := by
  induction m with
  | nil => cases h
  | cons p m ih =>
    obtain ⟨k, w⟩ := p
    have hp := List.pairwise_cons.1 hm
    rcases List.mem_cons.1 h with h | h
    · cases h; simp [sparseFind]
    · have : k < a := hp.1 _ h
      simp [sparseFind, Nat.ne_of_lt this, ih hp.2 h]

theorem mem_sparseInsert {m : List (Nat × α)} {a : Nat} {x : α} {p : Nat × α}
    (h : p ∈ sparseInsert m a x) : p = (a, x) ∨ p ∈ m := by
  induction m with
  | nil => simpa [sparseInsert] using h
  | cons q m ih =>
    obtain ⟨k, v⟩ := q
    simp only [sparseInsert] at h
    split_ifs at h with h1 h2
    · simpa using h
    · rcases List.mem_cons.1 h with h | h
      · exact .inl h
      · exact .inr (List.mem_cons_of_mem _ h)
    · rcases List.mem_cons.1 h with h | h
      · exact .inr (by simp [h])
      · exact (ih h).imp id (List.mem_cons_of_mem _)

/-- Insertion keeps the addresses rising. -/
theorem keysRise_sparseInsert {m : List (Nat × α)} (hm : keysRise m) (a : Nat) (x : α) :
    keysRise (sparseInsert m a x) := by
  induction m with
  | nil => simp [sparseInsert, keysRise]
  | cons q m ih =>
    obtain ⟨k, v⟩ := q
    have hp := List.pairwise_cons.1 hm
    simp only [sparseInsert]
    split_ifs with h1 h2
    · refine List.pairwise_cons.2 ⟨fun p hp' => ?_, hm⟩
      rcases List.mem_cons.1 hp' with h | h
      · simpa [h] using h1
      · exact lt_trans h1 (hp.1 _ h)
    · subst h2
      exact List.pairwise_cons.2 ⟨hp.1, hp.2⟩
    · refine List.pairwise_cons.2 ⟨fun p hp' => ?_, ih hp.2⟩
      rcases mem_sparseInsert hp' with h | h
      · subst h; simp only; omega
      · exact hp.1 _ h

/-- Erasure keeps the addresses rising. -/
theorem keysRise_sparseErase {m : List (Nat × α)} (hm : keysRise m) (a : Nat) :
    keysRise (sparseErase m a) := List.Pairwise.filter _ hm

theorem keysBelow_sparseInsert {n : Nat} {m : List (Nat × α)} (hm : keysBelow n m) {a : Nat} (ha : a < n)
    (x : α) : keysBelow n (sparseInsert m a x) := fun p hp => by
  rcases mem_sparseInsert hp with h | h
  · simpa [h] using ha
  · exact hm p h

theorem keysBelow_sparseErase {n : Nat} {m : List (Nat × α)} (hm : keysBelow n m) (a : Nat) :
    keysBelow n (sparseErase m a) := fun p hp => hm p (List.mem_of_mem_filter hp)

/-! ## The SignalBuffer memories -/

/-- All a sample store does: the sample at its index reads as stored, every other as before. -/
theorem memory_read_write (m : Memory) (a b : Nat) (v : Sample) :
    Memory.read (Memory.write m a v) b = if b = a then v else Memory.read m b := by
  unfold Memory.read Memory.write
  by_cases hv : v = 0#8
  · subst hv
    by_cases hb : b = a <;> simp [sparseFind_sparseErase, hb]
  · by_cases hb : b = a <;> simp [hv, sparseFind_sparseInsert, hb]

/-- A sample store keeps the canonical form. -/
theorem memory_write_wf {m : Memory} (hm : Memory.wf m) (a : Nat) (v : Sample) :
    Memory.wf (Memory.write m a v) := by
  unfold Memory.write
  split_ifs with hv
  · exact ⟨keysRise_sparseErase hm.1 a, fun p hp => hm.2 p (List.mem_of_mem_filter hp)⟩
  · refine ⟨keysRise_sparseInsert hm.1 a v, fun p hp => ?_⟩
    rcases mem_sparseInsert hp with h | h
    · simpa [h] using hv
    · exact hm.2 p h

theorem memory_write_keysBelow {n : Nat} {m : Memory} (hm : keysBelow n m) {a : Nat} (ha : a < n)
    (v : Sample) : keysBelow n (Memory.write m a v) := by
  unfold Memory.write
  split_ifs
  · exact keysBelow_sparseErase hm a
  · exact keysBelow_sparseInsert hm ha v

/-! ## XMEM -/

theorem xmem_find_write (m : XMem) (a b v : Word) :
    XMem.find (XMem.write m a v) b = if b = a then some v else XMem.find m b := by
  unfold XMem.find XMem.write
  simp [sparseFind_sparseInsert, BitVec.toNat_inj]

/-- All a word store does: the word at its address reads as stored, every other as before. -/
theorem xmem_read_write (m : XMem) (a b v : Word) :
    XMem.read (XMem.write m a v) b = if b = a then v else XMem.read m b := by
  unfold XMem.read
  rw [xmem_find_write]
  by_cases h : b = a <;> simp [h]

/-- A word store keeps the canonical form. -/
theorem xmem_write_wf {m : XMem} (hm : XMem.wf m) (a v : Word) : XMem.wf (XMem.write m a v) :=
  ⟨keysRise_sparseInsert hm.1 _ v, keysBelow_sparseInsert hm.2 a.isLt v⟩

/-! ## Dense forms -/

theorem foldl_setIfInBounds_size (m : List (Nat × α)) (arr : Array α) :
    (m.foldl (fun a p => a.setIfInBounds p.1 p.2) arr).size = arr.size := by
  induction m generalizing arr with
  | nil => rfl
  | cons p m ih => simp [ih]

@[simp] theorem toDense_size (d : α) (n : Nat) (m : List (Nat × α)) : (toDense d n m).size = n := by
  simp [toDense, foldl_setIfInBounds_size]

theorem foldl_setIfInBounds_getD {m : List (Nat × α)} (hm : keysRise m) (arr : Array α) (i : Nat) (d : α)
    (hi : i < arr.size) :
    (m.foldl (fun a p => a.setIfInBounds p.1 p.2) arr).getD i d = (sparseFind m i).getD (arr.getD i d) := by
  induction m generalizing arr with
  | nil => simp [sparseFind]
  | cons p m ih =>
    obtain ⟨k, v⟩ := p
    have hp := List.pairwise_cons.1 hm
    rw [List.foldl_cons, ih hp.2 _ (by simpa using hi)]
    by_cases hk : k = i
    · subst hk
      have : sparseFind m k = none :=
        sparseFind_of_forall_ne _ _ fun q hq => Nat.ne_of_gt (hp.1 q hq)
      simp [sparseFind, this, Array.getD_eq_getD_getElem?, hi]
    · simp [sparseFind, hk, Array.getD_eq_getD_getElem?]

/-- The dense form holds what the cells list, and `d` elsewhere. -/
theorem toDense_getD {m : List (Nat × α)} (hm : keysRise m) (d : α) {n i : Nat} (hi : i < n) :
    (toDense d n m).getD i d = (sparseFind m i).getD d := by
  unfold toDense
  rw [foldl_setIfInBounds_getD hm _ _ _ (by simpa using hi)]
  simp [Array.getD_eq_getD_getElem?, hi]

theorem mem_ofDense [DecidableEq α] {d : α} {arr : Array α} {p : Nat × α} :
    p ∈ ofDense d arr ↔ arr[p.1]? = some p.2 ∧ p.2 ≠ d := by
  obtain ⟨i, v⟩ := p
  simp [ofDense, List.mem_zipIdx_iff_getElem?]

/-- The cells of a dense memory stand with rising addresses. -/
theorem keysRise_ofDense [DecidableEq α] (d : α) (arr : Array α) : keysRise (ofDense d arr) := by
  unfold ofDense keysRise
  rw [List.pairwise_map]
  refine List.Pairwise.filter _ ?_
  have h : (arr.toList.zipIdx.map Prod.snd).Pairwise (· < ·) := by
    rw [List.zipIdx_map_snd]
    exact List.pairwise_lt_range'
  exact List.pairwise_map.1 h

theorem keysBelow_ofDense [DecidableEq α] (d : α) (arr : Array α) : keysBelow arr.size (ofDense d arr) :=
  fun p hp => by
    have h := (mem_ofDense.1 hp).1
    exact (Array.getElem?_eq_some_iff.1 h).1

/-- What the cells of a dense memory list. -/
theorem sparseFind_ofDense [DecidableEq α] (d : α) (arr : Array α) (i : Nat) :
    (sparseFind (ofDense d arr) i).getD d = arr.getD i d := by
  rw [Array.getD_eq_getD_getElem?]
  rcases h : sparseFind (ofDense d arr) i with _ | v
  · rcases h' : arr[i]? with _ | w
    · rfl
    · by_cases hw : w = d
      · simp [hw]
      · have := sparseFind_of_mem (keysRise_ofDense d arr) (mem_ofDense.2 ⟨h', hw⟩)
        simp [h] at this
  · have := mem_ofDense.1 (sparseFind_mem h)
    simp [this.1]

@[simp] theorem samplesOf_size (c : Cfg) (m : Memory) : (samplesOf c m).size = inputSize c := by
  simp [samplesOf]

/-- The dense form of a memory holds its samples. -/
theorem samplesOf_getD {c : Cfg} {m : Memory} (hm : Memory.wf m) {i : Nat} (hi : i < inputSize c) :
    (samplesOf c m).getD i 0#8 = Memory.read m i := toDense_getD hm.1 0#8 hi

/-- The memory of a dense form reads as its samples. -/
theorem memoryOf_read (arr : Array Sample) (i : Nat) : Memory.read (memoryOf arr) i = arr.getD i 0#8 :=
  sparseFind_ofDense 0#8 arr i

/-- The memory of a dense form is canonical. -/
theorem memoryOf_wf (arr : Array Sample) : Memory.wf (memoryOf arr) :=
  ⟨keysRise_ofDense _ _, fun _ hp => (mem_ofDense.1 hp).2⟩

theorem memoryOf_keysBelow (arr : Array Sample) : keysBelow arr.size (memoryOf arr) :=
  keysBelow_ofDense _ _

@[simp] theorem triplesOf_size (c : Cfg) (m : Scratch) : (triplesOf c m).size = avLen c + 1 := by
  simp [triplesOf]

theorem triplesOf_getD {c : Cfg} {m : Scratch} (hm : Scratch.wf m) {i : Nat} (hi : i < avLen c + 1) :
    (triplesOf c m).getD i zeroTriple = Scratch.read m i := toDense_getD hm.1 zeroTriple hi

theorem scratchOf_read (arr : Array (PerChannel Word)) (i : Nat) :
    Scratch.read (scratchOf arr) i = arr.getD i zeroTriple := sparseFind_ofDense zeroTriple arr i

theorem scratchOf_wf (arr : Array (PerChannel Word)) : Scratch.wf (scratchOf arr) :=
  ⟨keysRise_ofDense _ _, fun _ hp => (mem_ofDense.1 hp).2⟩

end Sys2Proof.Machine
end

