-- ==== Sys2Proof/Laws/Decoder.lean ====
section
/-! SUPPORT. All that the shared operations of DECODE can do: the noise loop, the running-sum searches, the
burst update, one demodulated sample, and the column and row loops over XMEM. -/

namespace Sys2Proof.Machine

/-! ## Noise -/

/-- A loop that steps a generator and appends a value made from its new state: what it appends and where the
generator ends. -/
theorem generate_foldl (f : Word → Word) (g : Word → Sample → Sample) (l : List Sample) (st : NoiseState) :
    let out := l.foldl (fun st x => NoiseState.mk (st.inp.push (g (f st.rn) x)) (f st.rn)) st
    out.rn = f^[l.length] st.rn ∧ out.inp.size = st.inp.size + l.length ∧
    (∀ i, i < st.inp.size → out.inp[i]? = st.inp[i]?) ∧
    ∀ i, i < l.length → out.inp[st.inp.size + i]? = some (g (f^[i + 1] st.rn) (l.getD i 0#8)) := by
  induction l generalizing st with
  | nil => simp
  | cons x l ih =>
    obtain ⟨h1, h2, h3, h4⟩ := ih (NoiseState.mk (st.inp.push (g (f st.rn) x)) (f st.rn))
    simp only [Array.size_push] at h1 h2 h3 h4
    simp only [List.foldl_cons]
    refine ⟨?_, ?_, fun i hi => ?_, fun i hi => ?_⟩
    · rw [h1, List.length_cons, Function.iterate_succ_apply]
    · rw [h2, List.length_cons]; omega
    · rw [h3 i (by omega), Array.getElem?_push, if_neg (by omega)]
    · rcases i with _ | i
      · rw [h3 _ (by omega)]
        simp
      · have := h4 i (by simpa using hi)
        rw [show st.inp.size + (i + 1) = st.inp.size + 1 + i by omega, this, List.getD_cons_succ]
        rfl

/-- The noise loop over a list of samples. -/
theorem injectSample_foldl (noise : Word) (l : List Sample) (st : NoiseState) :
    (l.foldl (injectSample noise) st).rn = lcgNext^[l.length] st.rn ∧
    (l.foldl (injectSample noise) st).inp.size = st.inp.size + l.length ∧
    (∀ i, i < st.inp.size → (l.foldl (injectSample noise) st).inp[i]? = st.inp[i]?) ∧
    ∀ i, i < l.length → (l.foldl (injectSample noise) st).inp[st.inp.size + i]? =
      some (noisySample noise (lcgNext^[i + 1] st.rn) (l.getD i 0#8)) :=
  generate_foldl lcgNext (noisySample noise) l st

/-- The generator takes one step per sample (44_decoder.md R161). -/
theorem injectNoise_rn (noise rn : Word) (analog : Array Sample) :
    (injectNoise noise rn analog).rn = lcgNext^[analog.size] rn := by
  have h := (injectSample_foldl noise analog.toList { inp := #[], rn := rn }).1
  rwa [Array.length_toList] at h

@[simp] theorem injectNoise_size (noise rn : Word) (analog : Array Sample) :
    (injectNoise noise rn analog).inp.size = analog.size := by
  have h := (injectSample_foldl noise analog.toList { inp := #[], rn := rn }).2.1
  rw [Array.length_toList] at h
  exact h.trans (Nat.zero_add _)

/-- Each sample of INP is made from its own sample of ANALOG and its own generator state. -/
theorem injectNoise_getD (noise rn : Word) (analog : Array Sample) {i : Nat} (hi : i < analog.size) :
    (injectNoise noise rn analog).inp.getD i 0#8 =
      noisySample noise (lcgNext^[i + 1] rn) (analog.getD i 0#8) := by
  have h := (injectSample_foldl noise analog.toList { inp := #[], rn := rn }).2.2.2 i (by simpa using hi)
  have e : analog.toList.getD i 0#8 = analog.getD i 0#8 := by
    rw [Array.getD_eq_getD_getElem?, List.getD_eq_getElem?_getD, Array.getElem?_toList]
  rw [e, show (#[] : Array Sample).size + i = i from Nat.zero_add i] at h
  rw [Array.getD_eq_getD_getElem?, injectNoise, h, Option.getD_some]

/-- A noisy sample lies in `[−127, 127]` (44_decoder.md R161). -/
theorem noisySample_bounds (noise rn : Word) (x : Sample) :
    -127 ≤ (noisySample noise rn x).toInt ∧ (noisySample noise rn x).toInt ≤ 127 := by
  unfold noisySample
  generalize sext8 x + tdiv (noise * (noiseByte rn - 0x7F#32)) 256#32 = v
  have h : (clamp v (-127#32) 127#32).toInt = max (-127) (min 127 v.toInt) :=
    clamp_toInt v (-127#32) 127#32 (by decide)
  rw [low8_toInt (by omega) (by omega)]
  omega

/-! ## Running sums -/

/-- The running sum of `n` values from number `k` on. -/
def runSum (value : Nat → Word) (k : Nat) : Nat → Word → Word
  | 0, sum => sum
  | n + 1, sum => runSum value (k + 1) n (sum + value k)

/-- When the search answers `j`, the sum through `j` is at the threshold or below and no shorter one is. -/
theorem crossAt_some {threshold : Word} {value : Nat → Word} {n k j : Nat} {sum : Word}
    (h : crossAt threshold value n k sum = some j) :
    k ≤ j ∧ j < k + n ∧ (runSum value k (j - k + 1) sum).sle threshold = true ∧
      ∀ i, i < j - k → (runSum value k (i + 1) sum).sle threshold = false := by
  induction n generalizing k sum with
  | zero => cases h
  | succ n ih =>
    simp only [crossAt] at h
    split at h
    · cases h
      refine ⟨le_refl _, by omega, by simpa [runSum], fun i hi => by omega⟩
    · rename_i hc
      obtain ⟨h1, h2, h3, h4⟩ := ih h
      refine ⟨by omega, by omega, ?_, fun i hi => ?_⟩
      · rw [show j - k + 1 = (j - (k + 1) + 1) + 1 by omega]
        exact h3
      · rcases i with _ | i
        · simpa [runSum] using hc
        · exact h4 i (by omega)

/-- When the search answers nothing, no sum reaches the threshold. -/
theorem crossAt_none {threshold : Word} {value : Nat → Word} {n k : Nat} {sum : Word}
    (h : crossAt threshold value n k sum = none) :
    ∀ i, i < n → (runSum value k (i + 1) sum).sle threshold = false := by
  induction n generalizing k sum with
  | zero => intro i hi; omega
  | succ n ih =>
    simp only [crossAt] at h
    split at h
    · cases h
    · rename_i hc
      intro i hi
      rcases i with _ | i
      · simpa [runSum] using hc
      · exact ih h i (by omega)

/-- The vertical search: the first candidate that triggers, or the last one (44_decoder.md R162). -/
theorem vsyncSearchFrom_cases (c : Cfg) (inp : Array Sample) (vsync : Word) (n k cand : Nat) :
    (∃ m j, m < n ∧ vsyncCrossing c inp (vsyncCandidate c vsync (k + m)) = some j ∧
      (∀ m', m' < m → vsyncCrossing c inp (vsyncCandidate c vsync (k + m')) = none) ∧
      vsyncSearchFrom c inp vsync n k cand = ⟨vsyncCandidate c vsync (k + m), j⟩) ∨
    ((∀ m, m < n → vsyncCrossing c inp (vsyncCandidate c vsync (k + m)) = none) ∧
      vsyncSearchFrom c inp vsync n k cand =
        ⟨if n = 0 then cand else vsyncCandidate c vsync (k + (n - 1)), c.crtHres⟩) := by
  induction n generalizing k cand with
  | zero => exact .inr ⟨fun m hm => absurd hm (Nat.not_lt_zero m), rfl⟩
  | succ n ih =>
    simp only [vsyncSearchFrom]
    rcases hx : vsyncCrossing c inp (vsyncCandidate c vsync k) with _ | j
    · simp only [Nat.succ_ne_zero, if_false, Nat.add_sub_cancel]
      rcases ih (k + 1) (vsyncCandidate c vsync k) with ⟨m, j, hm, h1, h2, h3⟩ | ⟨h1, h2⟩
      · refine .inl ⟨m + 1, j, by omega, ?_, fun m' hm' => ?_, ?_⟩
        · rw [show k + (m + 1) = k + 1 + m by omega]; exact h1
        · rcases m' with _ | m'
          · exact hx
          · rw [show k + (m' + 1) = k + 1 + m' by omega]; exact h2 m' (by omega)
        · rw [show k + (m + 1) = k + 1 + m by omega]; exact h3
      · refine .inr ⟨fun m hm => ?_, ?_⟩
        · rcases m with _ | m
          · exact hx
          · rw [show k + (m + 1) = k + 1 + m by omega]; exact h1 m (by omega)
        · rw [h2]
          rcases n with _ | n
          · rfl
          · rw [if_neg (Nat.succ_ne_zero n), show k + 1 + (n + 1 - 1) = k + (n + 1) by omega]
    · exact .inl ⟨0, j, by omega, hx, fun m' hm' => by omega, rfl⟩

/-- What the vertical search finds is a line. -/
theorem vsyncSearch_cand_lt (inp : Array Sample) (vsync : Word) : (vsyncSearch cfg inp vsync).cand < 262 := by
  have lt : ∀ k, vsyncCandidate cfg vsync k < 262 := fun k => by
    unfold vsyncCandidate
    rw [cfg_crtVres]
    exact pmod_lt _ (by norm_num)
  rcases vsyncSearchFrom_cases cfg inp vsync (2 * cfg.vsyncWindow) 0 0 with ⟨m, j, -, -, -, h⟩ | ⟨-, h⟩
  · rw [vsyncSearch, h]; exact lt _
  · rw [vsyncSearch, h, if_neg (by simp)]; exact lt _

theorem hsyncNext_lt (inp : Array Sample) (ln : Nat) (hsync : Word) : (hsyncNext cfg inp ln hsync).toNat < 910 := by
  unfold hsyncNext
  rw [cfg_crtHres]
  exact pmodWord_lt _ (by norm_num) (by norm_num)

/-! ## Loops over consecutive numbers, and the ring -/

/-- A loop over `lo .. lo + len − 1` as a run of states, `f i` the one before number `i`. -/
theorem foldl_range'_run {σ : Type} (g : σ → Nat → σ) (a : σ) (lo len : Nat) :
    ∃ f : Nat → σ, f lo = a ∧ (∀ i, lo ≤ i → i < lo + len → f (i + 1) = g (f i) i) ∧
      (List.range' lo len).foldl g a = f (lo + len) := by
  refine ⟨fun i => (List.range' lo (i - lo)).foldl g a, by simp, fun i h _ => ?_, by simp⟩
  simp only
  rw [show i + 1 - lo = (i - lo) + 1 by omega, List.range'_concat, List.foldl_append]
  simp [show lo + (i - lo) = i by omega]

/-- A read at an index that fits is a read of the ring (20_memory.md R52). -/
theorem sigRead_ofNat (inp : Array Sample) {n : Nat} (h : n < 2 ^ 31) :
    sigRead cfg inp (BitVec.ofNat 32 n) = (ringSample inp n).signExtend 32 := by
  have e := pmod_toInt (BitVec.ofNat 32 n) (m := 238420) (by decide)
  rw [show (BitVec.ofNat 32 n).toInt = n from ofCount_toInt h] at e
  rw [sigRead, inputSize_cfg, show pmod (BitVec.ofNat 32 n) 238420 = n % 238420 by omega]
  rfl

/-! ## Burst recovery, line geometry and line energy -/

theorem quadAt_mod (q : Quad Word) (i j : Nat) (h : i % 4 = j % 4) : quadAt q i = quadAt q j := by
  unfold quadAt; rw [h]

theorem quadAt_quadPut (q : Quad Word) (i j : Nat) (v : Word) :
    quadAt (quadPut q i v) j = if j % 4 = i % 4 then v else quadAt q j := by
  have hi : i % 4 = 0 ∨ i % 4 = 1 ∨ i % 4 = 2 ∨ i % 4 = 3 := by omega
  have hj : j % 4 = 0 ∨ j % 4 = 1 ∨ j % 4 = 2 ∨ j % 4 = 3 := by omega
  unfold quadAt quadPut
  rcases hi with hi | hi | hi | hi <;> rcases hj with hj | hj | hj | hj <;> simp [hi, hj]

/-- One register of the burst vector through `4 m` updates in column order: it takes the `m` of its own phase
(44_decoder.md R169). -/
theorem burstUpdate_foldl (sample : Nat → Word) (t0 k : Nat) (hk : k < 4) (m : Nat) (q : Quad Word) :
    quadAt ((List.range' t0 (4 * m)).foldl (fun r t => burstUpdate r t (sample t)) q) k =
      (List.range m).foldl
        (fun c j => tdiv (c * 127#32) 128#32 + sample (t0 + (k + 4 - t0 % 4) % 4 + 4 * j)) (quadAt q k) := by
  induction m with
  | zero => rfl
  | succ m ih =>
    rw [show 4 * (m + 1) = 4 * m + 4 by ring, ← List.range'_append_1 (n := 4), List.foldl_append, List.range_succ,
      List.foldl_append, ← ih]
    generalize (List.range' t0 (4 * m)).foldl _ _ = r
    simp only [List.range'_succ, List.range'_zero, List.foldl_cons, List.foldl_nil, burstUpdate, quadAt_quadPut]
    have h0 : t0 % 4 = 0 ∨ t0 % 4 = 1 ∨ t0 % 4 = 2 ∨ t0 % 4 = 3 := by omega
    have hk' : k = 0 ∨ k = 1 ∨ k = 2 ∨ k = 3 := by omega
    have e0 : (t0 + 4 * m) % 4 = t0 % 4 := by omega
    have e1 : (t0 + 4 * m + 1) % 4 = (t0 % 4 + 1) % 4 := by omega
    have e2 : (t0 + 4 * m + 1 + 1) % 4 = (t0 % 4 + 2) % 4 := by omega
    have e3 : (t0 + 4 * m + 1 + 1 + 1) % 4 = (t0 % 4 + 3) % 4 := by omega
    have own : ∀ n, n % 4 = k → quadAt r n = quadAt r k := fun n hn => quadAt_mod r n k (by omega)
    simp only [e0, e1, e2, e3]
    rcases h0 with h | h | h | h <;> rcases hk' with rfl | rfl | rfl | rfl <;>
      simp [h] <;> (rw [own _ (by omega)]) <;> congr 1 <;> congr 1 <;> (try omega)

/-- `pos` for a tracker in range (44_decoder.md R170). -/
theorem demodPos_eq (ln : Nat) (hsync : Word) (h : hsync.toNat < 910) :
    demodPos cfg ln hsync = BitVec.ofNat 32 ((156 + hsync.toNat) % 910 + ln * 910) := by
  have h2 : (ofCount 156 + hsync).toInt = ((156 + hsync.toNat : Nat) : Int) := by
    rw [show ofCount 156 + hsync = ofCount (156 + hsync.toNat) by rw [ofCount, ofCount, BitVec.ofNat_add]; simp]
    exact ofCount_toInt (by omega)
  have h3 := pmod_toInt (ofCount 156 + hsync) (m := 910) (by decide)
  rw [h2] at h3
  have h4 : pmod (ofCount 156 + hsync) 910 = (156 + hsync.toNat) % 910 := by omega
  rw [demodPos, avBeg_cfg, cfg_crtHres, pmodWord, h4, lineStart, cfg_crtHres, ofCount, ← BitVec.ofNat_add]

/-- `e` as the sum of the line's samples (44_decoder.md R172). -/
theorem lineEnergy_eq (inp : Array Sample) {pos : Nat} (h : pos < 2 ^ 30) :
    lineEnergy cfg inp (BitVec.ofNat 32 pos) =
      BitVec.ofInt 32 (intSum 753 (fun i => (ringSample inp (pos + i)).toInt)) := by
  have key : ∀ m, m < 2 ^ 30 →
      (List.range m).foldl (fun e i => e + sigRead cfg inp (BitVec.ofNat 32 pos + ofCount i)) 0#32 =
        BitVec.ofInt 32 (intSum m (fun i => (ringSample inp (pos + i)).toInt)) := by
    intro m
    induction m with
    | zero => intro _; rfl
    | succ m ih =>
      intro hm
      rw [List.range_succ, List.foldl_append, ih (by omega)]
      simp only [List.foldl_cons, List.foldl_nil, intSum, List.range_succ, List.map_append, List.map_cons,
        List.map_nil, List.sum_append, List.sum_cons, List.sum_nil]
      rw [ofCount, ← BitVec.ofNat_add, sigRead_ofNat _ (by omega), BitVec.ofInt_add, add_zero,
        ← sext8_toInt (ringSample inp (pos + m)), BitVec.ofInt_toInt]
      rfl
  exact key 753 (by norm_num)

/-! ## Demodulation -/

/-- One demodulated sample steps the three equalizers and writes its own SCRATCH entry, and no other
(44_decoder.md R173). -/
theorem demodSample_cases (c : Cfg) (inp : Array Sample) (pos bright : Word) (wave : Quad Word) (d : Demod)
    (i : Nat) :
    ∃ y ci cq : Word,
      (demodSample c inp pos bright wave d i).eq =
        ⟨(eqStep d.eq.y y).unit, (eqStep d.eq.i ci).unit, (eqStep d.eq.q cq).unit⟩ ∧
      (demodSample c inp pos bright wave d i).scratch =
        d.scratch.setIfInBounds i ⟨shl (eqStep d.eq.y y).out 4, sar (eqStep d.eq.i ci).out 3,
          sar (eqStep d.eq.q cq).out 3⟩ := ⟨_, _, _, rfl, rfl⟩

/-! ## The loops over XMEM -/

theorem blendPixel_find (xmem : XMem) (addr aa a : Word) :
    XMem.find (blendPixel xmem addr aa) a =
      if a = addr then some (blendWords aa (XMem.read xmem addr)) else XMem.find xmem a := xmem_find_write _ _ _ _

/-- The column loop, while `p` lies left of `scanR` (44_decoder.md R174). -/
theorem resampleRow_go (scratch : Array (PerChannel Word)) (con scanR dx : Word) (n : Nat) (p addr : Word)
    (xmem : XMem) (h : p.slt scanR = true) :
    resampleRow scratch con scanR dx (n + 1) p addr xmem =
      resampleRow scratch con scanR dx n (p + dx) (addr + 1#32)
        (blendPixel xmem addr (packedRgb con (resampleAt scratch p))) := if_pos h

/-- The column loop ends when `p` reaches `scanR`, however much of the row is left (44_decoder.md R174). -/
theorem resampleRow_stop (scratch : Array (PerChannel Word)) (con scanR dx : Word) (n : Nat) (p addr : Word)
    (xmem : XMem) (h : p.slt scanR = false) : resampleRow scratch con scanR dx n p addr xmem = xmem := by
  cases n <;> simp [resampleRow, h]

/-- The column loop keeps the canonical form. -/
theorem resampleRow_wf (scratch : Array (PerChannel Word)) (con scanR dx : Word) (n : Nat) (p addr : Word)
    {xmem : XMem} (h : XMem.wf xmem) : XMem.wf (resampleRow scratch con scanR dx n p addr xmem) := by
  induction n generalizing p addr xmem with
  | zero => exact h
  | succ n ih =>
    simp only [resampleRow]
    split
    · exact ih _ _ (xmem_write_wf h _ _)
    · exact h

/-- A row copy keeps the canonical form. -/
theorem copyWords_wf (n : Nat) (src dst : Word) {xmem : XMem} (h : XMem.wf xmem) :
    XMem.wf (copyWords n src dst xmem) := by
  induction n generalizing src dst xmem with
  | zero => exact h
  | succ n ih => exact ih _ _ (xmem_write_wf h _ _)

/-- A row copy touches no word outside its destination. -/
theorem copyWords_find_other (n : Nat) (src dst a : Word) (xmem : XMem)
    (h : ∀ i, i < n → a ≠ dst + BitVec.ofNat 32 i) :
    XMem.find (copyWords n src dst xmem) a = XMem.find xmem a := by
  induction n generalizing src dst xmem with
  | zero => rfl
  | succ n ih =>
    rw [copyWords, ih _ _ _ fun i hi => ?_, xmem_find_write, if_neg]
    · simpa using h 0 (by omega)
    · have := h (i + 1) (by omega)
      rwa [show BitVec.ofNat 32 (i + 1) = 1#32 + BitVec.ofNat 32 i by rw [Nat.add_comm, BitVec.ofNat_add],
        ← BitVec.add_assoc] at this

/-- A listed word stays listed: the loops over XMEM overwrite words and remove none. -/
theorem xmem_write_listed {m : XMem} {b : Word} (h : XMem.find m b ≠ none) (a v : Word) :
    XMem.find (XMem.write m a v) b ≠ none := by
  rw [xmem_find_write]
  split_ifs
  · simp
  · exact h

theorem resampleRow_listed (scratch : Array (PerChannel Word)) (con scanR dx : Word) (n : Nat) (p addr : Word)
    {xmem : XMem} {b : Word} (h : XMem.find xmem b ≠ none) :
    XMem.find (resampleRow scratch con scanR dx n p addr xmem) b ≠ none := by
  induction n generalizing p addr xmem with
  | zero => exact h
  | succ n ih =>
    simp only [resampleRow]
    split
    · exact ih _ _ (xmem_write_listed h _ _)
    · exact h

theorem copyWords_listed (n : Nat) (src dst : Word) {xmem : XMem} {b : Word} (h : XMem.find xmem b ≠ none) :
    XMem.find (copyWords n src dst xmem) b ≠ none := by
  induction n generalizing src dst xmem with
  | zero => exact h
  | succ n ih => exact ih _ _ (xmem_write_listed h _ _)

theorem verticalFill_listed (e : DecodeEnv) (beg fin : Word) {xmem : XMem} {b : Word}
    (h : XMem.find xmem b ≠ none) : XMem.find (verticalFill e beg fin xmem) b ≠ none := by
  unfold verticalFill
  induction List.range (countOf (fin - beg - 1#32)) generalizing xmem with
  | nil => exact h
  | cons r l ih => exact ih (copyWords_listed _ _ _ h)

theorem decodeLine_listed (c : Cfg) (e : DecodeEnv) (st : LineState) (line : Nat) {b : Word}
    (h : XMem.find st.xmem b ≠ none) : XMem.find (decodeLine c e st line).xmem b ≠ none := by
  unfold decodeLine
  simp only
  split
  · exact h
  · exact verticalFill_listed _ _ _ (resampleRow_listed _ _ _ _ _ _ _ h)

/-- DECODE removes no word from XMEM. -/
theorem decodeField_listed (c : Cfg) (s : State) (b : SignalBuffers) {a : Word} (h : XMem.find s.xmem a ≠ none) :
    XMem.find (decodeField c s b).xmem a ≠ none := by
  have key : ∀ (e : DecodeEnv) (l : List Nat) (st : LineState), XMem.find st.xmem a ≠ none →
      XMem.find (l.foldl (decodeLine c e) st).xmem a ≠ none := by
    intro e l
    induction l with
    | nil => exact fun st h => h
    | cons x l ih => exact fun st h => ih _ (decodeLine_listed c e st x h)
  exact key _ _ _ h

/-- The vertical fill keeps the canonical form. -/
theorem verticalFill_wf (e : DecodeEnv) (beg fin : Word) {xmem : XMem} (h : XMem.wf xmem) :
    XMem.wf (verticalFill e beg fin xmem) := by
  unfold verticalFill
  induction List.range (countOf (fin - beg - 1#32)) generalizing xmem with
  | nil => exact h
  | cons r l ih => exact ih (copyWords_wf _ _ _ h)

/-- One line keeps XMEM canonical. -/
theorem decodeLine_wf (c : Cfg) (e : DecodeEnv) (st : LineState) (line : Nat) (h : XMem.wf st.xmem) :
    XMem.wf (decodeLine c e st line).xmem := by
  unfold decodeLine
  simp only
  split
  · exact h
  · exact verticalFill_wf _ _ _ (resampleRow_wf _ _ _ _ _ _ _ h)

end Sys2Proof.Machine
end

