-- ==== Sys2Proof/Laws/Exec.lean ====
section
/-! SUPPORT. The checks of 60_exceptions.md R221 on integers, and all that each command with a check can do
when it answers a next state. -/

namespace Sys2Proof.Machine

theorem atLeast1_iff (v : Word) : atLeast1 v = true ↔ 1 ≤ v.toInt := by
  simp only [atLeast1, BitVec.slt_iff_toInt_lt]
  simp [Int.lt_iff_add_one_le]

theorem inRange_iff (v : Word) (n : Nat) : inRange v n = true ↔ 0 ≤ v.toInt ∧ v.toInt < n := by
  simp [inRange]

theorem rasterArgsOk_iff (s : State) : rasterArgsOk s = true ↔ 1 ≤ s.args.a0.toInt ∧ 1 ≤ s.args.a1.toInt := by
  simp [rasterArgsOk, atLeast1_iff]

theorem encodeArgsOk_iff (s : State) : encodeArgsOk s = true ↔ 1 ≤ s.args.a1.toInt ∧ 1 ≤ s.args.a2.toInt := by
  simp [encodeArgsOk, atLeast1_iff]

theorem sigArgsOk_iff (s : State) : sigArgsOk cfg s = true ↔
    (0 ≤ s.args.a0.toInt ∧ s.args.a0.toInt < 262) ∧ 0 ≤ s.args.a1.toInt ∧ s.args.a1.toInt < 910 := by
  simp [sigArgsOk, inRange_iff]

/-- The sample index of legal operands. -/
theorem sigArgIndex_eq {s : State} (h : sigArgsOk cfg s = true) :
    sigArgIndex cfg s = s.args.a0.toNat * 910 + s.args.a1.toNat ∧ sigArgIndex cfg s < 238420 := by
  obtain ⟨⟨h0, h1⟩, h2, h3⟩ := (sigArgsOk_iff s).1 h
  have e0 : countOf s.args.a0 = s.args.a0.toNat := by
    rw [BitVec.toInt_eq_toNat_cond] at h0; unfold countOf; rw [BitVec.toInt_eq_toNat_cond]; split_ifs at h0 ⊢ <;> omega
  have e1 : countOf s.args.a1 = s.args.a1.toNat := by
    rw [BitVec.toInt_eq_toNat_cond] at h2; unfold countOf; rw [BitVec.toInt_eq_toNat_cond]; split_ifs at h2 ⊢ <;> omega
  have c0 : (countOf s.args.a0 : Int) < 262 := by rw [countOf_eq]; omega
  have c1 : (countOf s.args.a1 : Int) < 910 := by rw [countOf_eq]; omega
  rw [sigArgIndex, sampleIndex_cfg, ← e0, ← e1]
  omega

theorem execCrtInit_cases {s t : State} (h : execCrtInit s = .next t) :
    (rasterArgsOk s = true ∧ t = initialise cfg s) ∨ (rasterArgsOk s = false ∧ t = raise .arg s) := by
  unfold execCrtInit refuseWith at h
  split at h <;> cases h <;> simp_all

theorem execCrtResize_cases {s t : State} (h : execCrtResize s = .next t) :
    (rasterArgsOk s = true ∧ t = setRaster s) ∨ (rasterArgsOk s = false ∧ t = raise .arg s) := by
  unfold execCrtResize refuseWith at h
  split at h <;> cases h <;> simp_all

theorem execEncode_cases {s t : State} (h : execEncode s = .next t) :
    (s.signal = none ∧ t = raise .seq s) ∨
    ∃ b, s.signal = some b ∧
      ((encodeArgsOk s = false ∧ t = raise .arg s) ∨
       (encodeArgsOk s = true ∧ t = { s with
          iir := (encodeField cfg s b).iir
          signal := some { b with analog := memoryOf (encodeField cfg s b).analog }
          oobCount := (encodeField cfg s b).oobCount })) := by
  unfold execEncode refuseWith at h
  split at h
  · cases h; exact .inl ⟨by assumption, rfl⟩
  · rename_i b hb
    refine .inr ⟨b, hb, ?_⟩
    split at h <;> cases h
    · exact .inr ⟨by assumption, rfl⟩
    · exact .inl ⟨Bool.eq_false_of_not_eq_true (by assumption), rfl⟩

theorem execDecode_cases {s t : State} (h : execDecode s = .next t) :
    (s.signal = none ∧ t = raise .seq s) ∨ ∃ b, s.signal = some b ∧ t = decodeField cfg s b := by
  unfold execDecode refuseWith at h
  split at h <;> cases h
  · exact .inl ⟨by assumption, rfl⟩
  · exact .inr ⟨_, by assumption, rfl⟩

theorem execRdsig_cases {buf : SigBuf} {s t : State} (h : execRdsig buf s = .next t) :
    (s.signal = none ∧ t = raise .seq s) ∨
    ∃ b, s.signal = some b ∧
      ((sigArgsOk cfg s = false ∧ t = raise .arg s) ∨
       (sigArgsOk cfg s = true ∧
        t = { s with res0 := sext8 (Memory.read (bufferOf buf b) (sigArgIndex cfg s)) })) := by
  unfold execRdsig refuseWith at h
  split at h
  · cases h; exact .inl ⟨by assumption, rfl⟩
  · rename_i b hb
    refine .inr ⟨b, hb, ?_⟩
    split at h <;> cases h
    · exact .inr ⟨by assumption, rfl⟩
    · exact .inl ⟨Bool.eq_false_of_not_eq_true (by assumption), rfl⟩

theorem execWrsig_cases {buf : SigBuf} {s t : State} (h : execWrsig buf s = .next t) :
    (buf = .inp ∧ t = raise .ill s) ∨
    (buf = .analog ∧ s.signal = none ∧ t = raise .seq s) ∨
    ∃ b, buf = .analog ∧ s.signal = some b ∧
      ((sigArgsOk cfg s = false ∧ t = raise .arg s) ∨
       (sigArgsOk cfg s = true ∧ t = { s with
          signal := some { b with
            analog := Memory.write b.analog (sigArgIndex cfg s) (low8 s.args.a2) } })) := by
  unfold execWrsig refuseWith at h
  split at h
  · cases h; exact .inl ⟨rfl, rfl⟩
  · rename_i hb; cases h; exact .inr (.inl ⟨rfl, hb, rfl⟩)
  · rename_i b hb
    refine .inr (.inr ⟨b, rfl, hb, ?_⟩)
    split at h <;> cases h
    · exact .inr ⟨by assumption, rfl⟩
    · exact .inl ⟨Bool.eq_false_of_not_eq_true (by assumption), rfl⟩

end Sys2Proof.Machine
end

