-- ==== Sys2Proof/Laws/PerInstr.lean ====
section
/-! SUPPORT. Statements made of every command as syntax, one lemma per constructor. -/

/-- The word of a command has its `opcode` and `sel` in the fields of 30_encoding.md R71, and its `zero` field
is 0. -/
def Sys2Proof.Laws.EncodedFields.Statement (i : Sys2Proof.Instr) : Prop :=
  Sys2Proof.opcodeField (Sys2Proof.encode i) = Sys2Proof.opcodeOf i ∧
  Sys2Proof.selField (Sys2Proof.encode i) = Sys2Proof.selOf i ∧
  Sys2Proof.zeroField (Sys2Proof.encode i) = 0#20

namespace Sys2Proof.Laws.EncodedFields

theorem nop : Statement .nop := ⟨by decide, by decide, by decide⟩

theorem sincos14 : Statement .sincos14 := ⟨by decide, by decide, by decide⟩

theorem expx : Statement .expx := ⟨by decide, by decide, by decide⟩

theorem iirInit (k : Channel) : Statement (.iirInit k) := by
  cases k <;> exact ⟨by decide, by decide, by decide⟩

theorem iirReset (k : Channel) : Statement (.iirReset k) := by
  cases k <;> exact ⟨by decide, by decide, by decide⟩

theorem iirStep (k : Channel) : Statement (.iirStep k) := by
  cases k <;> exact ⟨by decide, by decide, by decide⟩

theorem eqInit (k : Channel) : Statement (.eqInit k) := by
  cases k <;> exact ⟨by decide, by decide, by decide⟩

theorem eqReset (k : Channel) : Statement (.eqReset k) := by
  cases k <;> exact ⟨by decide, by decide, by decide⟩

theorem eqStep (k : Channel) : Statement (.eqStep k) := by
  cases k <;> exact ⟨by decide, by decide, by decide⟩

theorem crtInit : Statement .crtInit := ⟨by decide, by decide, by decide⟩

theorem crtResize : Statement .crtResize := ⟨by decide, by decide, by decide⟩

theorem crtReset : Statement .crtReset := ⟨by decide, by decide, by decide⟩

theorem encode : Statement .encode := ⟨by decide, by decide, by decide⟩

theorem decode : Statement .decode := ⟨by decide, by decide, by decide⟩

theorem rdsig (buf : SigBuf) : Statement (.rdsig buf) := by
  cases buf <;> exact ⟨by decide, by decide, by decide⟩

theorem wrsig (buf : SigBuf) : Statement (.wrsig buf) := by
  cases buf <;> exact ⟨by decide, by decide, by decide⟩

end Sys2Proof.Laws.EncodedFields
end

