-- ==== Sys2Proof/Tests/Slice0.lean ====
section
/-! SUPPORT. Small tests: expected values come from spec/95_test_vectors.md and the worked examples of the
rules, and one witness for each statement that has hypotheses. -/

open Sys2Proof Sys2Proof.Machine

namespace Sys2Proof.Tests

/- One theorem after another: checked at the same time, these need too many threads. -/
set_option Elab.async false

/-! ## Helpers -/

/-- The reset state with the given operands. -/
def withArgs (a : Args) : State := { State.reset with args := a }

/-- The state after CRT_INIT with a 4 × 3 raster at word 0x1000, with the given operands. -/
def ready (a : Args) : State :=
  { initialise cfg (withArgs ⟨4#32, 3#32, 0x1000#32, 0#32, 0#32, 0#32⟩) with args := a }

/-- The reset state with host operations to come. -/
def hosted (ops : List HostOp) : State := { State.reset with hostOps := ops }

/-- A field of the next state, if there is one. -/
def after {α : Type} (f : State → α) : Host.Outcome State Fault Refusal → Option α
  | .next s => some (f s)
  | _ => none

/-- No operands. -/
def noArgs : Args := ⟨0#32, 0#32, 0#32, 0#32, 0#32, 0#32⟩

/-! ## WellFormed: the ill-formed term is refused -/

theorem test_wellFormed_refuses_wrsig_inp : (Instr.wrsig .inp).wellFormed = false := by decide
theorem test_wellFormed_accepts_wrsig_analog : (Instr.wrsig .analog).wellFormed = true := by decide

/-! ## Decoding: every constructor's word, written out from 30_encoding.md R71, R73, R74 -/

theorem test_decode_nop : decode 0x00000000#32 = .ok .nop := by decide
theorem test_decode_sincos14 : decode 0x00000001#32 = .ok .sincos14 := by decide
theorem test_decode_expx : decode 0x00000002#32 = .ok .expx := by decide
theorem test_decode_iirInit : decode 0x00000010#32 = .ok (.iirInit .y) := by decide
theorem test_decode_iirReset : decode 0x00000111#32 = .ok (.iirReset .i) := by decide
theorem test_decode_iirStep : decode 0x00000212#32 = .ok (.iirStep .q) := by decide
theorem test_decode_eqInit : decode 0x00000218#32 = .ok (.eqInit .q) := by decide
theorem test_decode_eqReset : decode 0x00000019#32 = .ok (.eqReset .y) := by decide
theorem test_decode_eqStep : decode 0x0000011A#32 = .ok (.eqStep .i) := by decide
theorem test_decode_crtInit : decode 0x00000020#32 = .ok .crtInit := by decide
theorem test_decode_crtResize : decode 0x00000021#32 = .ok .crtResize := by decide
theorem test_decode_crtReset : decode 0x00000022#32 = .ok .crtReset := by decide
theorem test_decode_encode : decode 0x00000030#32 = .ok .encode := by decide
theorem test_decode_decode : decode 0x00000031#32 = .ok .decode := by decide
theorem test_decode_rdsig : decode 0x00000140#32 = .ok (.rdsig .inp) := by decide
theorem test_decode_wrsig : decode 0x00000041#32 = .ok (.wrsig .analog) := by decide

/-- The illegal words of 95_test_vectors.md B8, each with its cause. -/
theorem test_decode_illegal :
    decode 0x00000100#32 = .error .selNotAllowed ∧ decode 0x00000003#32 = .error .unknownOpcode ∧
    decode 0x000000FF#32 = .error .unknownOpcode ∧ decode 0x00001001#32 = .error .zeroField ∧
    decode 0x80000001#32 = .error .zeroField ∧ decode 0x00000312#32 = .error .selNotAllowed ∧
    decode 0x00000F1A#32 = .error .selNotAllowed ∧ decode 0x00000240#32 = .error .selNotAllowed ∧
    decode 0x00000141#32 = .error .selNotAllowed := by decide

/-- The same words by the tables as Safety.lean writes them. -/
theorem test_legalWord :
    ([0x100, 0x3, 0xFF, 0x1001, 0x80000001, 0x312, 0xF1A, 0x240, 0x141] : List Word).all
      (fun w => !legalWord w) = true ∧
    ([0x0, 0x212, 0x140, 0x31, 0x41, 0x218] : List Word).all legalWord = true := by decide

theorem test_decodeTableWord : decodeTableWord 32 0x0000011A = some (.eqStep .i) := by decide

/-- The first step after reset runs the placed word: `NOP` leaves `CMD = 0`, an illegal word sets `ERR_ILL`. -/
theorem test_withFetchWord :
    after State.flags (step (State.reset.withFetchWord 32 0x100)) = some ⟨false, true, false, false, false, false⟩ ∧
    after State.cmd (step (State.reset.withFetchWord 32 0x100)) = some 0x100#32 := by decide +kernel

/-! ## FixedMath: 95_test_vectors.md B1 and B2 -/

theorem test_sincos14_855 :
    after (fun s => (s.res0, s.res1)) (exec .sincos14 (withArgs { noArgs with a0 := 855#32 })) =
      some (10539#32, 30984#32) := by decide +kernel
theorem test_sincos14_6000 :
    after (fun s => (s.res0, s.res1)) (exec .sincos14 (withArgs { noArgs with a0 := 6000#32 })) =
      some (24383#32, -21827#32) := by decide +kernel
theorem test_expx_negative :
    after State.res0 (exec .expx (withArgs { noArgs with a0 := -1887#32 })) = some 815#32 := by decide +kernel
theorem test_expx_wraps :
    after State.res0 (exec .expx (withArgs { noArgs with a0 := 12778#32 })) = some (-1048224#32) := by
  decide +kernel

/-! ## IIR: 95_test_vectors.md B3 -/

theorem test_iirInit :
    after (fun s => (s.iir.i, s.flags.divz)) (exec (.iirInit .i)
      (withArgs { noArgs with a0 := 1431818#32, a1 := 150000#32 })) = some (⟨574#32, 0#32⟩, false) := by
  decide +kernel
theorem test_iirInit_divz :
    after (fun s => (s.iir.y.c, s.flags.divz)) (exec (.iirInit .y)
      (withArgs { noArgs with a0 := 1431818#32 })) = some (0#32, true) := by decide +kernel
theorem test_iirReset :
    after State.iir (exec (.iirReset .y)
      { State.reset with iir := ⟨⟨1#32, 2#32⟩, ⟨3#32, 4#32⟩, ⟨5#32, 6#32⟩⟩ }) =
      some ⟨⟨1#32, 0#32⟩, ⟨3#32, 4#32⟩, ⟨5#32, 6#32⟩⟩ := by decide +kernel
theorem test_iirStep_second :
    after (fun s => (s.res0, s.iir.y.h)) (exec (.iirStep .y)
      { withArgs { noArgs with a0 := 1020#32 } with iir := ⟨⟨1233#32, 614#32⟩, zeroIir, zeroIir⟩ }) =
      some (858#32, 858#32) := by decide +kernel
theorem test_iirStep_floors :
    after State.res0 (exec (.iirStep .q)
      { withArgs { noArgs with a0 := -10#32 } with iir := ⟨zeroIir, zeroIir, ⟨232#32, -9#32⟩⟩ }) =
      some (-10#32) := by decide +kernel

/-! ## EQ: 95_test_vectors.md B4 -/

theorem test_eqInit :
    after (fun s => (s.eq.q.lf, s.eq.q.hf, s.eq.q.g2, s.flags.divz)) (exec (.eqInit .q)
      (withArgs ⟨5#32, 63#32, 910#32, 65536#32, 65536#32, 0#32⟩)) = some (2252#32, 28248#32, 0#32, false) := by
  decide +kernel
theorem test_eqInit_divz :
    after (fun s => (s.eq.y.lf, s.eq.y.hf, s.flags.divz)) (exec (.eqInit .y)
      (withArgs ⟨5#32, 63#32, 0#32, 65536#32, 65536#32, 0#32⟩)) = some (0#32, 0#32, true) := by decide +kernel
theorem test_eqReset :
    after State.eq (exec (.eqReset .i)
      { State.reset with
        eq := ⟨zeroEq, { zeroEq with lf := 7#32, g1 := 8#32, fL := ⟨1#32, 2#32, 3#32, 4#32⟩, h1 := 9#32 }, zeroEq⟩ }) =
      some ⟨zeroEq, { zeroEq with lf := 7#32, g1 := 8#32 }, zeroEq⟩ := by decide +kernel
/-- "First `EQ_STEP.Y 100` in full". -/
theorem test_eqStep_first :
    after (fun s => (s.res0, s.eq.y.fL, s.eq.y.fH, s.eq.y.h0)) (exec (.eqStep .y)
      { withArgs { noArgs with a0 := 100#32 } with
        eq := ⟨{ zeroEq with lf := 42156#32, hf := 79824#32, g0 := 65536#32, g1 := 8192#32, g2 := 9175#32 },
          zeroEq, zeroEq⟩ }) =
      some (11#32, ⟨64#32, 41#32, 26#32, 17#32⟩, ⟨122#32, 149#32, 181#32, 220#32⟩, 100#32) := by
  decide +kernel

/-! ## Control: 95_test_vectors.md B7 and B8 -/

theorem test_crtInit :
    after (fun s => (s.iir.q.c, s.eq.y.hf, statusWord s, s.outBase))
      (exec .crtInit (withArgs ⟨320#32, 240#32, 0x1000#32, 0#32, 0#32, 0#32⟩)) =
      some (232#32, 79824#32, 2#32, 0x1000#32) := by decide +kernel
theorem test_crtInit_refused :
    after statusWord (exec .crtInit (withArgs ⟨0#32, 240#32, 0#32, 0#32, 0#32, 0#32⟩)) = some 0x10#32 := by
  decide +kernel
theorem test_crtResize :
    after (fun s => (s.outw, s.outh, s.outBase))
      (exec .crtResize (withArgs ⟨640#32, 480#32, 0x40000#32, 0#32, 0#32, 0#32⟩)) =
      some (640#32, 480#32, 0x40000#32) := by decide +kernel
theorem test_crtResize_refused :
    after statusWord (exec .crtResize (withArgs ⟨1#32, -3#32, 0#32, 0#32, 0#32, 0#32⟩)) = some 0x10#32 := by
  decide +kernel
theorem test_crtReset :
    after (fun s => (s.tuning.saturation, s.vsync, s.rn))
      (exec .crtReset { State.reset with vsync := 38#32, tuning := ⟨40#32, 1#32, 2#32, 3#32, 4#32⟩ }) =
      some (18#32, 0#32, 194#32) := by decide +kernel
/-- `WRSIG 0, 0, 200` then `RDSIG.ANALOG 0, 0` shows −56. -/
theorem test_rdsig_sign_extends :
    after State.res0 (exec (.rdsig .analog)
      { State.reset with signal := some { zeroBuffers with analog := [(0, 200#8)] } }) =
      some 0xFFFFFFC8#32 := by decide +kernel
theorem test_rdsig_refused :
    after statusWord (exec (.rdsig .inp) { State.reset with
      signal := some zeroBuffers, args := { noArgs with a0 := 261#32, a1 := 910#32 } }) = some 0x12#32 := by
  decide +kernel
/-- `ARG2 = 999` stores `0xE7`; sample 238419 is the last. -/
theorem test_wrsig_keeps_low_byte :
    after State.signal (exec (.wrsig .analog) { State.reset with
      signal := some zeroBuffers, args := { noArgs with a0 := 261#32, a1 := 909#32, a2 := 999#32 } }) =
      some (some { zeroBuffers with analog := [(238419, 0xE7#8)] }) := by decide +kernel
theorem test_wrsig_refused :
    after statusWord (exec (.wrsig .analog) State.reset) = some 0x08#32 := by decide +kernel

/-! ## ENCODE: the worked examples of 43_encoder.md -/

theorem test_encode_refused :
    after statusWord (exec .encode State.reset) = some 0x08#32 ∧
    after statusWord (exec .encode { State.reset with signal := some zeroBuffers }) = some 0x12#32 := by
  decide +kernel
/-- Two white pixels and two red ones (95_test_vectors.md A5). -/
theorem test_matrix :
    rgb2yiqSum 0x00FFFFFF#32 0x00FFFFFF#32 = ⟨1020#32, -2#32, 0#32⟩ ∧
    rgb2yiqSum 0x00FF0000#32 0xABFF0000#32 = ⟨304#32, 607#32, 216#32⟩ := by decide +kernel
/-- Line 29, columns 216 and 217 of a white source (43_encoder.md R140). -/
theorem test_composite :
    composite defaultTuning true ⟨614#32, -1#32, 0#32⟩ (-1#32) 0 = 66#32 ∧
    composite defaultTuning true ⟨858#32, -2#32, 0#32⟩ (-1#32) 1 = 90#32 := by decide +kernel
theorem test_lineClass :
    (List.range 12).map lineClass = [.equalizing, .equalizing, .equalizing, .equalizing, .vsync, .vsync, .vsync,
      .equalizing, .equalizing, .equalizing, .normal, .normal] := by decide

/-! ## DECODE: the worked examples of 44_decoder.md -/

theorem test_decode_refused :
    after statusWord (exec .decode State.reset) = some 0x08#32 := by decide +kernel
/-- 95_test_vectors.md A3: the generator from 194, and the byte it gives. -/
theorem test_noise :
    lcgNext 194#32 = 181847581#32 ∧ noiseByte 181847581#32 = 214#32 ∧ lcgNext 181847581#32 = -2015870418#32 ∧
    noisySample 0#32 181847581#32 0x80#8 = -127#8 := by decide +kernel
/-- 95_test_vectors.md A4, and the first steps of B6's blend series. -/
theorem test_blend :
    blendWords 0xFFFFFF#32 0#32 = 0x7F7F7F#32 ∧ blendWords 0xFFFFFF#32 0x7F7F7F#32 = 0xBEBEBE#32 ∧
    blendWords 0x010101#32 0x010101#32 = 0#32 := by decide +kernel
/-- B6's "No lock": `prev_e` 2480 on line 21, where `e = 0`. -/
theorem test_bloom : bloomEnergy (maxEnergy cfg 0#32) 2048#32 0#32 = 2480#32 := by decide +kernel
/-- B6: a pixel interpolated from SCRATCH at `p = 1574880`, and its colour before the blend. -/
theorem test_resample :
    lerp 2 1584#32 1584#32 2079#32 2016#32 = 1621620#32 ∧
    packedRgb 179#32 ⟨1621620#32, 0#32, -9#32⟩ = 0xFFFFFF#32 := by decide +kernel
theorem test_crossAt : crossAt (-160#32) (fun _ => -40#32) 16 0 0#32 = some 3 := by decide +kernel

/-! ## The bus and reset -/

/-- `WR VSYNC, 300` stores 38; `WR HSYNC, −1` stores 909; `WR OUTW, 5` is ignored (B7). -/
theorem test_bus_writes :
    after State.vsync (step (hosted [.busWrite 0x048#32 4 300#32])) = some 38#32 ∧
    after State.hsync (step (hosted [.busWrite 0x044#32 4 (-1#32)])) = some 909#32 ∧
    after State.outw (step (hosted [.busWrite 0x04C#32 4 5#32])) = some 0#32 := by decide +kernel
/-- The register map's last word of each equalizer is `h[2]`, its third `g[0]` (10_state.md R36). -/
theorem test_regMap :
    regAt 0x000#32 = some .cmd ∧ regAt 0x06C#32 = some (.ccref 3) ∧ regAt 0x094#32 = some (.iirH .q) ∧
    regAt 0x108#32 = some (.eqReg .y 2) ∧ regAt 0x17C#32 = some (.eqReg .i 15) ∧ regAt 0x1C0#32 = none ∧
    regAt 0x028#32 = none := by decide +kernel
/-- `WR STATUS, 0x7C` clears the error bits, `WR STATUS, 0x03` nothing (B8). -/
theorem test_status_write :
    clearFlags 0x7C#32 ⟨false, true, true, true, true, true⟩ = ⟨false, false, false, false, false, false⟩ ∧
    clearFlags 0x03#32 ⟨true, true, true, true, true, true⟩ = ⟨true, true, true, true, true, true⟩ := by
  decide +kernel
/-- R57: with `little`, the blue byte lies lowest. -/
theorem test_byteAt :
    XMem.byteAt .little [(1, 0x00112233#32)] 4 = 0x33#8 ∧ XMem.byteAt .big [(1, 0x00112233#32)] 4 = 0x00#8 := by
  decide +kernel
theorem test_reset_memory : XMem.wf State.reset.xmem ∧ State.reset.signal = none := by decide +kernel

/-! ## Witnesses: for each statement with hypotheses, a state and operands that meet them together -/

/-- The state CRT_INIT leaves. -/
theorem ready_signal (a : Args) : (ready a).signal = some zeroBuffers := rfl

theorem zeroBuffers_wf : Memory.wf zeroBuffers.analog := by decide +kernel

/-- CRT_INIT's state meets the invariant. -/
theorem witness_stateInv : stateInv cfg (ready noArgs) := by
  refine ⟨rfl, ⟨by decide +kernel, by decide +kernel⟩, ⟨by decide +kernel, by decide +kernel⟩, ?_⟩
  rintro b ⟨⟩
  exact ⟨⟨by decide +kernel, by decide +kernel, by decide +kernel, by decide +kernel, by decide +kernel,
    by decide +kernel, by decide +kernel⟩, by decide +kernel, by decide +kernel⟩

theorem witness_DecodeAndEncodeAgree :
    decode 0x212#32 = .ok (.iirStep .q) ∧ (Instr.iirStep .q).wellFormed = true ∧
    encode (.iirStep .q) = 0x212#32 := by decide

/-- The host writes a word to an idle `CMD`: `sel = 3` of IIR_STEP is illegal. -/
theorem witness_IllegalWordOnlySetsErrIll : ∃ (s : State) (w : Word) (rest : List HostOp),
    s.hostOps = .busWrite 0#32 4 w :: rest ∧ s.flags.busy = false ∧ legalWord w = false :=
  ⟨hosted [.busWrite 0#32 4 0x312#32], 0x312#32, [], rfl, rfl, by decide⟩

theorem witness_StepRunsTheDecodedCommand : ∃ (s : State) (w : Word) (i : Instr) (rest : List HostOp),
    s.hostOps = .busWrite 0#32 4 w :: rest ∧ s.flags.busy = false ∧ decode w = .ok i :=
  ⟨hosted [.busWrite 0#32 4 0x212#32, .hwReset], 0x212#32, .iirStep .q, [.hwReset], rfl, rfl, by decide⟩

/-- One witness a clause: an illegal word, DECODE before CRT_INIT, RDSIG at line 262 and at line 261. -/
theorem witness_CommandChecksRunInOrder :
    legalWord 0x80000001#32 = false ∧
    (decode 0x31#32 = .ok .decode ∧ needsInit .decode = true ∧
      (hosted [.busWrite 0#32 4 0x31#32]).signal = none) ∧
    (decode 0x40#32 = .ok (.rdsig .analog) ∧ (ready { noArgs with a0 := 262#32 }).signal ≠ none ∧
      ¬ operandsLegal (ready { noArgs with a0 := 262#32 }).args (.rdsig .analog)) ∧
    ((ready { noArgs with a0 := 261#32, a1 := 909#32 }).signal ≠ none ∧
      operandsLegal (ready { noArgs with a0 := 261#32, a1 := 909#32 }).args (.rdsig .analog)) := by
  refine ⟨by decide, ⟨by decide, rfl, rfl⟩, ⟨by decide, by simp [ready_signal], ?_⟩, by simp [ready_signal], ?_⟩
  · intro h; exact absurd h.1.2 (by decide)
  · exact ⟨⟨by decide, by decide⟩, by decide, by decide⟩

theorem witness_ExpxReferenceValues :
    ((-12777 : Int), (4 : Int)) ∈ [((100 : Int), (2150 : Int)), (-12777, 4)] ∧
    (withArgs { noArgs with a0 := -12777#32 }).args.a0 = BitVec.ofInt 32 (-12777) := by decide

/-- The clauses of ExpxCompletesAndReciprocates at 0, at 0 again, and at −1 and −2^31. -/
theorem witness_ExpxCompletesAndReciprocates :
    noArgs.a0 = 0#32 ∧ 0 ≤ noArgs.a0.toInt ∧ (-1#32 : Word).toInt < 0 ∧ (0x80000000#32 : Word).toInt < 0 := by
  decide

/-- The clause at a positive operand, 1887: the worked example of 40_fixedmath.md R95 has `acc = 5143`. -/
theorem witness_ExpxCompletesAndReciprocates_positive : ∃ term : Nat → Nat,
    0 < (1887#32 : Word).toInt ∧ term 0 = 2048 ∧
    (∀ i, term (i + 1) = term i * ((1887#32 : Word).toNat % 2048) / 2048) ∧
    term 0 + term 1 + term 2 / 2 + term 3 / 6 + term 4 / 24 + term 5 / 120 + term 6 / 720 = 5143 :=
  ⟨fun i => (fun x => x * ((1887#32 : Word).toNat % 2048) / 2048)^[i] 2048, by decide, rfl,
    fun i => Function.iterate_succ_apply' _ _ _, by decide +kernel⟩

theorem witness_IirInitBuildsTheCoefficient :
    ∃ (s : State) (rate : Word), rate = BitVec.sdiv (s.args.a0 <<< 9) s.args.a1 ∧ rate = 1745#32 :=
  ⟨withArgs { noArgs with a0 := 1431818#32, a1 := 420000#32 }, _, rfl, by decide +kernel⟩

theorem witness_IirStepFiltersOneSample :
    ∃ (s : State) (c h h' : Word), channelGet s.iir .y = { c := c, h := h } ∧
      h' = h + ((s.args.a0 - h) * c).sshiftRight 11 ∧ h' = 614#32 :=
  ⟨{ withArgs { noArgs with a0 := 1020#32 } with iir := ⟨⟨1233#32, 0#32⟩, zeroIir, zeroIir⟩ }, 1233#32, 0#32, _,
    rfl, rfl, by decide +kernel⟩

/-- Both clauses, at the ends of `c` and of the distance. -/
theorem witness_IirStepStaysBetweenStateAndInput :
    ∃ (u : IirUnit) (x x' : Word), (0 ≤ u.c.toInt ∧ u.c.toInt ≤ 2048) ∧
      (|x.toInt - u.h.toInt| < 2 ^ 20 ∧ u.h.toInt ≤ x.toInt) ∧
      |x'.toInt - u.h.toInt| < 2 ^ 20 ∧ x'.toInt ≤ u.h.toInt :=
  ⟨⟨2048#32, 0#32⟩, 1048575#32, -1048575#32, by decide +kernel⟩

theorem witness_EqStepFiltersOneSample :
    ∃ (s : State) (u : EqUnit) (x l0 : Word), channelGet s.eq .y = u ∧ x = s.args.a0 ∧
      l0 = u.fL.s0 + (u.lf * (x - u.fL.s0) + 32768#32).sshiftRight 16 ∧ l0 = 64#32 :=
  ⟨{ withArgs { noArgs with a0 := 100#32 } with eq := ⟨{ zeroEq with lf := 42156#32 }, zeroEq, zeroEq⟩ },
    _, _, _, rfl, rfl, rfl, by decide +kernel⟩

/-- 95_test_vectors.md B4's last row: unstable coefficients, gains 65536. -/
theorem witness_EqUnityGainsGiveTheDelayedInput :
    ∃ (u : EqUnit) (x : Word), (u.g0 = 65536#32 ∧ u.g1 = 65536#32 ∧ u.g2 = 65536#32) ∧
      (-32768 ≤ (eqStep u x).unit.fL.s3.toInt ∧ (eqStep u x).unit.fL.s3.toInt < 32768) ∧
      (-32768 ≤ ((eqStep u x).unit.fH.s3 - (eqStep u x).unit.fL.s3).toInt ∧
        ((eqStep u x).unit.fH.s3 - (eqStep u x).unit.fL.s3).toInt < 32768) ∧
      -32768 ≤ (u.h2 - (eqStep u x).unit.fH.s3).toInt ∧ (u.h2 - (eqStep u x).unit.fH.s3).toInt < 32768 :=
  ⟨{ zeroEq with lf := 131072#32, hf := 131072#32, g0 := 65536#32, g1 := 65536#32, g2 := 65536#32, h2 := 7#32 },
    100#32, by decide +kernel⟩

/-- The raster operands at and just below 1, for CRT_INIT and CRT_RESIZE. -/
theorem witness_CrtInit_CrtResize :
    (1 ≤ (1#32 : Word).toInt ∧ 1 ≤ (0x7FFFFFFF#32 : Word).toInt) ∧ (0#32 : Word).toInt < 1 ∧
    (0x80000000#32 : Word).toInt < 1 := by decide

/-- RDSIG and WRSIG: no memories; the last sample; one line too far; a negative column. -/
theorem witness_Rdsig_Wrsig :
    State.reset.signal = none ∧ (ready noArgs).signal = some zeroBuffers ∧
    ((0 ≤ (261#32 : Word).toInt ∧ (261#32 : Word).toInt < 262) ∧ 0 ≤ (909#32 : Word).toInt ∧
      (909#32 : Word).toInt < 910) ∧ 262 ≤ (262#32 : Word).toInt ∧ (-1#32 : Word).toInt < 0 ∧
    910 ≤ (910#32 : Word).toInt := ⟨rfl, rfl, by decide⟩

theorem witness_RefusedCommandsSetOneFlag :
    State.reset.signal = none ∧ (ready noArgs).signal ≠ none ∧ (ready noArgs).args.a1.toInt < 1 ∧
    (ready { noArgs with a1 := 1#32, a2 := -1#32 }).args.a2.toInt < 1 := ⟨rfl, by simp [ready_signal], by decide⟩

/-- The operands of ENCODE with a `w × h` source at word 0, `field` and colour. -/
def sourceArgs (w h field color : Word) : Args := ⟨0#32, w, h, field, color, 0#32⟩

/-- ENCODE on checked operands answers a next state. -/
theorem encode_next_of {s : State} {b : SignalBuffers} (hb : s.signal = some b) (ok : encodeArgsOk s = true) :
    ∃ t b', exec .encode s = .next t ∧ t.signal = some b' :=
  ⟨_, _, by simp only [exec, execEncode, hb, ok, if_true]; rfl, rfl⟩

theorem encode_next (w h field color : Word) (ok : encodeArgsOk (ready (sourceArgs w h field color)) = true) :
    ∃ t b', exec .encode (ready (sourceArgs w h field color)) = .next t ∧ t.signal = some b' :=
  encode_next_of (ready_signal _) ok

theorem witness_EncodeWritesTheField : ∃ (s : State) (b : SignalBuffers), s.signal = some b ∧ Memory.wf b.analog ∧
    1 ≤ s.args.a1.toInt ∧ 1 ≤ s.args.a2.toInt :=
  ⟨ready (sourceArgs 1#32 1#32 1#32 1#32), zeroBuffers, rfl, zeroBuffers_wf, by decide⟩

/-- The clauses of EncodeWritesTheField: a burst sample, the corners of the picture, a sample nobody writes. -/
theorem witness_EncodeWritesTheField_clauses :
    syncLevelAt true true 10 97 = some 20 ∧ syncLevelAt true true 261 155 = some 0 ∧
    (inPicture 29 216 ∧ inPicture 260 852) ∧
    (syncLevelAt true true 21 156 = none ∧ ¬ inPicture 21 156) ∧
    syncLevelAt true true 261 909 = none ∧ ¬ inPicture 261 909 := by decide

/-- Row 231 of a source of height 117 is inside; row 231 of a source of height 116 is row `h`. -/
theorem witness_EncodePictureRow :
    (∃ t b', exec .encode (ready (sourceArgs 1#32 117#32 0#32 1#32)) = .next t ∧ t.signal = some b') ∧
    (rowBeforeClampB (sourceArgs 1#32 117#32 0#32 1#32) 231).toInt < (117#32 : Word).toInt ∧
    ¬ (rowBeforeClampB (sourceArgs 1#32 116#32 0#32 1#32) 231).toInt < (116#32 : Word).toInt :=
  ⟨encode_next _ _ _ _ (by decide +kernel), by decide +kernel, by decide +kernel⟩

/-- The operands of a 4 × 1 source at word 0. -/
def lineArgs : Args := sourceArgs 4#32 1#32 0#32 1#32

/-- The 4 × 1 source's row `h`, words 4 to 7, as a host supplies it. -/
def paddingRow : XMem := [(4, 0x111111#32), (5, 0x222222#32), (6, 0x333333#32), (7, 0xFF444444#32)]

/-- Where ENCODE asks for a word of row `h` of that source. -/
theorem lineArgs_rowH (x : Nat) (hx : x < 637) :
    4 ≤ (sourceAddr lineArgs x lineArgs.a2).toNat ∧ (sourceAddr lineArgs x lineArgs.a2).toNat < 8 :=
  (by decide +kernel : ∀ x, x < 637 → 4 ≤ (sourceAddr lineArgs x lineArgs.a2).toNat ∧
    (sourceAddr lineArgs x lineArgs.a2).toNat < 8) x hx

theorem paddingRow_written (x : Nat) (hx : x < 637) :
    XMem.find paddingRow (sourceAddr lineArgs x lineArgs.a2) ≠ none := by
  have h := lineArgs_rowH x hx
  generalize sourceAddr lineArgs x lineArgs.a2 = a at h
  have : a.toNat = 4 ∨ a.toNat = 5 ∨ a.toNat = 6 ∨ a.toNat = 7 := by omega
  rcases this with e | e | e | e <;> simp [XMem.find, paddingRow, sparseFind, e]

/-- A word of row `h` (70_reset_and_hazards.md R243 step 5): the host's where it has written it, and then no free value
is drawn; a fresh free value where it has not. -/
theorem test_readSource_rowH :
    readSource ⟨0#32, 4#32, 1#32, 0#32, true⟩ paddingRow 9 1#32 1#32 = { pixel := 0x222222#32, oobCount := 9 } ∧
    readSource ⟨0#32, 4#32, 1#32, 0#32, true⟩ [] 9 1#32 1#32 = { pixel := Config.oobSrc 9, oobCount := 10 } :=
  ⟨by decide +kernel, rfl⟩

/-- The clause of EncodePictureRow on a written word: output row 231 asks for row `h`, and the word is there. -/
theorem witness_EncodePictureRow_rowH :
    (∃ t b', exec .encode { ready lineArgs with xmem := paddingRow } = .next t ∧ t.signal = some b') ∧
    lineArgs.a2.toInt ≤ (rowBeforeClampB lineArgs 231).toInt ∧
    XMem.find paddingRow (sourceAddr lineArgs 636 lineArgs.a2) = some 0xFF444444#32 :=
  ⟨encode_next_of (s := { ready lineArgs with xmem := paddingRow }) (b := zeroBuffers) rfl (by decide +kernel),
    by decide +kernel, by decide +kernel⟩

/-- With row `h` unwritten, at heights on both sides; with row `h` written. -/
theorem witness_EncodeReadsRowHExactlyForTheseHeights :
    (∃ t b', exec .encode (ready (sourceArgs 1#32 116#32 0#32 1#32)) = .next t ∧ t.signal = some b') ∧
    (∃ t b', exec .encode (ready (sourceArgs 1#32 348#32 1#32 1#32)) = .next t ∧ t.signal = some b') ∧
    (∃ t b', exec .encode (ready (sourceArgs 1#32 0x7FFFFF#32 1#32 1#32)) = .next t ∧ t.signal = some b') ∧
    (0x7FFFFF#32 : Word).toInt < 2 ^ 23 ∧ (∀ a, XMem.find (ready noArgs).xmem a = none) ∧
    (∃ t b', exec .encode { ready lineArgs with xmem := paddingRow } = .next t ∧ t.signal = some b') ∧
    ∀ x, x < 637 → XMem.find paddingRow (sourceAddr lineArgs x lineArgs.a2) ≠ none :=
  ⟨encode_next _ _ _ _ (by decide +kernel), encode_next _ _ _ _ (by decide +kernel),
    encode_next _ _ _ _ (by decide +kernel), by decide, fun _ => rfl,
    encode_next_of (s := { ready lineArgs with xmem := paddingRow }) (b := zeroBuffers) rfl (by decide +kernel),
    paddingRow_written⟩

/-- `ready lineArgs` with another `RES0`, other upper bits of `ARG3`, another non-zero `ARG4`, another SATURATION,
another next free value, and, beside the row `h` both have, an XMEM word outside the source. -/
def otherThanLine : State :=
  { ready lineArgs with
    res0 := 5#32, oobCount := 3, args := { lineArgs with a3 := 2#32, a4 := 9#32 }
    tuning := { defaultTuning with saturation := 77#32 }, xmem := paddingRow ++ [(0x5000, 1#32)] }

/-- The two states agree on the words of the source, and on row `h`. -/
theorem lineArgs_source (x y : Nat) (hx : x < 637) (hy : y < 232) :
    ∀ row ∈ [rowBeforeClampA lineArgs y, rowBeforeClampB lineArgs y],
      (row.toInt < lineArgs.a2.toInt →
        XMem.read (paddingRow ++ [(0x5000, 1#32)]) (sourceAddr lineArgs x row) =
          XMem.read paddingRow (sourceAddr lineArgs x row)) ∧
      (lineArgs.a2.toInt ≤ row.toInt →
        XMem.find (paddingRow ++ [(0x5000, 1#32)]) (sourceAddr lineArgs x lineArgs.a2) =
          XMem.find paddingRow (sourceAddr lineArgs x lineArgs.a2)) := by
  have same : ∀ a : Word, a.toNat < 8 →
      XMem.find (paddingRow ++ [(0x5000, 1#32)]) a = XMem.find paddingRow a := by
    intro a ha
    have h : ¬ 0x5000 = a.toNat := by omega
    simp [XMem.find, paddingRow, sparseFind, h]
  intro row hr
  refine ⟨fun hlt => ?_, fun _ => same _ (lineArgs_rowH x hx).2⟩
  have rowsA : ∀ y, y < 232 → rowBeforeClampA lineArgs y = 0#32 := by decide +kernel
  have rowsB : ∀ y, y < 232 → rowBeforeClampB lineArgs y = 0#32 ∨ rowBeforeClampB lineArgs y = 1#32 := by
    decide +kernel
  have row0 : row = 0#32 := by
    simp only [List.mem_cons, List.not_mem_nil, or_false] at hr
    rcases hr with rfl | rfl
    · exact rowsA y hy
    · rcases rowsB y hy with h | h
      · exact h
      · rw [h] at hlt; exact absurd hlt (by decide)
  have addrs : ∀ x, x < 637 → (sourceAddr lineArgs x 0#32).toNat < 4 := by decide +kernel
  have ha := addrs x hx
  rw [row0, XMem.read, XMem.read, same _ (by omega)]

theorem witness_EncodeDependsOnItsInputsOnly :
    ({ ready lineArgs with xmem := paddingRow }.signal = some zeroBuffers ∧ otherThanLine.signal = some zeroBuffers ∧
      1 ≤ lineArgs.a1.toInt ∧ 1 ≤ lineArgs.a2.toInt) ∧
    (otherThanLine.args.a3 &&& 1#32 = lineArgs.a3 &&& 1#32 ∧ (otherThanLine.args.a4 = 0#32 ↔ lineArgs.a4 = 0#32)) ∧
    (∀ x, x < 637 → XMem.find paddingRow (sourceAddr lineArgs x lineArgs.a2) ≠ none) ∧
    (∃ t c, exec .encode { ready lineArgs with xmem := paddingRow } = .next t ∧ t.signal = some c) ∧
    ∃ t c, exec .encode otherThanLine = .next t ∧ t.signal = some c :=
  ⟨⟨rfl, rfl, by decide +kernel⟩, by decide +kernel, paddingRow_written,
    encode_next_of (b := zeroBuffers) rfl (by decide +kernel),
    encode_next_of (b := zeroBuffers) rfl (by decide +kernel)⟩

/-- DECODE on a ready machine answers a next state. -/
theorem decode_next (a : Args) : ∃ t b', exec .decode (ready a) = .next t ∧ t.signal = some b' :=
  ⟨_, _, by simp only [exec, execDecode, ready_signal]; rfl, rfl⟩

/-- The 4 × 3 raster at word 0x1000 fits, and the word before it lies outside. -/
theorem witness_rasterFits_outsideRaster : rasterFits (ready noArgs) ∧ outsideRaster (ready noArgs) 0xFFF#32 := by
  refine ⟨⟨⟨by decide +kernel, by decide +kernel⟩, by decide +kernel⟩, fun x y hx hy => ?_⟩
  have hx : (x : Int) < 4 := hx
  have hy : (y : Int) < 3 := hy
  have key : ∀ x, x < 4 → ∀ y, y < 3 → 0xFFF#32 ≠ 0x1000#32 + BitVec.ofNat 32 y * 4#32 + BitVec.ofNat 32 x := by
    decide +kernel
  exact key x (by omega) y (by omega)

theorem witness_DecodeCompletesAndLeavesAlone :
    (ready noArgs).signal = some zeroBuffers ∧ rasterFits (ready noArgs) ∧ outsideRaster (ready noArgs) 0xFFF#32 :=
  ⟨rfl, witness_rasterFits_outsideRaster⟩

/-- For DecodeInjectsNoise and DecodeFindsVerticalSync, with the noise operand out of range and VSYNC 0. -/
theorem witness_DecodeInjectsNoise_DecodeFindsVerticalSync : ∃ (s t : State) (b b' : SignalBuffers),
    s.signal = some b ∧ Memory.wf b.analog ∧ s.vsync.toNat < 262 ∧ exec .decode s = .next t ∧
    t.signal = some b' := by
  obtain ⟨t, b', h1, h2⟩ := decode_next { noArgs with a0 := 1000#32 }
  exact ⟨_, t, zeroBuffers, b', rfl, zeroBuffers_wf, by decide +kernel, h1, h2⟩

theorem witness_HorizontalSyncSearch : 261 < 262 ∧ (909#32 : Word).toNat < 910 := by decide

/-- The last line, column and register, and a DECODE that completes. -/
theorem witness_BurstRecoveryAveragesWithinBounds :
    (261 < 262 ∧ (909#32 : Word).toNat < 910 ∧ 3 < 4) ∧
    ∃ s t : State, s.signal ≠ none ∧ exec .decode s = .next t := by
  obtain ⟨t, b', h1, h2⟩ := decode_next noArgs
  exact ⟨by decide, _, t, by simp [ready_signal], h1⟩

/-- DECODE from CRT_INIT's state; its last line is in row 2 of three; and the first clause at `OUTH = 0`, the one
raster (no run reaches it) whose lines the default configuration skips. -/
theorem witness_DecodeRunsItsLinesInOrder :
    (∃ (s t : State) (b b' : SignalBuffers), s.signal = some b ∧ Scratch.wf b.scratch ∧
      exec .decode s = .next t ∧ t.signal = some b' ∧ s.outh = 3#32) ∧
    (BitVec.sdiv (BitVec.ofNat 32 239 * 3#32) 240#32 + rowOffset 1#1 3#32).toInt < (3#32 : Word).toInt ∧
    (0#32 : Word).toInt ≤ (BitVec.sdiv (BitVec.ofNat 32 239 * 0#32) 240#32 + rowOffset 1#1 0#32).toInt := by
  obtain ⟨t, b', h1, h2⟩ := decode_next noArgs
  exact ⟨⟨ready noArgs, t, zeroBuffers, b', rfl, by decide +kernel, h1, h2, rfl⟩, by decide +kernel, by decide +kernel⟩

theorem witness_DecodeForgetsTheOldBurstVector :
    ∃ (s : State) (b : SignalBuffers) (q : Quad Word), s.signal = some b ∧ s.ccref ≠ q :=
  ⟨ready noArgs, zeroBuffers, ⟨1#32, 2#32, 3#32, 4#32⟩, rfl, by decide +kernel⟩

/-- Both ends of the bloom's ranges, and the last column of the widest row. -/
theorem witness_BloomStaysInBounds :
    (0 ≤ (0#32 : Word).toInt ∧ (0#32 : Word).toInt ≤ 255) ∧ (255#32 : Word).toInt ≤ 255 ∧
    |(95631#32 : Word).toInt| ≤ 95631 ∧ |(-95631#32 : Word).toInt| ≤ 95631 ∧
    -12903 ≤ (-12903#32 : Word).toInt ∧ (39117#32 : Word).toInt ≤ 39117 ∧
    (0x7FFFFFFE : Int) < (0x7FFFFFFF#32 : Word).toInt := by decide

/-- A window that starts at entry 17, and the entries left and right of it. -/
theorem witness_DemodulationRunsThroughItsWindow :
    17 = ((69632#32 : Word).sshiftRight 12).toInt.toNat ∧ 16 < 17 ∧ 752 ≤ 752 := by decide +kernel

/-- Two columns, the most columns the statement allows, and a row of five whose third column reaches `scanR`. -/
theorem witness_ColumnLoopBlendsEachPixel :
    (∀ col, col < 2 → ((4096#32 : Word) + BitVec.ofNat 32 col * 4096#32).slt 20000#32 = true) ∧
    (∀ col, col < 2 ^ 32 → ((0#32 : Word) + BitVec.ofNat 32 col * 0#32).slt 1#32 = true) ∧
    (∀ col, col < 2 → ((4096#32 : Word) + BitVec.ofNat 32 col * 4096#32).slt 12288#32 = true) ∧
    ((4096#32 : Word) + BitVec.ofNat 32 2 * 4096#32).slt 12288#32 = false := by
  refine ⟨by decide +kernel, fun col _ => ?_, by decide +kernel, by decide⟩
  rw [BitVec.mul_zero]
  decide

/-- Three rows of two words, rows that fill XMEM exactly, and the empty fill `beg = end`. -/
theorem witness_VerticalFillRepeatsTheRow :
    (0 ≤ (1#32 : Word).toInt ∧ 1 ≤ (2#32 : Word).toInt ∧ (1#32 : Word).toInt ≤ (4#32 : Word).toInt ∧
      ((4#32 : Word).toInt - (1#32 : Word).toInt) * (2#32 : Word).toInt ≤ 2 ^ 32) ∧
    ((4#32 : Word).toInt - (0#32 : Word).toInt) * (0x40000000#32 : Word).toInt ≤ 2 ^ 32 ∧
    (5#32 : Word).toInt ≤ (5#32 : Word).toInt := by decide

/-- The word before the raster. -/
theorem witness_DecodeWritesTheOutputRasterOnly : ∃ (s t : State) (a : Word), s.signal ≠ none ∧ rasterFits s ∧
    exec .decode s = .next t ∧ outsideRaster s a := by
  obtain ⟨t, b', h1, -⟩ := decode_next noArgs
  exact ⟨ready noArgs, t, 0xFFF#32, by simp [ready_signal], witness_rasterFits_outsideRaster.1, h1,
    witness_rasterFits_outsideRaster.2⟩

/-- A word of XMEM that is listed before DECODE is listed after it. -/
theorem witness_DecodeWritesColourBitsOnly : ∃ (s t : State) (a v : Word), s.signal ≠ none ∧
    1 ≤ s.outw.toInt ∧ 1 ≤ s.outh.toInt ∧ s.outh.toInt ≤ 2 ^ 23 ∧ exec .decode s = .next t ∧
    XMem.find t.xmem a = some v := by
  have listed := decodeField_listed cfg { ready noArgs with xmem := [(0x1001, 0xFF123456#32)] } zeroBuffers
    (a := 0x1001#32) (by decide +kernel)
  obtain ⟨v, hv⟩ := Option.ne_none_iff_exists'.1 listed
  exact ⟨{ ready noArgs with xmem := [(0x1001, 0xFF123456#32)] }, _, 0x1001#32, v, by simp [ready_signal],
    by decide +kernel, by decide +kernel, by decide +kernel, rfl, hv⟩

theorem witness_CommandWriteSets_NoCommandClearsAStickyBit : ∃ (s t : State),
    exec (.rdsig .inp) s = .next t ∧ s.flags.errIll = true ∧ s.flags.divz = true ∧ s.initd = true :=
  ⟨{ ready noArgs with flags := ⟨false, true, true, true, true, true⟩ }, _, rfl, rfl, rfl, rfl⟩

/-- INITD rises by CRT_INIT and falls by hardware reset. -/
theorem witness_InitdChangesOnlyByInitAndReset :
    (∃ t, step { withArgs ⟨4#32, 3#32, 0#32, 0#32, 0#32, 0#32⟩ with hostOps := [.busWrite 0#32 4 0x20#32] } =
      .next t ∧ t.initd ≠ false) ∧
    ∃ t, step { ready noArgs with hostOps := [.hwReset] } = .next t ∧ t.initd ≠ true :=
  ⟨⟨_, rfl, by decide +kernel⟩, ⟨_, rfl, by decide +kernel⟩⟩

theorem witness_EveryStepKeepsTheInvariant : ∃ s t : State, stateInv cfg s ∧ step s = .next t :=
  ⟨ready noArgs, _, witness_stateInv, rfl⟩

theorem witness_WholeWordHostsAreNeverStopped :
    (stateInv cfg (ready noArgs) ∧ hostOpOk (.busRead 0xFFFFFFFC#32 4) = true ∧
      hostOpOk (.xmemRead 0#32) = true) ∧ State.reset.hostOps = [] :=
  ⟨⟨witness_stateInv, by decide⟩, rfl⟩

theorem witness_StatusReadsItsFieldsAndClearsErrorBits :
    (hosted [.busRead 4#32 4]).hostOps = .busRead 4#32 4 :: [] ∧
    (hosted [.busWrite 4#32 4 0x7C#32]).hostOps = .busWrite 4#32 4 0x7C#32 :: [] := ⟨rfl, rfl⟩

theorem witness_BusyAccessesAreDropped : ∃ (s : State) (offset v : Word) (rest : List HostOp),
    s.flags.busy = true ∧ offset ≠ 4#32 ∧ offset.toNat % 4 = 0 ∧ s.hostOps = .busWrite offset 4 v :: rest :=
  ⟨{ hosted [.busWrite 0#32 4 0x31#32] with flags := ⟨true, false, false, false, false, false⟩ }, 0#32, 0x31#32, [],
    rfl, by decide, rfl, rfl⟩

theorem witness_HostWritesToTrackersAreReduced :
    (hosted [.busWrite 0x044#32 4 910#32]).flags.busy = false ∧
    (hosted [.busWrite 0x048#32 4 (-1#32)]).hostOps = .busWrite 0x048#32 4 (-1#32) :: [] := ⟨rfl, rfl⟩

/-- The first and last offset of each range of the statement. -/
theorem witness_ReadOnlyAndReservedOffsets :
    ([0x020, 0x05C, 0x070, 0x1BC, 0xFFFFFFFC] : List Word).all (fun o => o.toNat % 4 == 0 &&
      ([0x020, 0x024, 0x04C, 0x050, 0x054, 0x05C].contains o.toNat || decide (0x070 ≤ o.toNat))) = true ∧
    ([0x028, 0x070, 0x07C, 0x098, 0x0FC, 0x1C0] : List Word).all (fun o => o.toNat % 4 == 0 &&
      ([0x028, 0x02C].contains o.toNat || decide (0x070 ≤ o.toNat ∧ o.toNat < 0x080)
        || decide (0x098 ≤ o.toNat ∧ o.toNat < 0x100) || decide (0x1C0 ≤ o.toNat))) = true := by decide +kernel

/-- The last word of the map is read-only and shows `h[2]` of the third equalizer. -/
theorem witness_ReadOnlyAndReservedOffsets_reads : ∃ (s : State) (offset v : Word) (rest : List HostOp),
    s.flags.busy = false ∧ offset.toNat % 4 = 0 ∧ (offset.toNat, v) ∈ readOnlyShown s ∧
    s.hostOps = .busRead offset 4 :: rest :=
  ⟨hosted [.busRead 0x1BC#32 4], 0x1BC#32, 0#32, [], rfl, by decide, by decide +kernel, rfl⟩

/-- `CCREF3`, the last of the read-write registers, and RN as reset leaves it. -/
theorem witness_ReadWriteRegistersReadBack : ∃ (s t : State) (offset v : Word) (rest : List HostOp),
    s.flags.busy = false ∧ offset.toNat = 0x06C ∧ (offset.toNat, t) ∈ storedBy s v ∧ t ≠ s ∧
    s.hostOps = .busWrite offset 4 v :: .busRead offset 4 :: rest ∧ (0x058, 194#32) ∈ readWriteShown s :=
  ⟨hosted [.busWrite 0x06C#32 4 7#32, .busRead 0x06C#32 4],
    { hosted [.busWrite 0x06C#32 4 7#32, .busRead 0x06C#32 4] with ccref := ⟨0#32, 0#32, 0#32, 7#32⟩ }, 0x06C#32, 7#32,
    [], rfl, by decide, by decide +kernel, by decide +kernel, rfl, by decide +kernel⟩

theorem witness_NarrowHostAccessIsRefused : ∃ (s : State) (offset v : Word) (rest : List HostOp),
    ((2 : Nat) ≠ 4 ∨ offset.toNat % 4 ≠ 0) ∧ s.hostOps = .busWrite offset 2 v :: rest :=
  ⟨hosted [.busWrite 8#32 2 1#32], 8#32, 1#32, [], .inl (by decide), rfl⟩

theorem witness_HostAccessesXmemWhileIdle :
    ((hosted [.xmemWrite 9#32 1#32]).flags.busy = false ∧
      (hosted [.xmemWrite 9#32 1#32]).hostOps = .xmemWrite 9#32 1#32 :: []) ∧
    (hosted [.xmemRead 9#32]).hostOps = .xmemRead 9#32 :: [] ∧
    { hosted [.xmemRead 9#32] with flags := ⟨true, false, false, false, false, false⟩ }.flags.busy = true :=
  ⟨⟨rfl, rfl⟩, rfl, rfl⟩

theorem witness_HardwareResetLeavesTheResetColumn :
    { ready noArgs with hostOps := [.hwReset] }.hostOps = .hwReset :: [] := rfl

/-- The last offset the statement allows, and offset 3 of a position near the end of the buffer. -/
theorem witness_DemodulateOneSample :
    ∃ (inp : Array Sample) (pos sg : Word) (i : Nat), pos.toNat + i < 2 ^ 31 ∧
      sg = (inp.getD ((pos.toNat + i) % 238420) 0#8).signExtend 32 ∧ (238418#32 : Word).toNat + 3 < 2 ^ 31 :=
  ⟨#[], 0#32, _, 2 ^ 31 - 1, by decide +kernel, rfl, by decide +kernel⟩

theorem witness_PixelColourFromTwoTriples :
    ∃ (scratch : Array (PerChannel Word)) (p rw lw : Word) (a b : PerChannel Word), 0 ≤ p.toInt ∧
      a = scratch.getD (p.toNat / 4096) zeroTriple ∧ b = scratch.getD (p.toNat / 4096 + 1) zeroTriple ∧
      rw = BitVec.ofNat 32 (p.toNat % 4096) ∧ lw = 4095#32 - rw ∧ lw = 2079#32 :=
  ⟨#[], 1574880#32, _, _, _, _, by decide +kernel, rfl, rfl, rfl, rfl, by decide +kernel⟩

end Sys2Proof.Tests
end

section
/-! 40_fixedmath.md: SINCOS14 against rule R92 on integers, EXPX's reference values, NOP. -/

namespace Sys2Proof.Machine

/-! ## The commands of FixedMath as single updates of the state -/

theorem exec_nop (s : State) : exec .nop s = .next s := rfl

theorem exec_sincos14 (s : State) : exec .sincos14 s = .next { s with
    res0 := (sincos14 cfg s.args.a0).sin
    res1 := (sincos14 cfg s.args.a0).cos } := rfl

theorem exec_expx (s : State) : exec .expx s = .next { s with
    res0 := (expx cfg s.args.a0).val
    flags := { s.flags with divz := s.flags.divz || (expx cfg s.args.a0).divz } } :=
  congrArg Host.Outcome.next (raiseIf_divz _ _)

/-- EXPX changes `RES0` alone unless it divides by zero. -/
theorem exec_expx_of_divz_false {s : State} {v : Word} (h : expx cfg s.args.a0 = { val := v, divz := false }) :
    exec .expx s = .next { s with res0 := v } := by
  simp only [exec_expx, h, Bool.or_false]

/-! ## Words that stand for small integers -/

/-- Masking with `2^k − 1` is the remainder by `2^k` (R5). -/
theorem toNat_and_mask (a : Word) {k : Nat} (hk : k ≤ 32) :
    (a &&& BitVec.ofNat 32 (2 ^ k - 1)).toNat = a.toNat % 2 ^ k := by
  have hpow : 2 ^ k ≤ 2 ^ 32 := Nat.pow_le_pow_right (by decide) hk
  have hpos : 0 < 2 ^ k := Nat.two_pow_pos k
  rw [BitVec.toNat_and, BitVec.toNat_ofNat, Nat.mod_eq_of_lt (by omega), Nat.and_two_pow_sub_one_eq_mod]

theorem slt_iff_toNat_lt {a b : Word} (ha : a.toNat < 2 ^ 31) (hb : b.toNat < 2 ^ 31) :
    a.slt b = true ↔ a.toNat < b.toNat := by
  rw [BitVec.slt_iff_toInt_lt, BitVec.toInt_eq_toNat_of_lt (by omega), BitVec.toInt_eq_toNat_of_lt (by omega)]
  exact Int.ofNat_lt

theorem ofInt_sub_word (x y : Int) : BitVec.ofInt 32 (x - y) = BitVec.ofInt 32 x - BitVec.ofInt 32 y := by
  rw [Int.sub_eq_add_neg, BitVec.ofInt_add, BitVec.ofInt_neg, ← BitVec.sub_eq_add_neg]

/-- The flooring shift of a value that fits is its floored quotient (R5). -/
theorem sar_ofInt {z : Int} (k : Nat) (h : -2147483648 ≤ z) (h' : z < 2147483648) :
    sar (BitVec.ofInt 32 z) k = BitVec.ofInt 32 (z / 2 ^ k) := by
  rw [← BitVec.ofInt_toInt (x := sar _ k), sar_toInt, BitVec.toInt_ofInt_eq_self (by decide) h h']

/-! ## The sine table and its interpolation (R90, R91) -/

/-- The default configuration holds the printed table (R90). -/
theorem sintab_cfg_eq_printedSines : cfg.sintab.map (fun b => (b.toNat : Int)) = printedSines := rfl

theorem sinEntry_cfg (i : Nat) : sinEntry cfg i = BitVec.ofInt 32 (printedSines.getD i 0) := by
  rw [← sintab_cfg_eq_printedSines, sinEntry, show (0 : Int) = ((0#16).toNat : Int) from rfl, List.getD_map]
  exact BitVec.eq_of_toNat_eq (by simp)

/-- Neighbouring entries of the table differ by at most the first one (R91). -/
theorem printedSines_step (i : Nat) (hi : i ≤ 16) :
    |printedSines.getD (i + 1) 0 - printedSines.getD i 0| ≤ 3208 := by
  decide +revert

/-- The product of R91 fits 32 bits, for every entry and fraction. -/
theorem interpolation_fits {i f : Nat} (hi : i ≤ 16) (hf : f < 256) :
    |(printedSines.getD (i + 1) 0 - printedSines.getD i 0) * (f : Int)| ≤ 3208 * 255 := by
  rw [abs_mul]
  exact mul_le_mul (printedSines_step i hi) (by rw [Nat.abs_cast]; omega) (abs_nonneg _) (by decide)

/-- The interpolation of R91 on words is the one on unbounded integers. -/
theorem sintab_eq_quarterSine {a : Word} (ha : a.toNat ≤ 4096) :
    sintab cfg a = BitVec.ofInt 32 (quarterSine a.toNat) := by
  have low8bits (w : Word) : (w &&& 0xFF#32).toNat = w.toNat % 256 := toNat_and_mask w (k := 8) (by decide)
  have index : (sar a 8 &&& 0xFF#32).toNat = a.toNat / 256 := by
    have shift : (sar a 8).toNat = a.toNat / 256 := by
      rw [sar, BitVec.sshiftRight_eq_of_msb_false (BitVec.msb_eq_false_iff_two_mul_lt.2 (by omega)),
        BitVec.toNat_ushiftRight, Nat.shiftRight_eq_div_pow]
    rw [low8bits, shift]
    omega
  have fraction : a &&& 0xFF#32 = BitVec.ofInt 32 ((a.toNat % 256 : Nat) : Int) := by
    rw [← low8bits, BitVec.ofInt_natCast, BitVec.ofNat_toNat, BitVec.setWidth_eq]
  obtain ⟨lower, upper⟩ := abs_le.1 (interpolation_fits (i := a.toNat / 256) (f := a.toNat % 256)
    (by omega) (by omega))
  simp only [sintab, quarterSine, index, sinEntry_cfg]
  rw [fraction, ← ofInt_sub_word, ← BitVec.ofInt_mul, sar_ofInt 8 (by omega) (by omega), ← BitVec.ofInt_add]
  rfl

/-! ## The turn (R92) -/

theorem turnSine_of_lt_half {h : Nat} (hh : h < 8192) :
    turnSine h = if 4095 < h then quarterSine (8192 - h) else quarterSine h := by
  simp only [turnSine, Nat.mod_eq_of_lt hh, if_neg (show ¬ 8191 < h by omega)]

theorem turnCosine_of_lt_half {h : Nat} (hh : h < 8192) :
    turnCosine h = if 4095 < h then -quarterSine (h - 4096) else quarterSine (4096 - h) := by
  simp only [turnCosine, Nat.mod_eq_of_lt hh, if_neg (show ¬ 8191 < h by omega)]

/-- The second half turn negates the first. -/
theorem turnSine_eq_half (n : Nat) :
    turnSine n = if 8191 < n then -turnSine (n % 8192) else turnSine (n % 8192) := by
  rw [turnSine_of_lt_half (Nat.mod_lt n (by decide)), turnSine]

theorem turnCosine_eq_half (n : Nat) :
    turnCosine n = if 8191 < n then -turnCosine (n % 8192) else turnCosine (n % 8192) := by
  rw [turnCosine_of_lt_half (Nat.mod_lt n (by decide)), turnCosine]

theorem halfTurn_eq_turn {h : Word} (hh : h.toNat < 8192) : halfTurn cfg h =
    { sin := BitVec.ofInt 32 (turnSine h.toNat), cos := BitVec.ofInt 32 (turnCosine h.toNat) } := by
  have second : (4095#32).slt h = true ↔ 4095 < h.toNat := slt_iff_toNat_lt (by decide) (by omega)
  simp only [halfTurn, second, turnSine_of_lt_half hh, turnCosine_of_lt_half hh]
  split_ifs
  · have reflected : (8192#32 - h).toNat = 8192 - h.toNat := by bv_omega
    have shifted : (h - 4096#32).toNat = h.toNat - 4096 := by bv_omega
    rw [sintab_eq_quarterSine (by omega), sintab_eq_quarterSine (by omega), reflected, shifted, BitVec.ofInt_neg]
  · have reflected : (4096#32 - h).toNat = 4096 - h.toNat := by bv_omega
    rw [sintab_eq_quarterSine (by omega), sintab_eq_quarterSine (by omega), reflected]

/-- `sincos14` reduces its operand to one turn and reads the sine and cosine of R92 there. -/
theorem sincos14_eq_turn (angle : Word) : sincos14 cfg angle =
    { sin := BitVec.ofInt 32 (turnSine (angle.toNat % 16384))
      cos := BitVec.ofInt 32 (turnCosine (angle.toNat % 16384)) } := by
  have turn : (angle &&& 0x3FFF#32).toNat = angle.toNat % 16384 := toNat_and_mask angle (k := 14) (by decide)
  have half : (angle &&& 0x3FFF#32 &&& 0x1FFF#32).toNat = angle.toNat % 16384 % 8192 := by
    rw [← turn]; exact toNat_and_mask _ (k := 13) (by decide)
  have negated : (8191#32).slt (angle &&& 0x3FFF#32) = true ↔ 8191 < angle.toNat % 16384 := by
    rw [← turn]; exact slt_iff_toNat_lt (by decide) (by omega)
  rw [turnSine_eq_half, turnCosine_eq_half]
  simp only [sincos14, negated, halfTurn_eq_turn (half ▸ Nat.mod_lt _ (by decide)), half]
  split_ifs
  · simp only [BitVec.ofInt_neg]
  · rfl

/-! ## The exponential's reference values (R97) -/

/-- The pairs `(n, expx(n))` of R97, with R95's `expx(2048)`. -/
def expxReferences : List (Int × Int) :=
  [(100, 2150), (1024, 3375), (2047, 5562), (2048, 5567), (2049, 5569), (4096, 15133), (6144, 41135),
    (8192, 111817), (10240, 303947), (12777, 1048525), (-100, 1950), (-1024, 1242), (-2048, 753),
    (-4096, 277), (-8192, 37), (-12777, 4)]

theorem expx_references : ∀ p ∈ expxReferences,
    expx cfg (BitVec.ofInt 32 p.1) = { val := BitVec.ofInt 32 p.2, divz := false } := by
  decide

/-! ## The obligations -/

/-- Settles O7: the command is one update of the state, and each of its two values is R92's. -/
theorem sincos14WritesInterpolatedSineAndCosine : Obligations.Sincos14WritesInterpolatedSineAndCosine := by
  refine ⟨by decide, fun s => ?_⟩
  rw [exec_sincos14, sincos14_eq_turn]

/-- Settles O6. -/
theorem nopChangesNothing : Obligations.NopChangesNothing :=
  ⟨by decide, by decide, exec_nop⟩

/-- Settles O9: none of the sixteen divides by zero, so `RES0` alone changes. -/
theorem expxReferenceValues : Obligations.ExpxReferenceValues := by
  intro s p hp operand
  have value := expx_references p hp
  rw [← operand] at value
  exact exec_expx_of_divz_false value

end Sys2Proof.Machine
end

section
/-! 42_eq.md: EQ_INIT, EQ_RESET and EQ_STEP as rules R120 to R122 state them. -/

namespace Sys2Proof.Machine

/-! ## The equalizer file -/

/-- Replacing the named instance changes that one alone. -/
theorem channelSet_named {α : Type} (f : PerChannel α) (k : Channel) (v : α) :
    channelGet (channelSet f k v) k = v ∧ ∀ j, j ≠ k → channelGet (channelSet f k v) j = channelGet f j :=
  ⟨channelGet_channelSet_self f k v, fun _ => channelGet_channelSet_of_ne f v⟩

/-! ## Building and clearing an instance (R120, R121) -/

/-- The operands of EQ_INIT in the argument registers (R120). -/
def eqOperands (a : Args) : EqParams :=
  { fLo := a.a0, fHi := a.a1, rate := a.a2, gLo := a.a3, gMid := a.a4, gHi := a.a5 }

/-- The factor 2 of the formula and the shift to Q16 together multiply the sine by 4 (R120). -/
theorem eqCoefficient_eq (c : Cfg) (f rate : Word) :
    eqCoefficient c f rate = 4#32 * (sincos14 c (BitVec.sdiv (8192#32 * f) rate)).sin := by
  have quadruple (v : Word) : 2#32 * v <<< 1 = 4#32 * v := by
    rw [BitVec.shiftLeft_eq_mul_twoPow, BitVec.mul_comm v, ← BitVec.mul_assoc]
    rfl
  exact quadruple _

/-- The instance EQ_INIT builds: R120's coefficients and gains over a zeroed history. -/
theorem eqInit_unit (c : Cfg) (p : EqParams) : (eqInit c p).unit =
    { lf := 4#32 * (sincos14 c (BitVec.sdiv (8192#32 * p.fLo) p.rate)).sin
      hf := 4#32 * (sincos14 c (BitVec.sdiv (8192#32 * p.fHi) p.rate)).sin
      g0 := p.gLo, g1 := p.gMid, g2 := p.gHi
      fL := zeroCascade, fH := zeroCascade, h0 := 0#32, h1 := 0#32, h2 := 0#32 } := by
  simp only [eqInit, eqCoefficient_eq]

/-! ## One step of an instance (R122) -/

/-- A cascade whose four values follow R122's chain, each stage driven by the one just updated. -/
theorem eqCascade_of_chain {coef x f0 f1 f2 f3 : Word} {f : Cascade}
    (stage0 : f0 = f.s0 + (coef * (x - f.s0) + 32768#32).sshiftRight 16)
    (stage1 : f1 = f.s1 + (coef * (f0 - f.s1) + 32768#32).sshiftRight 16)
    (stage2 : f2 = f.s2 + (coef * (f1 - f.s2) + 32768#32).sshiftRight 16)
    (stage3 : f3 = f.s3 + (coef * (f2 - f.s3) + 32768#32).sshiftRight 16) :
    eqCascade coef x f = ⟨f0, f1, f2, f3⟩ := by
  subst stage0 stage1 stage2 stage3
  rfl

/-- A step from its two updated cascades: the delay line shifts, and the high band reads its oldest entry
from before the shift. -/
theorem eqStep_of_cascades {u : EqUnit} {x : Word} {fL fH : Cascade}
    (low : eqCascade u.lf x u.fL = fL) (high : eqCascade u.hf x u.fH = fH) :
    eqStep u x =
      { unit := { u with fL := fL, fH := fH, h0 := x, h1 := u.h0, h2 := u.h1 }
        out := (fL.s3 * u.g0).sshiftRight 16 + ((fH.s3 - fL.s3) * u.g1).sshiftRight 16
          + ((u.h2 - fH.s3) * u.g2).sshiftRight 16 } := by
  subst low high
  rfl

/-! ## The commands as single updates of the state -/

theorem exec_eqInit (k : Channel) (s : State) : exec (.eqInit k) s = .next { s with
    eq := channelSet s.eq k (eqInit cfg (eqOperands s.args)).unit
    flags := { s.flags with divz := s.flags.divz || s.args.a2 == 0#32 } } :=
  congrArg Host.Outcome.next (raiseIf_divz _ _)

theorem exec_eqReset (k : Channel) (s : State) : exec (.eqReset k) s = .next { s with
    eq := channelSet s.eq k (eqReset (channelGet s.eq k)) } := rfl

theorem exec_eqStep (k : Channel) (s : State) : exec (.eqStep k) s = .next { s with
    eq := channelSet s.eq k (eqStep (channelGet s.eq k) s.args.a0).unit
    res0 := (eqStep (channelGet s.eq k) s.args.a0).out } := rfl

/-! ## The obligations -/

/-- Settles O15: `DIVZ` is the test of the rate alone, and the named instance is the one R120 builds. -/
theorem eqInitBuildsTheInstance : Obligations.EqInitBuildsTheInstance := by
  refine ⟨by decide, fun s k => ?_⟩
  obtain ⟨named, others⟩ := channelSet_named s.eq k (eqInit cfg (eqOperands s.args)).unit
  exact ⟨_, exec_eqInit k s, rfl, named.trans (eqInit_unit cfg (eqOperands s.args)), others⟩

/-- Settles O16. -/
theorem eqResetZeroesTheHistory : Obligations.EqResetZeroesTheHistory := by
  refine ⟨by decide, fun s k => ?_⟩
  obtain ⟨named, others⟩ := channelSet_named s.eq k (eqReset (channelGet s.eq k))
  exact ⟨_, exec_eqReset k s, rfl, named, others⟩

/-- Settles O17: the eight stage equations determine both cascades, and these the step. -/
theorem eqStepFiltersOneSample : Obligations.EqStepFiltersOneSample := by
  refine ⟨by decide, fun s k u x l0 l1 l2 l3 m0 m1 m2 m3 unit sample
    low0 low1 low2 low3 high0 high1 high2 high3 => ?_⟩
  have stepped := eqStep_of_cascades (eqCascade_of_chain low0 low1 low2 low3)
    (eqCascade_of_chain high0 high1 high2 high3)
  obtain ⟨named, others⟩ := channelSet_named s.eq k (eqStep u x).unit
  refine ⟨_, exec_eqStep k s, ?_, ?_, ?_⟩ <;> rw [unit, ← sample]
  · rw [stepped]
  · exact named.trans (congrArg EqStepped.unit stepped)
  · exact others

end Sys2Proof.Machine
end

section
/-! 44_decoder.md: DECODE's noise injection as rule R161 states it. -/

namespace Sys2Proof.Machine

/-! ## One noisy sample on integers (R161) -/

/-- The middle byte of the generator's state; that the shift keeps the sign does not reach it. -/
theorem noiseByte_toNat (rn : Word) : (noiseByte rn).toNat = rn.toNat / 65536 % 256 := by
  have mask : (noiseByte rn).toNat = (sar rn 16).toNat % 256 := toNat_and_mask (sar rn 16) (k := 8) (by decide)
  have shift := sar_toInt rn 16
  rw [BitVec.toInt_eq_toNat_cond, BitVec.toInt_eq_toNat_cond] at shift
  split_ifs at shift <;> omega

/-- The generator's byte as its distance from the middle of the range, in `[−127, 128]`. -/
def noiseOffset (rn : Word) : Int := ((rn.toNat / 65536 % 256 : Nat) : Int) - 127

theorem noiseByte_sub_toInt (rn : Word) : (noiseByte rn - 0x7F#32).toInt = noiseOffset rn := by
  have byte : (noiseByte rn).toInt = ((rn.toNat / 65536 % 256 : Nat) : Int) := by
    rw [BitVec.toInt_eq_toNat_of_lt (by rw [noiseByte_toNat]; omega), noiseByte_toNat]
  have middle : (0x7F#32 : Word).toInt = 127 := by decide
  rw [sub_toInt (by rw [byte, middle]; omega) (by rw [byte, middle]; omega), byte, middle, noiseOffset]

/-- The product of R161 stays far inside 32 bits. -/
theorem noiseProduct_natAbs_le {n : Int} (rn : Word) (h : 0 ≤ n) (h' : n ≤ 255) :
    (n * noiseOffset rn).natAbs ≤ 255 * 128 := by
  rw [Int.natAbs_mul]
  exact Nat.mul_le_mul (by omega) (by unfold noiseOffset; omega)

/-- The term R161 adds to a sample: its product does not wrap. -/
theorem noiseTerm_toInt {noise : Word} (rn : Word) (h : 0 ≤ noise.toInt) (h' : noise.toInt ≤ 255) :
    (tdiv (noise * (noiseByte rn - 0x7F#32)) 256#32).toInt = Int.tdiv (noise.toInt * noiseOffset rn) 256 := by
  have product := noiseProduct_natAbs_le rn h h'
  rw [← noiseByte_sub_toInt] at product ⊢
  rw [tdiv_toInt _ _ (.inr (by decide)), mul_toInt (by omega) (by omega)]
  rfl

/-- The stored sample is R161's value on unbounded integers: the sum does not wrap, and the clamp fits a byte. -/
theorem noisySample_toInt {noise : Word} (rn : Word) (x : Sample) (h : 0 ≤ noise.toInt) (h' : noise.toInt ≤ 255) :
    (noisySample noise rn x).toInt =
      max (-127) (min 127 (x.toInt + Int.tdiv (noise.toInt * noiseOffset rn) 256)) := by
  have term := noiseTerm_toInt rn h h'
  have termBound := (Int.natAbs_tdiv_le_natAbs (noise.toInt * noiseOffset rn) 256).trans
    (noiseProduct_natAbs_le rn h h')
  have sample := sext8_bounds x
  have sum := add_toInt (a := sext8 x) (b := tdiv (noise * (noiseByte rn - 0x7F#32)) 256#32)
    (by rw [term]; omega) (by rw [term]; omega)
  have clamped (v : Word) : (clamp v (-127#32) 127#32).toInt = max (-127) (min 127 v.toInt) :=
    clamp_toInt v (-127#32) 127#32 (by decide)
  rw [noisySample, low8_toInt (by rw [clamped]; omega) (by rw [clamped]; omega), clamped, sum, term, sext8_toInt]

/-- DECODE's operand is held to a byte (R160). -/
theorem noiseArg_toInt (s : State) : (noiseArg s).toInt = max 0 (min 255 s.args.a0.toInt) :=
  clamp_toInt s.args.a0 0#32 255#32 (by decide)

/-! ## The noise of a completed DECODE -/

/-- The generator takes one step a sample. -/
theorem decodeField_rn (c : Cfg) (s : State) (b : SignalBuffers) :
    (decodeField c s b).rn = lcgNext^[inputSize c] s.rn := by
  have noise := injectNoise_rn (noiseArg s) s.rn (samplesOf c b.analog)
  rwa [samplesOf_size] at noise

/-- INP after DECODE, sample by sample, from ANALOG and the generator alone. -/
theorem decodeField_inp_read {c : Cfg} {s : State} {b b' : SignalBuffers} (hb : Memory.wf b.analog)
    (done : (decodeField c s b).signal = some b') {i : Nat} (hi : i < inputSize c) :
    Memory.read b'.inp i = noisySample (noiseArg s) (lcgNext^[i + 1] s.rn) (Memory.read b.analog i) := by
  have stored : b'.inp = memoryOf (injectNoise (noiseArg s) s.rn (samplesOf c b.analog)).inp :=
    congrArg SignalBuffers.inp (Option.some.inj done).symm
  rw [stored, memoryOf_read, injectNoise_getD _ _ _ (by rwa [samplesOf_size]), samplesOf_getD hb hi]

/-- A DECODE of an initialised machine is the whole of the field's work. -/
theorem exec_decode_of_signal {s t : State} {b : SignalBuffers} (hs : s.signal = some b)
    (run : exec .decode s = .next t) : t = decodeField cfg s b := by
  rcases execDecode_cases run with ⟨absent, -⟩ | ⟨_, present, result⟩
  · cases hs.symm.trans absent
  · cases hs.symm.trans present
    exact result

/-! ## The obligation -/

/-- Settles O31: the generator's steps are those of the noise loop, and each sample is R161's on integers. -/
theorem decodeInjectsNoise : Obligations.DecodeInjectsNoise := by
  intro s t b b' hs hb run ht
  obtain rfl := exec_decode_of_signal hs run
  have operand := noiseArg_toInt s
  refine ⟨decodeField_rn cfg s b, fun i hi => ?_⟩
  rw [decodeField_inp_read hb ht hi, noisySample_toInt _ _ (by omega) (by omega), operand]
  rfl

end Sys2Proof.Machine
end

section
/-! 30_encoding.md R70 to R77: the decoder and the encoder are inverse to each other, and a write to `CMD` issues
the command its word decodes to. -/

namespace Sys2Proof.Machine

/-! ## The `sel` checks (R74) -/

theorem withoutSel_eq_ok {i j : Instr} {sel : BitVec 4} (h : withoutSel i sel = .ok j) : sel = 0#4 ∧ j = i := by
  unfold withoutSel at h
  split at h
  · cases h
    exact ⟨by assumption, rfl⟩
  · cases h

theorem withChannel_eq_ok {mk : Channel → Instr} {j : Instr} {sel : BitVec 4} (h : withChannel mk sel = .ok j) :
    ∃ k, channelSel k = sel ∧ j = mk k := by
  unfold withChannel at h
  split_ifs at h with y i q <;> cases h
  · exact ⟨.y, y.symm, rfl⟩
  · exact ⟨.i, i.symm, rfl⟩
  · exact ⟨.q, q.symm, rfl⟩

theorem withSigBuf_eq_ok {mk : SigBuf → Instr} {j : Instr} {sel : BitVec 4} (h : withSigBuf mk sel = .ok j) :
    ∃ buf, sigBufSel buf = sel ∧ j = mk buf := by
  unfold withSigBuf at h
  split_ifs at h with analog inp <;> cases h
  · exact ⟨.analog, analog.symm, rfl⟩
  · exact ⟨.inp, inp.symm, rfl⟩

/-! ## The opcode map (R73) both ways -/

/-- A command has the given `opcode` and `sel` fields and is legal. -/
def hasFields (i : Instr) (opcode : BitVec 8) (sel : BitVec 4) : Prop :=
  opcodeOf i = opcode ∧ selOf i = sel ∧ i.wellFormed = true

theorem hasFields_withoutSel {i j : Instr} {opcode : BitVec 8} {sel : BitVec 4} (h : withoutSel i sel = .ok j)
    (fields : hasFields i opcode 0#4) : hasFields j opcode sel := by
  obtain ⟨rfl, rfl⟩ := withoutSel_eq_ok h
  exact fields

theorem hasFields_withChannel {mk : Channel → Instr} {j : Instr} {opcode : BitVec 8} {sel : BitVec 4}
    (h : withChannel mk sel = .ok j) (fields : ∀ k, hasFields (mk k) opcode (channelSel k)) :
    hasFields j opcode sel := by
  obtain ⟨k, rfl, rfl⟩ := withChannel_eq_ok h
  exact fields k

theorem hasFields_withSigBuf {mk : SigBuf → Instr} {j : Instr} {opcode : BitVec 8} {sel : BitVec 4}
    (h : withSigBuf mk sel = .ok j) (fields : ∀ buf, hasFields (mk buf) opcode (sigBufSel buf)) :
    hasFields j opcode sel := by
  obtain ⟨buf, rfl, rfl⟩ := withSigBuf_eq_ok h
  exact fields buf

/-- What the opcode map answers has the opcode and the `sel` it was asked for. -/
theorem hasFields_of_decodeOpcode {opcode : BitVec 8} {sel : BitVec 4} {i : Instr}
    (h : decodeOpcode opcode sel = .ok i) : hasFields i opcode sel := by
  have named {n : Nat} (e : opcode.toNat = n) : BitVec.ofNat 8 n = opcode := by rw [← e]; simp
  unfold decodeOpcode at h
  split at h
  case h_17 => cases h
  case h_15 e => exact hasFields_withSigBuf h fun _ => ⟨named e, rfl, rfl⟩
  case h_4 e | h_5 e | h_6 e | h_7 e | h_8 e | h_9 e =>
    exact hasFields_withChannel h fun _ => ⟨named e, rfl, rfl⟩
  all_goals
    rename_i e
    exact hasFields_withoutSel h ⟨named e, rfl, rfl⟩

/-- The opcode map answers every legal command at its own fields. -/
theorem decodeOpcode_of_wellFormed {i : Instr} (h : i.wellFormed = true) :
    decodeOpcode (opcodeOf i) (selOf i) = .ok i := by
  cases i
  case wrsig buf => cases buf with
    | analog => rfl
    | inp => cases h
  case rdsig buf => cases buf <;> rfl
  case iirInit k | iirReset k | iirStep k | eqInit k | eqReset k | eqStep k => cases k <;> rfl
  all_goals rfl

/-! ## The fields of a word (R71) -/

/-- The fields of an encoded command, whichever it is. -/
theorem encodedFields (i : Instr) : Laws.EncodedFields.Statement i := by
  cases i with
  | nop => exact Laws.EncodedFields.nop
  | sincos14 => exact Laws.EncodedFields.sincos14
  | expx => exact Laws.EncodedFields.expx
  | iirInit k => exact Laws.EncodedFields.iirInit k
  | iirReset k => exact Laws.EncodedFields.iirReset k
  | iirStep k => exact Laws.EncodedFields.iirStep k
  | eqInit k => exact Laws.EncodedFields.eqInit k
  | eqReset k => exact Laws.EncodedFields.eqReset k
  | eqStep k => exact Laws.EncodedFields.eqStep k
  | crtInit => exact Laws.EncodedFields.crtInit
  | crtResize => exact Laws.EncodedFields.crtResize
  | crtReset => exact Laws.EncodedFields.crtReset
  | encode => exact Laws.EncodedFields.encode
  | decode => exact Laws.EncodedFields.decode
  | rdsig buf => exact Laws.EncodedFields.rdsig buf
  | wrsig buf => exact Laws.EncodedFields.wrsig buf

/-- A word whose `zero` field is 0 is put together from its two other fields. -/
theorem word_of_fields {w : Word} (h : zeroField w = 0#20) :
    (opcodeField w).setWidth 32 ||| ((selField w).setWidth 32 <<< 8) = w := by
  have high (k : Nat) (hk : 12 ≤ k) : w.getLsbD k = false := by
    by_cases bound : k < 32
    · have bit := congrArg (fun z : BitVec 20 => z.getLsbD (k - 12)) h
      simpa [zeroField, show k - 12 < 20 by omega, show 12 + (k - 12) = k by omega] using bit
    · exact BitVec.getLsbD_of_ge w k (by omega)
  refine BitVec.eq_of_getLsbD_eq fun k hk => ?_
  by_cases low : k < 8
  · simp [opcodeField, selField, hk, low]
  by_cases mid : k < 12
  · simp [opcodeField, selField, hk, low, show k - 8 < 4 by omega, show 8 + (k - 8) = k by omega]
  · have top := high k (by omega)
    simpa [opcodeField, selField, hk, low, show ¬ k - 8 < 4 by omega, BitVec.getLsbD_eq_getElem hk] using top

/-- A decoded word has a `zero` field of 0 and the fields of its command. -/
theorem hasFields_of_decode {w : Word} {i : Instr} (h : decode w = .ok i) :
    zeroField w = 0#20 ∧ hasFields i (opcodeField w) (selField w) := by
  unfold decode at h
  split_ifs at h with zero
  exact ⟨not_not.1 zero, hasFields_of_decodeOpcode h⟩

/-! ## Legal words -/

/-- A legal command's word is legal by the tables. -/
theorem legalWord_encode {i : Instr} (h : i.wellFormed = true) : legalWord (encode i) = true := by
  cases i
  case wrsig buf => cases buf with
    | analog => decide
    | inp => cases h
  case rdsig buf => cases buf <;> decide
  case iirInit k | iirReset k | iirStep k | eqInit k | eqReset k | eqStep k => cases k <;> decide
  all_goals decide

/-! ## The obligations -/

/-- Settles O1: the fields of a word determine it, and the opcode map is inverse to the fields of a command. -/
theorem decodeAndEncodeAgree : Obligations.DecodeAndEncodeAgree := by
  intro w i
  constructor
  · intro h
    obtain ⟨zero, opcode, sel, legal⟩ := hasFields_of_decode h
    refine ⟨legal, ?_⟩
    rw [encode, opcode, sel]
    exact word_of_fields zero
  · rintro ⟨legal, rfl⟩
    obtain ⟨opcode, sel, zero⟩ := encodedFields i
    rw [decode, opcode, sel, zero]
    exact decodeOpcode_of_wellFormed legal

/-- Settles O2: each of the nine is the word of its command. -/
theorem writtenWordsDecode : Obligations.WrittenWordsDecode := by
  have written {w : Word} {i : Instr} (legal : i.wellFormed = true) (word : encode i = w) : decode w = .ok i :=
    (decodeAndEncodeAgree w i).2 ⟨legal, word⟩
  exact ⟨written rfl rfl, written rfl rfl, written rfl rfl, written rfl rfl, written rfl rfl, written rfl rfl,
    written rfl rfl, written rfl rfl, written rfl rfl⟩

/-- A word that decodes is legal by the tables. -/
theorem legalWord_of_decode {w : Word} {i : Instr} (h : decode w = .ok i) : legalWord w = true := by
  obtain ⟨legal, rfl⟩ := (decodeAndEncodeAgree w i).1 h
  exact legalWord_encode legal

theorem wellFormed_of_decode {w : Word} {i : Instr} (h : decode w = .ok i) : i.wellFormed = true :=
  ((decodeAndEncodeAgree w i).1 h).1

/-! ## The issue of a command (R70) -/

/-- All that the issue of a word can be: the refusal of an illegal one, or the run of its command. -/
theorem issue_cases (w : Word) (s : State) :
    (∃ e, decode w = .error e ∧ issue w s = .next (raise .ill { s with cmd := w })) ∨
    ∃ i, decode w = .ok i ∧ issue w s = exec i { s with cmd := w } := by
  unfold issue
  rcases decode w with e | i
  · exact .inl ⟨e, rfl, rfl⟩
  · exact .inr ⟨i, rfl, rfl⟩

/-- A step that takes a write to an idle `CMD` issues the word. -/
theorem step_of_command {s : State} {w : Word} {rest : List HostOp}
    (op : s.hostOps = .busWrite 0#32 4 w :: rest) (idle : s.flags.busy = false) :
    step s = issue w { s with hostOps := rest } :=
  (step_of_op op).trans (busWrite_cmd (s := { s with hostOps := rest }) idle w)

/-- Settles O4. -/
theorem stepRunsTheDecodedCommand : Obligations.StepRunsTheDecodedCommand := by
  intro s w i rest op idle decoded
  rw [step_of_command op idle]
  rcases issue_cases w { s with hostOps := rest } with ⟨e, error, -⟩ | ⟨j, ok, run⟩
  · cases decoded.symm.trans error
  · cases decoded.symm.trans ok
    exact run

end Sys2Proof.Machine
end

section
/-! 60_exceptions.md R220 and R221: every command ends in a next state, and its checks are made in their order. -/

namespace Sys2Proof.Machine

/-! ## The remaining commands without a check as single updates of the state -/

theorem exec_iirInit (k : Channel) (s : State) : exec (.iirInit k) s = .next { s with
    iir := channelSet s.iir k (iirInit cfg s.args.a0 s.args.a1).unit
    flags := { s.flags with divz := s.flags.divz || (iirInit cfg s.args.a0 s.args.a1).divz } } :=
  congrArg Host.Outcome.next (raiseIf_divz _ _)

theorem exec_iirReset (k : Channel) (s : State) : exec (.iirReset k) s = .next { s with
    iir := channelSet s.iir k (iirReset (channelGet s.iir k)) } := rfl

theorem exec_iirStep (k : Channel) (s : State) : exec (.iirStep k) s = .next { s with
    iir := channelSet s.iir k (iirStep (channelGet s.iir k) s.args.a0)
    res0 := (iirStep (channelGet s.iir k) s.args.a0).h } := rfl

theorem exec_crtReset (s : State) : exec .crtReset s = .next (resetTuningAndSync s) := rfl

/-! ## Every command completes (R220) -/

/-- Settles O46: a command without a check is an update of the state; one with a check ends in `refuseWith` or in
an update. -/
theorem everyCommandEndsInANextState : Obligations.EveryCommandEndsInANextState := by
  intro i s
  cases i with
  | nop => exact ⟨_, exec_nop s⟩
  | sincos14 => exact ⟨_, exec_sincos14 s⟩
  | expx => exact ⟨_, exec_expx s⟩
  | iirInit k => exact ⟨_, exec_iirInit k s⟩
  | iirReset k => exact ⟨_, exec_iirReset k s⟩
  | iirStep k => exact ⟨_, exec_iirStep k s⟩
  | eqInit k => exact ⟨_, exec_eqInit k s⟩
  | eqReset k => exact ⟨_, exec_eqReset k s⟩
  | eqStep k => exact ⟨_, exec_eqStep k s⟩
  | crtReset => exact ⟨_, exec_crtReset s⟩
  | crtInit => simp only [exec, execCrtInit]; split <;> exact ⟨_, rfl⟩
  | crtResize => simp only [exec, execCrtResize]; split <;> exact ⟨_, rfl⟩
  | encode => simp only [exec, execEncode]; (repeat' split) <;> exact ⟨_, rfl⟩
  | decode => simp only [exec, execDecode]; split <;> exact ⟨_, rfl⟩
  | rdsig buf => simp only [exec, execRdsig]; (repeat' split) <;> exact ⟨_, rfl⟩
  | wrsig buf => simp only [exec, execWrsig]; (repeat' split) <;> exact ⟨_, rfl⟩

/-! ## The checks of R221 -/

/-- A command passes the check of `INITD`. -/
def initChecked (i : Instr) (s : State) : Prop := needsInit i = true → s.signal ≠ none

/-- What a command that passes its checks does to `STATUS`: of the error bits it can set `DIVZ` alone, and CRT_INIT
alone sets `INITD`. -/
def reportsOnly (i : Instr) (s t : State) : Prop :=
  t.flags = { s.flags with divz := t.flags.divz } ∧ (s.flags.divz = true → t.flags.divz = true) ∧
    t.initd = (s.initd || decide (i = .crtInit))

/-- The three ends of a legal command, of which each excludes the others. -/
def checkedRun (i : Instr) (s t : State) : Prop :=
  (needsInit i = true ∧ s.signal = none ∧ t = raise .seq s) ∨
  (initChecked i s ∧ ¬ operandsLegal s.args i ∧ t = raise .arg s) ∨
  (initChecked i s ∧ operandsLegal s.args i ∧ reportsOnly i s t)

/-- A command without a check passes. -/
theorem checkedRun_unchecked {i : Instr} {s t : State} (need : needsInit i = false)
    (args : operandsLegal s.args i) (reports : reportsOnly i s t) : checkedRun i s t :=
  .inr (.inr ⟨fun h => (by cases need.symm.trans h), args, reports⟩)

/-- A command that keeps the flags and the presence of the memories reports nothing. -/
theorem reportsOnly_nothing {i : Instr} {s t : State} (h : i ≠ .crtInit) (flags : t.flags = s.flags)
    (initd : t.initd = s.initd) : reportsOnly i s t := by
  refine ⟨by rw [flags], fun d => flags ▸ d, by simpa [h] using initd⟩

/-- A command that can only add `DIVZ` reports nothing else. -/
theorem reportsOnly_divz {i : Instr} {s t : State} (h : i ≠ .crtInit) (b : Bool)
    (flags : t.flags = { s.flags with divz := s.flags.divz || b }) (initd : t.initd = s.initd) :
    reportsOnly i s t := by
  refine ⟨by rw [flags], fun d => by rw [flags]; simp [d], by simpa [h] using initd⟩

/-- A command that needs `INITD` and passes both checks. -/
theorem checkedRun_passed {i : Instr} {s t : State} {b : SignalBuffers} (h : i ≠ .crtInit) (hb : s.signal = some b)
    (args : operandsLegal s.args i) (flags : t.flags = s.flags) (initd : t.initd = true) : checkedRun i s t :=
  .inr (.inr ⟨fun _ => by simp [hb], args, reportsOnly_nothing h flags (by simpa [State.initd, hb] using initd)⟩)

/-- A command that fails its check of the operands. -/
theorem checkedRun_refused {i : Instr} {s : State} (init : initChecked i s) (args : ¬ operandsLegal s.args i) :
    checkedRun i s (raise .arg s) := .inr (.inl ⟨init, args, rfl⟩)

theorem initChecked_of_some {i : Instr} {s : State} {b : SignalBuffers} (hb : s.signal = some b) :
    initChecked i s := fun _ => by simp [hb]

/-- DECODE keeps the memories present. -/
theorem decodeField_initd (c : Cfg) (s : State) (b : SignalBuffers) : (decodeField c s b).initd = true := by
  simp only [State.initd, decodeField, Option.isSome_some]

/-- R221 for every legal command: all that it can end in. -/
theorem exec_checked {i : Instr} {s t : State} (legal : i.wellFormed = true) (run : exec i s = .next t) :
    checkedRun i s t := by
  cases i with
  | nop => cases run; exact checkedRun_unchecked rfl trivial (reportsOnly_nothing nofun rfl rfl)
  | sincos14 => cases run; exact checkedRun_unchecked rfl trivial (reportsOnly_nothing nofun rfl rfl)
  | expx =>
    rw [exec_expx] at run; cases run
    exact checkedRun_unchecked rfl trivial (reportsOnly_divz nofun _ rfl rfl)
  | iirInit k =>
    rw [exec_iirInit] at run; cases run
    exact checkedRun_unchecked rfl trivial (reportsOnly_divz nofun _ rfl rfl)
  | iirReset k => cases run; exact checkedRun_unchecked rfl trivial (reportsOnly_nothing nofun rfl rfl)
  | iirStep k => cases run; exact checkedRun_unchecked rfl trivial (reportsOnly_nothing nofun rfl rfl)
  | eqInit k =>
    rw [exec_eqInit] at run; cases run
    exact checkedRun_unchecked rfl trivial (reportsOnly_divz nofun _ rfl rfl)
  | eqReset k => cases run; exact checkedRun_unchecked rfl trivial (reportsOnly_nothing nofun rfl rfl)
  | eqStep k => cases run; exact checkedRun_unchecked rfl trivial (reportsOnly_nothing nofun rfl rfl)
  | crtReset => cases run; exact checkedRun_unchecked rfl trivial (reportsOnly_nothing nofun rfl rfl)
  | crtInit =>
    rcases execCrtInit_cases run with ⟨ok, rfl⟩ | ⟨bad, rfl⟩
    · refine checkedRun_unchecked rfl ((rasterArgsOk_iff s).1 ok) ⟨rfl, id, ?_⟩
      simp [State.initd]
    · exact checkedRun_refused nofun fun ok => Bool.eq_false_iff.1 bad ((rasterArgsOk_iff s).2 ok)
  | crtResize =>
    rcases execCrtResize_cases run with ⟨ok, rfl⟩ | ⟨bad, rfl⟩
    · exact checkedRun_unchecked rfl ((rasterArgsOk_iff s).1 ok) (reportsOnly_nothing nofun rfl rfl)
    · exact checkedRun_refused nofun fun ok => Bool.eq_false_iff.1 bad ((rasterArgsOk_iff s).2 ok)
  | encode =>
    rcases execEncode_cases run with ⟨none, rfl⟩ | ⟨b, hb, ⟨bad, rfl⟩ | ⟨ok, rfl⟩⟩
    · exact .inl ⟨rfl, none, rfl⟩
    · exact checkedRun_refused (initChecked_of_some hb) fun ok =>
        Bool.eq_false_iff.1 bad ((encodeArgsOk_iff s).2 ok)
    · exact checkedRun_passed nofun hb ((encodeArgsOk_iff s).1 ok) rfl rfl
  | decode =>
    rcases execDecode_cases run with ⟨none, rfl⟩ | ⟨b, hb, rfl⟩
    · exact .inl ⟨rfl, none, rfl⟩
    · exact checkedRun_passed nofun hb trivial (decodeField_flags cfg s b) (decodeField_initd cfg s b)
  | rdsig buf =>
    rcases execRdsig_cases run with ⟨none, rfl⟩ | ⟨b, hb, ⟨bad, rfl⟩ | ⟨ok, rfl⟩⟩
    · exact .inl ⟨rfl, none, rfl⟩
    · exact checkedRun_refused (initChecked_of_some hb) fun ok => Bool.eq_false_iff.1 bad ((sigArgsOk_iff s).2 ok)
    · exact checkedRun_passed nofun hb ((sigArgsOk_iff s).1 ok) rfl (congrArg Option.isSome hb)
  | wrsig buf =>
    rcases execWrsig_cases run with ⟨rfl, -⟩ | ⟨-, none, rfl⟩ | ⟨b, -, hb, ⟨bad, rfl⟩ | ⟨ok, rfl⟩⟩
    · cases legal
    · exact .inl ⟨rfl, none, rfl⟩
    · exact checkedRun_refused (initChecked_of_some hb) fun ok => Bool.eq_false_iff.1 bad ((sigArgsOk_iff s).2 ok)
    · exact checkedRun_passed nofun hb ((sigArgsOk_iff s).1 ok) rfl rfl

/-! ## The three ends, each from its own condition -/

theorem exec_seq {i : Instr} {s : State} (legal : i.wellFormed = true) (need : needsInit i = true)
    (none : s.signal = none) : exec i s = .next (raise .seq s) := by
  obtain ⟨t, run⟩ := everyCommandEndsInANextState i s
  rcases exec_checked legal run with ⟨-, -, rfl⟩ | ⟨init, -⟩ | ⟨init, -⟩
  · exact run
  · exact absurd none (init need)
  · exact absurd none (init need)

theorem exec_arg {i : Instr} {s : State} (legal : i.wellFormed = true) (init : initChecked i s)
    (args : ¬ operandsLegal s.args i) : exec i s = .next (raise .arg s) := by
  obtain ⟨t, run⟩ := everyCommandEndsInANextState i s
  rcases exec_checked legal run with ⟨need, none, -⟩ | ⟨-, -, rfl⟩ | ⟨-, ok, -⟩
  · exact absurd none (init need)
  · exact run
  · exact absurd ok args

theorem exec_passed {i : Instr} {s : State} (legal : i.wellFormed = true) (init : initChecked i s)
    (args : operandsLegal s.args i) : ∃ t, exec i s = .next t ∧ reportsOnly i s t := by
  obtain ⟨t, run⟩ := everyCommandEndsInANextState i s
  rcases exec_checked legal run with ⟨need, none, -⟩ | ⟨-, bad, -⟩ | ⟨-, -, reports⟩
  · exact absurd none (init need)
  · exact absurd args bad
  · exact ⟨t, run, reports⟩

/-! ## The obligations -/

/-- Settles O25. -/
theorem refusedCommandsSetOneFlag : Obligations.RefusedCommandsSetOneFlag := by
  intro s
  refine ⟨fun none => ⟨exec_seq rfl rfl none, exec_seq rfl rfl none⟩, fun init bad => ?_, rfl⟩
  refine exec_arg rfl (fun _ => init) fun ok => ?_
  have legal : 1 ≤ s.args.a1.toInt ∧ 1 ≤ s.args.a2.toInt := ok
  omega

/-- Settles O5: an illegal word does not decode, and a legal one's command ends as its checks say. -/
theorem commandChecksRunInOrder : Obligations.CommandChecksRunInOrder := by
  intro s w rest op idle
  rw [step_of_command op idle]
  rcases issue_cases w { s with hostOps := rest } with ⟨e, error, run⟩ | ⟨j, ok, run⟩ <;> rw [run]
  · exact ⟨fun _ => rfl, fun i decoded => by cases decoded.symm.trans error⟩
  · refine ⟨fun illegal => absurd (legalWord_of_decode ok) (Bool.eq_false_iff.1 illegal), fun i decoded => ?_⟩
    cases decoded.symm.trans ok
    have legal := wellFormed_of_decode ok
    refine ⟨legalWord_of_decode ok, fun need none => exec_seq legal need none,
      fun init args => exec_arg legal init args, fun init args => ?_⟩
    obtain ⟨t, done, flags, -⟩ := exec_passed (s := { s with cmd := w, hostOps := rest }) legal init args
    exact ⟨t, done, flags⟩

/-- No error bit that was 1 is 0, and `INITD` is kept. -/
def keepsSticky (s t : State) : Prop :=
  (s.flags.errIll = true → t.flags.errIll = true) ∧ (s.flags.errSeq = true → t.flags.errSeq = true) ∧
  (s.flags.errArg = true → t.flags.errArg = true) ∧ (s.flags.errBusy = true → t.flags.errBusy = true) ∧
  (s.flags.divz = true → t.flags.divz = true) ∧ (s.initd = true → t.initd = true)

theorem raise_initd (f : StickyFlag) (s : State) : (raise f s).initd = s.initd :=
  congrArg Option.isSome (raise_signal f s)

/-- Raising a flag clears none. -/
theorem keepsSticky_raise (f : StickyFlag) (s : State) : keepsSticky s (raise f s) := by
  cases f <;> simp [keepsSticky, raise_initd]

theorem keepsSticky_of_reportsOnly {i : Instr} {s t : State} (h : reportsOnly i s t) : keepsSticky s t := by
  obtain ⟨flags, divz, initd⟩ := h
  refine ⟨?_, ?_, ?_, ?_, divz, fun present => by simp [initd, present]⟩ <;> rw [flags] <;> exact id

/-- The one command term that is not legal. -/
theorem eq_wrsig_inp_of_not_wellFormed {i : Instr} (h : ¬ i.wellFormed = true) : i = .wrsig .inp := by
  cases i
  case wrsig buf => cases buf with
    | analog => exact absurd rfl h
    | inp => rfl
  all_goals exact absurd rfl h

/-- Settles O47: a refusal raises one flag, and a command that runs reports `DIVZ` at most. -/
theorem noCommandClearsAStickyBit : Obligations.NoCommandClearsAStickyBit := by
  intro i s t run
  by_cases legal : i.wellFormed = true
  · rcases exec_checked legal run with ⟨-, -, rfl⟩ | ⟨-, -, rfl⟩ | ⟨-, -, reports⟩
    · exact keepsSticky_raise .seq s
    · exact keepsSticky_raise .arg s
    · exact keepsSticky_of_reportsOnly reports
  · obtain rfl := eq_wrsig_inp_of_not_wellFormed legal
    cases run
    exact keepsSticky_raise .ill s

end Sys2Proof.Machine
end

section
/-! 10_state.md R22 to R36, 20_memory.md R53 and R58, 60_exceptions.md R223, 70_reset_and_hazards.md R240: what one
operation of the host does. -/

namespace Sys2Proof.Machine

/-! ## A register access of a whole word -/

theorem wholeWord_of_aligned {offset : Word} (h : offset.toNat % 4 = 0) : wholeWord offset 4 = true :=
  (wholeWord_iff offset 4).2 ⟨rfl, h⟩

/-- A step that takes a write to a register other than `CMD`, idle. -/
theorem step_of_regWrite {s : State} {offset v : Word} {rest : List HostOp} {r : Reg}
    (op : s.hostOps = .busWrite offset 4 v :: rest) (idle : s.flags.busy = false)
    (whole : wholeWord offset 4 = true) (reg : regAt offset = some r) (notCmd : r ≠ .cmd) :
    step s = .next (writeReg cfg { s with hostOps := rest } r v) :=
  (step_of_op op).trans (busWrite_reg (s := { s with hostOps := rest }) idle whole reg notCmd v)

/-- A step that takes a read of a register, idle. -/
theorem step_of_regRead {s : State} {offset : Word} {rest : List HostOp} {r : Reg}
    (op : s.hostOps = .busRead offset 4 :: rest) (idle : s.flags.busy = false)
    (whole : wholeWord offset 4 = true) (reg : regAt offset = some r) :
    step s = .next (observe (readReg { s with hostOps := rest } r) { s with hostOps := rest }) :=
  (step_of_op op).trans (busRead_reg (s := { s with hostOps := rest }) idle whole reg)

/-- A register does not show the host's list of operations. -/
theorem readReg_hostOps (s : State) (ops : List HostOp) (r : Reg) :
    readReg { s with hostOps := ops } r = readReg s r := by
  cases r <;> rfl

/-! ## STATUS (R23) -/

theorem statusBit_getLsbD (b : Bool) {n k : Nat} (hn : n < 32) :
    (statusBit b n).getLsbD k = (b && decide (k = n)) := by
  cases b
  · simp [statusBit]
  · by_cases h : k = n
    · simp [statusBit, h, hn]
    · by_cases lt : k < n
      · simp [statusBit, h, lt]
      · simp [statusBit, h, show k - n ≠ 0 by omega]

/-- STATUS as read, bit by bit. -/
theorem statusWord_getLsbD (s : State) (k : Nat) : (statusWord s).getLsbD k =
    (s.flags.busy && decide (k = 0) || s.initd && decide (k = 1) || s.flags.errIll && decide (k = 2) ||
      s.flags.errSeq && decide (k = 3) || s.flags.errArg && decide (k = 4) || s.flags.errBusy && decide (k = 5) ||
      s.flags.divz && decide (k = 6)) := by
  simp only [statusWord, BitVec.getLsbD_or, statusBit_getLsbD _ (show 0 < 32 by decide),
    statusBit_getLsbD _ (show 1 < 32 by decide), statusBit_getLsbD _ (show 2 < 32 by decide),
    statusBit_getLsbD _ (show 3 < 32 by decide), statusBit_getLsbD _ (show 4 < 32 by decide),
    statusBit_getLsbD _ (show 5 < 32 by decide), statusBit_getLsbD _ (show 6 < 32 by decide)]

/-- Every bit of STATUS from 7 on reads 0. -/
theorem statusWord_lt (s : State) : (statusWord s).toNat < 128 :=
  Nat.lt_pow_two_of_testBit (n := 7) _ fun k hk => by
    rw [BitVec.testBit_toNat, statusWord_getLsbD]
    simp [show k ≠ 0 by omega, show k ≠ 1 by omega, show k ≠ 2 by omega, show k ≠ 3 by omega,
      show k ≠ 4 by omega, show k ≠ 5 by omega, show k ≠ 6 by omega]

/-- Settles O53. -/
theorem statusReadsItsFieldsAndClearsErrorBits : Obligations.StatusReadsItsFieldsAndClearsErrorBits := by
  intro s rest
  constructor
  · intro op
    refine ⟨statusWord s, (step_of_op op).trans (busRead_status _), ?_, ?_, ?_, ?_, ?_, ?_, ?_, statusWord_lt s⟩ <;>
      rw [statusWord_getLsbD] <;> simp
  · intro v op
    exact (step_of_op op).trans (busWrite_status v _)

/-! ## Busy (R223) and narrow (R58) accesses -/

/-- Settles O54: STATUS stands at offset 4 alone. -/
theorem busyAccessesAreDropped : Obligations.BusyAccessesAreDropped := by
  intro s offset v rest busy other aligned
  have whole := wholeWord_of_aligned aligned
  have notStatus : regAt offset ≠ some .status := fun h => other (regAt_status h)
  exact ⟨fun op => (step_of_op op).trans (busWrite_busy (s := { s with hostOps := rest }) busy whole notStatus v),
    fun op => (step_of_op op).trans (busRead_busy (s := { s with hostOps := rest }) busy whole notStatus)⟩

/-- Settles O58. -/
theorem narrowHostAccessIsRefused : Obligations.NarrowHostAccessIsRefused := by
  intro s offset v bytes rest narrow
  have part := (wholeWord_false_iff offset bytes).2 narrow
  exact ⟨fun op => (step_of_op op).trans (busWrite_narrow part v _),
    fun op => (step_of_op op).trans (busRead_narrow part _)⟩

/-! ## The registers while idle (R25, R36, R59) -/

/-- A reduced value is the Euclidean remainder of the signed one (R7). -/
theorem pmodWord_eq (v : Word) {m : Nat} (hm : 0 < m) : pmodWord v m = BitVec.ofInt 32 (v.toInt % m) := by
  rw [← pmod_toInt v hm, BitVec.ofInt_natCast, pmodWord]

/-- Settles O55. -/
theorem hostWritesToTrackersAreReduced : Obligations.HostWritesToTrackersAreReduced := by
  intro s v rest idle
  constructor <;> intro op
  · rw [step_of_regWrite (r := .hsync) op idle (by decide) (by decide) nofun]
    simp only [writeReg, cfg_crtHres, pmodWord_eq v (show 0 < 910 by decide), Nat.cast_ofNat]
  · rw [step_of_regWrite (r := .vsync) op idle (by decide) (by decide) nofun]
    simp only [writeReg, cfg_crtVres, pmodWord_eq v (show 0 < 262 by decide), Nat.cast_ofNat]

/-- A register that takes no write. -/
def Reg.readOnly : Reg → Bool
  | .res0 | .res1 | .outw | .outh | .outBase | .fieldDet | .iirC _ | .iirH _ | .eqReg _ _ => true
  | _ => false

theorem writeReg_of_readOnly {r : Reg} (h : r.readOnly = true) (c : Cfg) (s : State) (v : Word) :
    writeReg c s r v = s := by
  cases r <;> first | rfl | cases h

theorem ne_cmd_of_readOnly {r : Reg} (h : r.readOnly = true) : r ≠ .cmd := by
  rintro rfl
  cases h

/-- The register map at the offsets R36 lists as read-only or beyond the read-write registers. -/
theorem readOnly_of_regAt {offset : Word} {r : Reg}
    (place : offset.toNat ∈ [0x020, 0x024, 0x04C, 0x050, 0x054, 0x05C] ∨ 0x070 ≤ offset.toNat)
    (reg : regAt offset = some r) : r.readOnly = true := by
  have listed : ∀ p ∈ regMap, (p.1 ∈ [0x020, 0x024, 0x04C, 0x050, 0x054, 0x05C] ∨ 0x070 ≤ p.1) →
      p.2.readOnly = true := by decide +kernel
  exact listed _ (mem_regMap reg) place

/-- A write to a reserved offset or to a read-only register changes nothing. -/
theorem step_of_ignoredWrite {s : State} {offset v : Word} {rest : List HostOp}
    (op : s.hostOps = .busWrite offset 4 v :: rest) (idle : s.flags.busy = false)
    (whole : wholeWord offset 4 = true) (ignored : ∀ r, regAt offset = some r → r.readOnly = true) :
    step s = .next { s with hostOps := rest } := by
  rcases reg : regAt offset with _ | r
  · exact (step_of_op op).trans (busWrite_reserved (s := { s with hostOps := rest }) idle whole reg v)
  · have ro := ignored r reg
    rw [step_of_regWrite op idle whole reg (ne_cmd_of_readOnly ro), writeReg_of_readOnly ro]

/-- Settles O56. -/
theorem readOnlyAndReservedOffsets : Obligations.ReadOnlyAndReservedOffsets := by
  intro s offset v rest idle aligned
  have whole := wholeWord_of_aligned aligned
  refine ⟨fun place op => step_of_ignoredWrite op idle whole fun r => readOnly_of_regAt place,
    fun shown op => ?_, fun place => ?_⟩
  · obtain ⟨r, reg, value⟩ := readOnlyShown_reg shown
    rw [step_of_regRead op idle whole reg, readReg_hostOps, value]
    rfl
  · have reserved := regAt_reserved place
    refine ⟨fun op => step_of_ignoredWrite op idle whole fun r reg => ?_, fun op => ?_⟩
    · cases reserved.symm.trans reg
    · exact (step_of_op op).trans (busRead_reserved (s := { s with hostOps := rest }) idle whole reserved)

/-- A read of a read-write register observes it. -/
theorem step_of_shownRead {s : State} {offset v : Word} {rest : List HostOp}
    (op : s.hostOps = .busRead offset 4 :: rest) (idle : s.flags.busy = false)
    (shown : (offset.toNat, v) ∈ readWriteShown s) :
    step s = .next { s with hostOps := rest, observed := v :: s.observed } := by
  obtain ⟨whole, r, reg, value⟩ := readWriteShown_reg shown
  rw [step_of_regRead op idle whole reg, readReg_hostOps, value]
  rfl

/-- Settles O57: a plain store is the register's write, and what it stored is what the offset then shows. -/
theorem readWriteRegistersReadBack : Obligations.ReadWriteRegistersReadBack := by
  intro s offset v rest idle
  refine ⟨fun shown op => step_of_shownRead op idle shown, fun t stored => ?_⟩
  obtain ⟨whole, ⟨flags, observed⟩, shown, r, notCmd, reg, write⟩ := storedBy_reg stored
  refine ⟨fun op => ?_, shown, fun op => ⟨{ t with hostOps := .busRead offset 4 :: rest }, ?_, ?_⟩⟩
  · rw [step_of_regWrite op idle whole reg notCmd, write]
  · rw [step_of_regWrite op idle whole reg notCmd, write]
  · have again := step_of_shownRead (s := { t with hostOps := .busRead offset 4 :: rest }) (rest := rest)
      rfl (by rw [← idle, ← flags]) shown
    rw [again, ← observed]

/-! ## XMEM and reset -/

/-- Settles O59. -/
theorem hostAccessesXmemWhileIdle : Obligations.HostAccessesXmemWhileIdle := by
  intro s a v rest
  refine ⟨fun idle op => ?_, fun idle op => ?_, fun busy op => ?_⟩
  · refine ⟨XMem.write s.xmem a v, ?_, fun a' => xmem_read_write s.xmem a a' v⟩
    rw [step_of_op op, hostStep, if_neg (by simp [idle])]
  · rw [step_of_op op, hostStep, if_neg (by simp [idle])]
    rfl
  · rcases op with op | op <;> rw [step_of_op op, hostStep, if_pos busy]

/-- After hardware reset STATUS reads 0. -/
theorem statusWord_hardwareReset (s : State) : statusWord (hardwareReset s) = 0#32 :=
  (show statusWord (hardwareReset s) = statusWord State.reset from rfl).trans (by decide)

/-- Settles O60. -/
theorem hardwareResetLeavesTheResetColumn : Obligations.HardwareResetLeavesTheResetColumn := by
  intro s rest op
  refine ⟨hardwareReset { s with hostOps := rest }, step_of_op op, rfl, rfl, rfl, rfl,
    statusWord_hardwareReset _, rfl, rfl, rfl, rfl, rfl,
    rfl, rfl, rfl, rfl, fun k => ?_, fun k => ?_, rfl, rfl, rfl⟩ <;> cases k <;> rfl

/-! ## All that a step can do -/

/-- All that a bus write can end in: the issue of a command, a register's write, nothing, or `ERR_BUSY`. -/
theorem busWrite_cases {offset : Word} {bytes : Nat} {v : Word} {s t : State}
    (h : busWrite offset bytes v s = .next t) :
    (s.flags.busy = false ∧ offset = 0#32 ∧ bytes = 4 ∧ issue v s = .next t) ∨
    (∃ r, t = writeReg cfg s r v) ∨ t = s ∨ t = raise .busy s := by
  rcases whole : wholeWord offset bytes with _ | _
  · rw [busWrite_narrow whole] at h
    cases h
  rcases busy : s.flags.busy with _ | _
  · rcases reg : regAt offset with _ | r
    · rw [busWrite_reserved busy whole reg] at h
      exact .inr (.inr (.inl (Host.Outcome.next.inj h).symm))
    · by_cases cmd : r = .cmd
      · subst cmd
        obtain rfl := regAt_cmd reg
        obtain ⟨rfl, -⟩ := (wholeWord_iff 0#32 bytes).1 whole
        rw [busWrite_cmd busy] at h
        exact .inl ⟨rfl, rfl, rfl, h⟩
      · rw [busWrite_reg busy whole reg cmd] at h
        exact .inr (.inl ⟨r, (Host.Outcome.next.inj h).symm⟩)
  · by_cases status : regAt offset = some .status
    · obtain rfl := regAt_status status
      obtain ⟨rfl, -⟩ := (wholeWord_iff 4#32 bytes).1 whole
      rw [busWrite_status] at h
      exact .inr (.inl ⟨.status, (Host.Outcome.next.inj h).symm⟩)
    · rw [busWrite_busy busy whole status] at h
      exact .inr (.inr (.inr (Host.Outcome.next.inj h).symm))

/-- All that a bus read can end in: an observation, with `ERR_BUSY` or without. -/
theorem busRead_cases {offset : Word} {bytes : Nat} {s t : State} (h : busRead offset bytes s = .next t) :
    ∃ v, t = observe v s ∨ t = observe v (raise .busy s) := by
  rcases whole : wholeWord offset bytes with _ | _
  · rw [busRead_narrow whole] at h
    cases h
  rcases busy : s.flags.busy with _ | _
  · rcases reg : regAt offset with _ | r
    · rw [busRead_reserved busy whole reg] at h
      exact ⟨_, .inl (Host.Outcome.next.inj h).symm⟩
    · rw [busRead_reg busy whole reg] at h
      exact ⟨_, .inl (Host.Outcome.next.inj h).symm⟩
  · by_cases status : regAt offset = some .status
    · obtain rfl := regAt_status status
      obtain ⟨rfl, -⟩ := (wholeWord_iff 4#32 bytes).1 whole
      rw [busRead_status] at h
      exact ⟨_, .inl (Host.Outcome.next.inj h).symm⟩
    · rw [busRead_busy busy whole status] at h
      exact ⟨_, .inr (Host.Outcome.next.inj h).symm⟩

/-- The ways a host operation can change the machine: each that answers a next state is one of these. -/
theorem hostStep_cases {op : HostOp} {s t : State} (h : hostStep op s = .next t) :
    (∃ w, op = .busWrite 0#32 4 w ∧ s.flags.busy = false ∧ issue w s = .next t) ∨
    (∃ r v, t = writeReg cfg s r v) ∨ t = s ∨ t = raise .busy s ∨
    (∃ v, t = observe v s ∨ t = observe v (raise .busy s)) ∨
    (∃ a v, t = { s with xmem := XMem.write s.xmem a v }) ∨ (op = .hwReset ∧ t = hardwareReset s) := by
  cases op with
  | busWrite offset bytes v =>
    rcases busWrite_cases h with ⟨idle, rfl, rfl, run⟩ | ⟨r, rfl⟩ | rfl | rfl
    · exact .inl ⟨v, rfl, idle, run⟩
    · exact .inr (.inl ⟨r, v, rfl⟩)
    · exact .inr (.inr (.inl rfl))
    · exact .inr (.inr (.inr (.inl rfl)))
  | busRead offset bytes => exact .inr (.inr (.inr (.inr (.inl (busRead_cases h)))))
  | xmemWrite a v =>
    simp only [hostStep] at h
    split at h <;> cases h
    exact .inr (.inr (.inr (.inr (.inr (.inl ⟨a, v, rfl⟩)))))
  | xmemRead a =>
    simp only [hostStep] at h
    split at h <;> cases h
    exact .inr (.inr (.inr (.inr (.inl ⟨_, .inl rfl⟩))))
  | hwReset => cases h; exact .inr (.inr (.inr (.inr (.inr (.inr ⟨rfl, rfl⟩)))))

/-- Settles O51: the only stops of a whole-word host are the race with a command, and the machine is idle. -/
theorem wholeWordHostsAreNeverStopped : Obligations.WholeWordHostsAreNeverStopped := by
  intro s
  refine ⟨fun inv host => ?_, fun none => by simp only [step, nextStep, none]⟩
  obtain ⟨idle, -⟩ := inv
  rcases ops : s.hostOps with _ | ⟨op, rest⟩
  · exact ⟨s, by simp only [step, nextStep, ops]⟩
  rw [step_of_op ops]
  have whole := host op (by simp [ops])
  have idle' : ({ s with hostOps := rest } : State).flags.busy = false := idle
  cases op with
  | busWrite offset bytes v =>
    rcases reg : regAt offset with _ | r
    · exact ⟨_, busWrite_reserved idle' whole reg v⟩
    by_cases cmd : r = .cmd
    · subst cmd
      obtain rfl := regAt_cmd reg
      obtain ⟨rfl, -⟩ := (wholeWord_iff 0#32 bytes).1 whole
      simp only [hostStep, busWrite_cmd idle']
      rcases issue_cases v { s with hostOps := rest } with ⟨e, -, run⟩ | ⟨i, -, run⟩ <;> rw [run]
      · exact ⟨_, rfl⟩
      · exact everyCommandEndsInANextState i _
    · exact ⟨_, busWrite_reg idle' whole reg cmd v⟩
  | busRead offset bytes =>
    rcases reg : regAt offset with _ | r
    · exact ⟨_, busRead_reserved idle' whole reg⟩
    · exact ⟨_, busRead_reg idle' whole reg⟩
  | xmemWrite a v => exact ⟨_, if_neg (by simp [idle])⟩
  | xmemRead a => exact ⟨_, if_neg (by simp [idle])⟩
  | hwReset => exact ⟨_, rfl⟩

/-! ## `INITD` (R23) -/

/-- A register write leaves the memories inside NCC alone. -/
theorem writeReg_initd (c : Cfg) (s : State) (r : Reg) (v : Word) : (writeReg c s r v).initd = s.initd := by
  cases r <;> rfl

/-- A command changes `INITD` by CRT_INIT alone, and sets it. -/
theorem initd_of_issue {w : Word} {s t : State} (run : issue w s = .next t) (changed : t.initd ≠ s.initd) :
    w = 0x20#32 ∧ t.initd = true := by
  rcases issue_cases w s with ⟨e, -, ill⟩ | ⟨i, ok, command⟩
  · cases ill.symm.trans run
    exact absurd (raise_initd .ill _) changed
  · rcases exec_checked (wellFormed_of_decode ok) (command.symm.trans run) with
      ⟨-, -, rfl⟩ | ⟨-, -, rfl⟩ | ⟨-, -, -, -, initd⟩
    · exact absurd (raise_initd .seq _) changed
    · exact absurd (raise_initd .arg _) changed
    · by_cases init : i = .crtInit
      · subst init
        exact ⟨((decodeAndEncodeAgree w .crtInit).1 ok).2.symm, by simpa using initd⟩
      · exact absurd (by simpa [init] using initd) changed

/-- Settles O48: of all that a step can do, only the issue of a command and hardware reset touch the memories. -/
theorem initdChangesOnlyByInitAndReset : Obligations.InitdChangesOnlyByInitAndReset := by
  intro s t run changed
  rcases ops : s.hostOps with _ | ⟨op, rest⟩
  · rw [step, nextStep, ops] at run
    cases run
    exact absurd rfl changed
  rw [step_of_op ops] at run
  rcases hostStep_cases run with ⟨w, rfl, -, issued⟩ | ⟨r, v, rfl⟩ | rfl | rfl | ⟨v, rfl | rfl⟩ | ⟨a, v, rfl⟩ |
    ⟨rfl, rfl⟩
  · obtain ⟨rfl, set⟩ := initd_of_issue issued changed
    exact .inr ⟨rest, rfl, set⟩
  · exact absurd (writeReg_initd _ _ _ _) changed
  · exact absurd rfl changed
  · exact absurd (raise_initd .busy _) changed
  · exact absurd rfl changed
  · exact absurd (raise_initd .busy _) changed
  · exact absurd rfl changed
  · exact .inl ⟨rest, rfl, rfl⟩

end Sys2Proof.Machine
end

section
/-! 44_decoder.md R174 to R177: the colour of an output pixel, the blend, the column loop and the vertical fill. -/

namespace Sys2Proof.Machine

/-! ## Words as counts -/

/-- A word that is not negative is its own count. -/
theorem toInt_eq_toNat_of_nonneg {a : Word} (h : 0 ≤ a.toInt) : a.toInt = a.toNat := by
  have bound := a.isLt
  rw [BitVec.toInt_eq_toNat_cond] at h ⊢
  split_ifs at h ⊢ <;> omega

theorem countOf_eq_toNat {a : Word} (h : 0 ≤ a.toInt) : countOf a = a.toNat := by
  rw [countOf, toInt_eq_toNat_of_nonneg h, Int.toNat_natCast]

/-- The flooring shift of a count is a quotient. -/
theorem countOf_sar {a : Word} (h : 0 ≤ a.toInt) (k : Nat) : countOf (sar a k) = a.toNat / 2 ^ k := by
  have quotient := sar_toInt a k
  rw [toInt_eq_toNat_of_nonneg h] at quotient
  rw [countOf, quotient]
  exact_mod_cast Int.toNat_natCast (a.toNat / 2 ^ k)

theorem ofNat_succ_word (n : Nat) : BitVec.ofNat 32 (n + 1) = 1#32 + BitVec.ofNat 32 n := by
  rw [Nat.add_comm, BitVec.ofNat_add]

/-- Two numbers below 2^32 stand for the same place from a word on only when they are equal. -/
theorem add_ofNat_inj {addr : Word} {m n : Nat} (hm : m < 2 ^ 32) (hn : n < 2 ^ 32)
    (h : addr + BitVec.ofNat 32 m = addr + BitVec.ofNat 32 n) : m = n := by
  have same := congrArg BitVec.toNat ((BitVec.add_right_inj addr).1 h)
  rwa [BitVec.toNat_ofNat, BitVec.toNat_ofNat, Nat.mod_eq_of_lt hm, Nat.mod_eq_of_lt hn] at same

/-! ## The blend (R176) -/

/-- The mask of the blend on a byte that loses its lowest bit. -/
theorem and_0xFE (y : Nat) : y &&& 0xFE = 2 * (y / 2 % 128) := by
  have high : (y &&& 0xFE) / 2 = y / 2 % 128 :=
    (Nat.and_div_two_pow (n := 1)).trans (Nat.and_two_pow_sub_one_eq_mod (y / 2) 7)
  have low : (y &&& 0xFE) % 2 = 0 := (Nat.and_mod_two_pow (n := 1)).trans (Nat.and_zero _)
  omega

/-- The mask of the blend: the lowest bit of red and of green is dropped, bits 31:24 with them. -/
theorem and_0xFEFEFF (n : Nat) :
    n &&& 0xFEFEFF = 2 * (n / 131072 % 128) * 65536 + 2 * (n / 512 % 128) * 256 + n % 256 := by
  have upper : (n &&& 0xFEFEFF) / 256 = n / 256 &&& 0xFEFE := Nat.and_div_two_pow (n := 8)
  have blue : (n &&& 0xFEFEFF) % 256 = n % 256 := by
    rw [show (n &&& 0xFEFEFF) % 256 = n % 256 &&& 0xFF from Nat.and_mod_two_pow (n := 8)]
    exact (Nat.and_two_pow_sub_one_eq_mod (n % 256) 8).trans (Nat.mod_mod _ _)
  have red : (n / 256 &&& 0xFEFE) / 256 = 2 * (n / 256 / 256 / 2 % 128) :=
    (Nat.and_div_two_pow (n := 8)).trans (and_0xFE _)
  have green : (n / 256 &&& 0xFEFE) % 256 = 2 * (n / 256 % 256 / 2 % 128) :=
    (Nat.and_mod_two_pow (n := 8)).trans (and_0xFE _)
  omega

/-- Half of each channel of a pixel word (R176). -/
theorem halvedChannels_toNat (w : Word) : (sar (w &&& 0xFEFEFF#32) 1).toNat =
    w.toNat / 65536 % 256 / 2 * 65536 + w.toNat / 256 % 256 / 2 * 256 + w.toNat % 256 / 2 := by
  have masked : (w &&& 0xFEFEFF#32).toNat = _ := (BitVec.toNat_and _ _).trans (and_0xFEFEFF w.toNat)
  rw [sar, BitVec.sshiftRight_eq_of_msb_false (BitVec.msb_eq_false_iff_two_mul_lt.2 (by omega)),
    BitVec.toNat_ushiftRight, Nat.shiftRight_eq_div_pow, masked]
  have half (y : Nat) : y % 256 / 2 = y / 2 % 128 := by omega
  rw [half, half, Nat.div_div_eq_div_mul, Nat.div_div_eq_div_mul]
  omega

/-- Settles O41: the two halves of a channel add up inside their own byte. -/
theorem blendHalvesEachChannel : Obligations.BlendHalvesEachChannel := by
  intro aa bb
  rw [blendWords, BitVec.toNat_add, halvedChannels_toNat, halvedChannels_toNat]
  omega

/-- A blended word has bits 31:24 zero (20_memory.md R54). -/
theorem blendWords_lt (aa bb : Word) : (blendWords aa bb).toNat < 2 ^ 24 := by
  rw [blendHalvesEachChannel]
  omega

/-! ## The colour of a pixel (R174, R175) -/

/-- A channel of R175 on integers. -/
theorem colourByte_toInt (con v : Word) :
    (colourByte con v).toInt = max 0 (min 255 (Int.tdiv (v.sshiftRight 12 * con).toInt 256)) := by
  rw [colourByte, clamp_toInt _ _ _ (by decide), tdiv_toInt _ _ (.inr (by decide))]
  rfl

theorem colourByte_lt (con v : Word) : (colourByte con v).toNat < 256 := by
  have value := colourByte_toInt con v
  have count := toInt_eq_toNat_of_nonneg (a := colourByte con v) (by omega)
  omega

/-- Three bytes packed into a pixel word. -/
theorem packBytes_toNat {r g b : Word} (hr : r.toNat < 256) (hg : g.toNat < 256) (hb : b.toNat < 256) :
    (shl r 16 ||| shl g 8 ||| b).toNat = r.toNat * 65536 + g.toNat * 256 + b.toNat := by
  have shifted {v : Word} (k : Nat) (h : v.toNat * 2 ^ k < 2 ^ 32) : (shl v k).toNat = v.toNat <<< k := by
    rw [shl, BitVec.toNat_shiftLeft, Nat.shiftLeft_eq, Nat.mod_eq_of_lt h]
  rw [BitVec.toNat_or, BitVec.toNat_or, shifted 16 (by omega), shifted 8 (by omega), Nat.or_assoc,
    ← Nat.shiftLeft_add_eq_or_of_lt (i := 8) (by omega),
    ← Nat.shiftLeft_add_eq_or_of_lt (i := 16) (by rw [Nat.shiftLeft_eq]; omega), Nat.shiftLeft_eq, Nat.shiftLeft_eq]
  omega

/-- The two weights and the two triples of R174, for a position that is not negative. -/
theorem resampleAt_eq (scratch : Array (PerChannel Word)) {p : Word} (h : 0 ≤ p.toInt) :
    resampleAt scratch p =
      let a := scratch.getD (p.toNat / 4096) zeroTriple
      let b := scratch.getD (p.toNat / 4096 + 1) zeroTriple
      let rw := BitVec.ofNat 32 (p.toNat % 4096)
      let lw := 4095#32 - rw
      { y := lerp 2 a.y b.y lw rw, i := lerp 14 a.i b.i lw rw, q := lerp 14 a.q b.q lw rw } := by
  have index : countOf (sar p 12) = p.toNat / 4096 := countOf_sar h 12
  have weight : p &&& 0xFFF#32 = BitVec.ofNat 32 (p.toNat % 4096) := by
    rw [← show (p &&& 0xFFF#32).toNat = p.toNat % 4096 from toNat_and_mask p (k := 12) (by decide)]
    simp
  simp only [resampleAt, index, weight]

/-- Settles O39. -/
theorem pixelColourFromTwoTriples : Obligations.PixelColourFromTwoTriples := by
  rintro scratch con p _ _ y i q _ _ nonneg rfl rfl rfl rfl hy hi hq byte
  have triple : resampleAt scratch p = ⟨y, i, q⟩ := by
    rw [resampleAt_eq scratch nonneg, hy, hi, hq]
    rfl
  have channel (v : Word) : ((colourByte con v).toNat : Int) = byte v := by
    rw [← toInt_eq_toNat_of_nonneg (by rw [colourByte_toInt]; omega), colourByte_toInt]
  have packed := packBytes_toNat (colourByte_lt con (y + 3879#32 * i + 2556#32 * q))
    (colourByte_lt con (y - 1126#32 * i - 2605#32 * q)) (colourByte_lt con (y - 4530#32 * i + 7021#32 * q))
  rw [triple, ← channel, ← channel, ← channel]
  exact_mod_cast packed

/-! ## The column loop (R174, R176) -/

/-- The end of the column loop: `m` of `n` positions from `p` on lie left of `scanR`, and the next one does not. -/
def columnsEnd (scanR dx p : Word) (n m : Nat) : Prop :=
  m ≤ n ∧ (∀ col, col < m → (p + BitVec.ofNat 32 col * dx).slt scanR = true) ∧
    (m < n → (p + BitVec.ofNat 32 m * dx).slt scanR = false)

/-- The position of a later column, counted from the next one. -/
theorem position_succ (p dx : Word) (col : Nat) :
    p + BitVec.ofNat 32 (col + 1) * dx = p + dx + BitVec.ofNat 32 col * dx := by
  rw [ofNat_succ_word, BitVec.add_mul, BitVec.one_mul, BitVec.add_assoc]

theorem address_succ (addr : Word) (col : Nat) :
    addr + BitVec.ofNat 32 (col + 1) = addr + 1#32 + BitVec.ofNat 32 col := by
  rw [ofNat_succ_word, BitVec.add_assoc]

theorem columnsEnd_succ {scanR dx p : Word} {n m : Nat} (h : columnsEnd scanR dx p (n + 1) (m + 1)) :
    p.slt scanR = true ∧ columnsEnd scanR dx (p + dx) n m := by
  obtain ⟨le, left, stop⟩ := h
  refine ⟨by simpa using left 0 (by omega), by omega, fun col hc => ?_, fun hm => ?_⟩
  · rw [← position_succ]
    exact left (col + 1) (by omega)
  · rw [← position_succ]
    exact stop (by omega)

/-- A loop without a column left of `scanR` does nothing. -/
theorem resampleRow_of_columnsEnd_zero (scratch : Array (PerChannel Word)) (con : Word) {scanR dx p : Word} {n : Nat}
    (addr : Word) (xmem : XMem) (h : columnsEnd scanR dx p n 0) :
    resampleRow scratch con scanR dx n p addr xmem = xmem := by
  obtain ⟨-, -, stop⟩ := h
  cases n with
  | zero => rfl
  | succ n => exact resampleRow_stop _ _ _ _ _ _ _ _ (by simpa using stop (by omega))

/-- The column loop touches no word but those of its columns. -/
theorem resampleRow_find_other (scratch : Array (PerChannel Word)) (con : Word) {scanR dx p : Word} {n m : Nat}
    (addr : Word) (xmem : XMem) (cols : columnsEnd scanR dx p n m) {a : Word}
    (h : ∀ col, col < m → a ≠ addr + BitVec.ofNat 32 col) :
    XMem.find (resampleRow scratch con scanR dx n p addr xmem) a = XMem.find xmem a := by
  induction n generalizing m p addr xmem with
  | zero => rfl
  | succ n ih =>
    cases m with
    | zero => rw [resampleRow_of_columnsEnd_zero _ _ _ _ cols]
    | succ m =>
      obtain ⟨go, rest⟩ := columnsEnd_succ cols
      rw [resampleRow_go _ _ _ _ _ _ _ _ go, ih _ _ rest, blendPixel_find, if_neg]
      · simpa using h 0 (by omega)
      · intro col hc
        rw [← address_succ]
        exact h (col + 1) (by omega)

/-- The column loop blends each of its columns once, over the word from before the loop. -/
theorem resampleRow_find_column (scratch : Array (PerChannel Word)) (con : Word) {scanR dx p : Word} {n m : Nat}
    (addr : Word) (xmem : XMem) (cols : columnsEnd scanR dx p n m) (hn : n ≤ 2 ^ 32) {col : Nat} (hc : col < m) :
    XMem.find (resampleRow scratch con scanR dx n p addr xmem) (addr + BitVec.ofNat 32 col) =
      some (blendWords (packedRgb con (resampleAt scratch (p + BitVec.ofNat 32 col * dx)))
        (XMem.read xmem (addr + BitVec.ofNat 32 col))) := by
  induction n generalizing m p addr xmem col with
  | zero => obtain ⟨le, -⟩ := cols; omega
  | succ n ih =>
    cases m with
    | zero => omega
    | succ m =>
      have le : m + 1 ≤ n + 1 := cols.1
      obtain ⟨go, rest⟩ := columnsEnd_succ cols
      rw [resampleRow_go _ _ _ _ _ _ _ _ go]
      cases col with
      | zero =>
        rw [resampleRow_find_other _ _ _ _ rest, blendPixel_find]
        · simp
        · intro c hc' same
          rw [← address_succ] at same
          exact absurd (add_ofNat_inj (by omega) (by omega) same) (by omega)
      | succ col =>
        have apart : addr + BitVec.ofNat 32 (col + 1) ≠ addr := fun same => by
          have := add_ofNat_inj (m := col + 1) (n := 0) (addr := addr) (by omega) (by omega) (by simpa using same)
          omega
        have untouched : XMem.read (blendPixel xmem addr (packedRgb con (resampleAt scratch p)))
            (addr + BitVec.ofNat 32 (col + 1)) = XMem.read xmem (addr + BitVec.ofNat 32 (col + 1)) := by
          rw [blendPixel, xmem_read_write, if_neg apart]
        rw [address_succ addr col] at untouched ⊢
        rw [ih _ _ rest (by omega) (by omega), untouched, position_succ]

theorem read_of_find {m : XMem} {a v : Word} (h : XMem.find m a = some v) : XMem.read m a = v := by
  rw [XMem.read, h, Option.getD_some]

/-- Settles O40: the columns before the end are blended, each in its own word, and the words from there on are
none of theirs. -/
theorem columnLoopBlendsEachPixel : Obligations.ColumnLoopBlendsEachPixel := by
  intro scratch con scanR dx p addr n m xmem hn le left stop
  have cols : columnsEnd scanR dx p n m := ⟨le, left, stop⟩
  refine ⟨fun col hc => read_of_find (resampleRow_find_column scratch con addr xmem cols hn hc),
    fun a h => resampleRow_find_other scratch con addr xmem cols h, fun col from_m to_n => ?_⟩
  refine resampleRow_find_other scratch con addr xmem cols fun c hc same => ?_
  exact absurd (add_ofNat_inj (by omega) (by omega) same) (by omega)

/-! ## The vertical fill (R177) -/

/-- A copy to words that it does not read makes each equal to its source. -/
theorem copyWords_read {n : Nat} {src dst : Word} (xmem : XMem) (hn : n ≤ 2 ^ 32)
    (apart : ∀ i j, i < n → j < n → dst + BitVec.ofNat 32 i ≠ src + BitVec.ofNat 32 j) {x : Nat} (hx : x < n) :
    XMem.read (copyWords n src dst xmem) (dst + BitVec.ofNat 32 x) = XMem.read xmem (src + BitVec.ofNat 32 x) := by
  induction n generalizing src dst xmem x with
  | zero => omega
  | succ n ih =>
    rw [copyWords]
    cases x with
    | zero =>
      have kept := copyWords_find_other n (src + 1#32) (dst + 1#32) dst (XMem.write xmem dst (XMem.read xmem src))
        fun i hi same => by
          rw [← address_succ] at same
          have := add_ofNat_inj (m := 0) (n := i + 1) (addr := dst) (by omega) (by omega) (by simpa using same)
          omega
      have written := xmem_find_write xmem dst dst (XMem.read xmem src)
      rw [if_pos rfl] at written
      simpa using read_of_find (kept.trans written)
    | succ x =>
      have first : src + BitVec.ofNat 32 (x + 1) ≠ dst := fun same => by
        refine apart 0 (x + 1) (by omega) hx ?_
        simpa using same.symm
      rw [address_succ dst x, ih _ (by omega) ?_ (by omega), ← address_succ src x, xmem_read_write, if_neg first]
      intro i j hi hj
      rw [← address_succ, ← address_succ]
      exact apart (i + 1) (j + 1) (by omega) (by omega)

/-- The rows copied so far by the vertical fill. -/
def filledRows (e : DecodeEnv) (beg : Word) (xmem : XMem) (n : Nat) : XMem :=
  (List.range n).foldl
    (fun xm r => copyWords (countOf e.outw) (rowAddr e (beg + ofCount r)) (rowAddr e (beg + 1#32 + ofCount r)) xm)
    xmem

theorem filledRows_succ (e : DecodeEnv) (beg : Word) (xmem : XMem) (n : Nat) :
    filledRows e beg xmem (n + 1) = copyWords (countOf e.outw) (rowAddr e (beg + ofCount n))
      (rowAddr e (beg + ofCount (n + 1))) (filledRows e beg xmem n) := by
  have next : beg + 1#32 + ofCount n = beg + ofCount (n + 1) := (address_succ beg n).symm
  simp only [filledRows, List.range_succ, List.foldl_append, List.foldl_cons, List.foldl_nil, next]

theorem verticalFill_eq (e : DecodeEnv) (beg fin : Word) (xmem : XMem) :
    verticalFill e beg fin xmem = filledRows e beg xmem (countOf (fin - beg - 1#32)) := rfl

/-- The fill touches no word but those of the rows it copies to. -/
theorem filledRows_find_other (e : DecodeEnv) (beg : Word) (xmem : XMem) (n : Nat) {a : Word}
    (h : ∀ r x, 1 ≤ r → r ≤ n → x < countOf e.outw → a ≠ rowAddr e (beg + ofCount r) + BitVec.ofNat 32 x) :
    XMem.find (filledRows e beg xmem n) a = XMem.find xmem a := by
  induction n with
  | zero => rfl
  | succ n ih =>
    rw [filledRows_succ, copyWords_find_other _ _ _ _ _ fun x hx => h (n + 1) x (by omega) le_rfl hx]
    exact ih fun r x lo hi => h r x lo (by omega)

/-- A word of a later row, counted from the first. -/
theorem rowAddr_add (e : DecodeEnv) (beg : Word) (r x : Nat) (pos : 0 ≤ e.outw.toInt) :
    rowAddr e (beg + ofCount r) + BitVec.ofNat 32 x =
      rowAddr e beg + BitVec.ofNat 32 (r * countOf e.outw + x) := by
  have width : BitVec.ofNat 32 (countOf e.outw) = e.outw := by rw [countOf_eq_toNat pos]; simp
  rw [rowAddr, rowAddr, BitVec.ofNat_add, BitVec.ofNat_mul, width, BitVec.add_mul, ofCount]
  simp only [BitVec.add_assoc]

/-- Words of rows that do not wrap around XMEM are different ones. -/
theorem rowAddr_ne {e : DecodeEnv} (beg : Word) {r x r' x' rows : Nat} (pos : 0 ≤ e.outw.toInt)
    (room : rows * countOf e.outw ≤ 2 ^ 32) (hr : r < rows) (hr' : r' < rows) (hx : x < countOf e.outw)
    (hx' : x' < countOf e.outw) (ne : r ≠ r') :
    rowAddr e (beg + ofCount r) + BitVec.ofNat 32 x ≠ rowAddr e (beg + ofCount r') + BitVec.ofNat 32 x' := by
  have inside {k y : Nat} (hk : k < rows) (hy : y < countOf e.outw) : k * countOf e.outw + y < 2 ^ 32 :=
    calc k * countOf e.outw + y < (k + 1) * countOf e.outw := by rw [Nat.succ_mul]; omega
      _ ≤ rows * countOf e.outw := Nat.mul_le_mul_right _ hk
      _ ≤ 2 ^ 32 := room
  intro same
  rw [rowAddr_add e beg r x pos, rowAddr_add e beg r' x' pos] at same
  have equal := add_ofNat_inj (inside hr hx) (inside hr' hx') same
  have quotient {k y : Nat} (hy : y < countOf e.outw) : (k * countOf e.outw + y) / countOf e.outw = k := by
    rw [Nat.mul_comm, Nat.mul_add_div (by omega), Nat.div_eq_of_lt hy, Nat.add_zero]
  exact ne ((quotient hx).symm.trans ((congrArg (· / countOf e.outw) equal).trans (quotient hx')))

/-- Where the rows do not wrap, each of those copied so far reads as the first did before. -/
theorem filledRows_read {e : DecodeEnv} (beg : Word) (xmem : XMem) {rows n : Nat} (pos : 0 ≤ e.outw.toInt)
    (room : rows * countOf e.outw ≤ 2 ^ 32) (hn : n < rows) {r x : Nat} (hr : r ≤ n) (hx : x < countOf e.outw) :
    XMem.read (filledRows e beg xmem n) (rowAddr e (beg + ofCount r) + BitVec.ofNat 32 x) =
      XMem.read xmem (rowAddr e beg + BitVec.ofNat 32 x) := by
  have width : countOf e.outw ≤ 2 ^ 32 := by
    have := e.outw.isLt
    rw [countOf_eq_toNat pos]
    omega
  induction n generalizing r x with
  | zero =>
    obtain rfl : r = 0 := by omega
    simp [filledRows, ofCount]
  | succ n ih =>
    rw [filledRows_succ]
    by_cases last : r = n + 1
    · subst last
      rw [copyWords_read _ width
        (fun i j hi hj => rowAddr_ne beg pos room (by omega) (by omega) hi hj (by omega)) hx]
      exact ih (by omega) (by omega) hx
    · rw [XMem.read, copyWords_find_other _ _ _ _ _ fun i hi =>
        rowAddr_ne beg pos room (by omega) (by omega) hx hi last]
      exact ih (by omega) (by omega) hx

/-- How many rows the fill copies to. -/
theorem countOf_rows {beg fin : Word} (h0 : 0 ≤ beg.toInt) (h1 : beg.toInt ≤ fin.toInt) :
    countOf (fin - beg - 1#32) = (fin.toInt - beg.toInt - 1).toNat := by
  have upper := BitVec.toInt_lt (x := fin)
  have one : (1#32 : Word).toInt = 1 := by decide
  have difference := sub_toInt (a := fin) (b := beg) (by omega) (by omega)
  rw [countOf, sub_toInt (by omega) (by omega), difference, one]

/-- Settles O42. -/
theorem verticalFillRepeatsTheRow : Obligations.VerticalFillRepeatsTheRow := by
  intro e beg fin xmem nonneg wide order room
  have pos : 0 ≤ e.outw.toInt := by omega
  have width : (countOf e.outw : Int) = e.outw.toInt := by rw [countOf_eq]; omega
  have rows := countOf_rows nonneg order
  have fits : (fin.toInt - beg.toInt).toNat * countOf e.outw ≤ 2 ^ 32 := by
    zify
    rw [width, Int.toNat_of_nonneg (by omega)]
    exact room
  rw [verticalFill_eq]
  constructor
  · intro r x hr hx
    refine filledRows_read beg xmem pos fits (by omega) (by omega) (by omega)
  · intro a outside
    exact filledRows_find_other e beg xmem _ fun r x lo hi hx => outside r x lo (by omega) (by omega)

end Sys2Proof.Machine
end

section
/-! 44_decoder.md R161 to R173: the sync searches, burst recovery, the bloom and the demodulation of one line, each
on integers. -/

namespace Sys2Proof.Machine

/-! ## Truncating quotients on integers -/

/-- What is left of a truncating quotient by a positive number has the sign of the dividend. -/
theorem tdiv_remainder (a : Int) {b : Int} (hb : 0 < b) :
    (0 ≤ a → 0 ≤ a - b * a.tdiv b ∧ a - b * a.tdiv b < b) ∧
    (a ≤ 0 → -b < a - b * a.tdiv b ∧ a - b * a.tdiv b ≤ 0) := by
  have split := Int.mul_tdiv_add_tmod a b
  constructor <;> intro ha
  · have lower := Int.tmod_nonneg b ha
    have upper := Int.tmod_lt_of_pos a hb
    omega
  · have lower := Int.tmod_nonneg b (a := -a) (by omega)
    have upper := Int.tmod_lt_of_pos (-a) hb
    rw [Int.neg_tmod] at lower upper
    omega

/-- A truncating quotient by a positive number lies between two bounds that its dividend lies between. -/
theorem tdiv_between {a b lo hi : Int} (hb : 0 < b) (hlo : lo ≤ 0) (hhi : 0 ≤ hi) (lower : (lo - 1) * b < a)
    (upper : a < (hi + 1) * b) : lo ≤ a.tdiv b ∧ a.tdiv b ≤ hi := by
  obtain ⟨pos, neg⟩ := tdiv_remainder a hb
  rcases le_total 0 a with ha | ha
  · obtain ⟨r0, r1⟩ := pos ha
    have q0 := Int.tdiv_nonneg ha hb.le
    exact ⟨by omega, by by_contra h; nlinarith⟩
  · obtain ⟨r0, r1⟩ := neg ha
    have q0 : a.tdiv b ≤ 0 := by by_contra h; nlinarith
    exact ⟨by by_contra h; nlinarith, by omega⟩

/-! ## Running sums on integers -/

theorem intSum_zero (f : Nat → Int) : intSum 0 f = 0 := rfl

theorem intSum_succ (n : Nat) (f : Nat → Int) : intSum (n + 1) f = intSum n f + f n := by
  simp [intSum, List.range_succ]

theorem intSum_succ_first (n : Nat) (f : Nat → Int) : intSum (n + 1) f = f 0 + intSum n (fun i => f (i + 1)) := by
  simp [intSum, List.range_succ_eq_map, Function.comp_def]

/-- A sum of values of at most `m` in absolute value. -/
theorem abs_intSum_le {f : Nat → Int} {m : Int} (h : ∀ i, |f i| ≤ m) (n : Nat) : |intSum n f| ≤ m * n := by
  induction n with
  | zero => simp [intSum_zero]
  | succ n ih =>
    rw [intSum_succ]
    have sum := abs_add_le (intSum n f) (f n)
    have last := h n
    push_cast
    linarith

/-- The running sum of small values does not wrap. -/
theorem runSum_toInt {value : Nat → Word} (small : ∀ i, |(value i).toInt| ≤ 128) (k n : Nat) {sum : Word}
    (room : |sum.toInt| + 128 * (n : Int) < 2147483648) :
    (runSum value k n sum).toInt = sum.toInt + intSum n (fun i => (value (k + i)).toInt) := by
  induction n generalizing k sum with
  | zero => simp [runSum, intSum_zero]
  | succ n ih =>
    obtain ⟨v0, v1⟩ := abs_le.1 (small k)
    push_cast at room
    have s0 := neg_abs_le sum.toInt
    have s1 := le_abs_self sum.toInt
    have added : (sum + value k).toInt = sum.toInt + (value k).toInt := add_toInt (by omega) (by omega)
    have grown := abs_add_le sum.toInt (value k).toInt
    have least := small k
    rw [runSum, ih (k + 1) (by rw [added]; linarith), added, intSum_succ_first, add_assoc]
    simp only [Nat.add_zero, Nat.add_assoc, Nat.add_comm 1]

/-- The running-sum test of the searches is the one on unbounded integers. -/
theorem crossAt_spec {threshold : Word} {value : Nat → Word} (small : ∀ i, |(value i).toInt| ≤ 128) {n : Nat}
    (hn : n < 2 ^ 20) :
    (∀ j, crossAt threshold value n 0 0#32 = some j →
      firstReach (fun i => (value i).toInt) threshold.toInt n j) ∧
    (crossAt threshold value n 0 0#32 = none → neverReach (fun i => (value i).toInt) threshold.toInt n) := by
  have sum (m : Nat) (hm : m ≤ n) :
      (runSum value 0 m 0#32).toInt = intSum m (fun i => (value i).toInt) := by
    rw [runSum_toInt small 0 m (by simp; omega)]
    simp
  have above {m : Nat} (hm : m ≤ n) (h : (runSum value 0 m 0#32).sle threshold = false) :
      threshold.toInt < intSum m (fun i => (value i).toInt) := by
    rw [← sum m hm]
    exact not_le.1 fun le => Bool.eq_false_iff.1 h (BitVec.sle_iff_toInt_le.2 le)
  constructor
  · intro j found
    obtain ⟨-, lt, reached, before⟩ := crossAt_some found
    rw [Nat.sub_zero] at reached before
    refine ⟨by omega, ?_, fun i hi => above (by omega) (before i hi)⟩
    rw [← sum (j + 1) (by omega)]
    exact BitVec.sle_iff_toInt_le.1 reached
  · intro nowhere i hi
    exact above (by omega) (crossAt_none nowhere i hi)

/-! ## Samples -/

theorem sext8_small (b : Sample) : |(sext8 b).toInt| ≤ 128 := by
  have bounds := sext8_bounds b
  rw [abs_le]
  omega

theorem sigRead_small (c : Cfg) (inp : Array Sample) (i : Word) : |(sigRead c inp i).toInt| ≤ 128 := sext8_small _

/-- A sample read past a place in the signal. -/
theorem sigRead_add (inp : Array Sample) {m n : Nat} (h : m + n < 2 ^ 31) :
    sigRead cfg inp (BitVec.ofNat 32 m + ofCount n) = (ringSample inp (m + n)).signExtend 32 := by
  rw [ofCount, ← BitVec.ofNat_add, sigRead_ofNat inp h]

/-! ## The vertical search (R162 to R164) -/

/-- The candidates in order, from `VSYNC − 8` on. -/
theorem vsyncCandidate_eq {vsync : Word} (h : vsync.toNat < 262) {k : Nat} (hk : k < 16) :
    vsyncCandidate cfg vsync k = (vsync.toNat + 254 + k) % 262 := by
  have start : vsync.toInt = vsync.toNat := BitVec.toInt_eq_toNat_of_lt (by omega)
  have window : (ofCount 8).toInt = 8 := by decide
  have offset : (ofCount k - ofCount 8).toInt = (k : Int) - 8 := by
    rw [sub_toInt, ofCount_toInt (by omega), window] <;> rw [ofCount_toInt (by omega), window] <;> omega
  have place : (vsync + (ofCount k - ofCount 8)).toInt = (vsync.toNat : Int) + (k - 8) := by
    rw [add_toInt (by omega) (by omega), offset, start]
  have reduced := pmod_toInt (vsync + (ofCount k - ofCount 8)) (m := 262) (by decide)
  rw [place] at reduced
  rw [vsyncCandidate, cfg_vsyncWindow, cfg_crtVres]
  omega

/-- The samples of a line, on integers. -/
def lineSamples (inp : Array Sample) (line k : Nat) : Int := (inp.getD (line * 910 + k) 0#8).toInt

theorem vsyncCrossing_spec (inp : Array Sample) (cand : Nat) :
    (∀ j, vsyncCrossing cfg inp cand = some j → firstReach (lineSamples inp cand) (-4000) 910 j) ∧
    (vsyncCrossing cfg inp cand = none → neverReach (lineSamples inp cand) (-4000) 910) := by
  have level : (100#32 * syncLevel).toInt = -4000 := by decide
  have samples : (fun i => (sext8 (inp.getD (sampleIndex cfg cand i) 0#8)).toInt) = lineSamples inp cand :=
    funext fun i => sext8_toInt _
  have test := crossAt_spec (threshold := 100#32 * syncLevel)
    (value := fun jj => sext8 (inp.getD (sampleIndex cfg cand jj) 0#8)) (fun _ => sext8_small _)
    (n := 910) (by decide)
  rwa [level, samples] at test

/-- The vertical search answers the first candidate that triggers, or the last one with the column 910. -/
theorem vsyncSearch_spec (inp : Array Sample) {vsync : Word} (h : vsync.toNat < 262) :
    (∃ k j, k < 16 ∧ firstReach (lineSamples inp ((vsync.toNat + 254 + k) % 262)) (-4000) 910 j ∧
      (∀ k', k' < k → neverReach (lineSamples inp ((vsync.toNat + 254 + k') % 262)) (-4000) 910) ∧
      vsyncSearch cfg inp vsync = ⟨(vsync.toNat + 254 + k) % 262, j⟩) ∨
    ((∀ k, k < 16 → neverReach (lineSamples inp ((vsync.toNat + 254 + k) % 262)) (-4000) 910) ∧
      vsyncSearch cfg inp vsync = ⟨(vsync.toNat + 254 + 15) % 262, 910⟩) := by
  have never {k : Nat} (hk : k < 16) (none : vsyncCrossing cfg inp (vsyncCandidate cfg vsync (0 + k)) = none) :
      neverReach (lineSamples inp ((vsync.toNat + 254 + k) % 262)) (-4000) 910 := by
    rw [Nat.zero_add] at none
    rw [← vsyncCandidate_eq h hk]
    exact (vsyncCrossing_spec inp _).2 none
  rcases vsyncSearchFrom_cases cfg inp vsync 16 0 0 with ⟨k, j, hk, found, before, answer⟩ | ⟨all, answer⟩
  · rw [Nat.zero_add] at found answer
    rw [vsyncCandidate_eq h hk] at found answer
    exact .inl ⟨k, j, hk, (vsyncCrossing_spec inp _).1 j found,
      fun k' hk' => never (by omega) (before k' hk'), answer⟩
  · rw [if_neg (by decide), vsyncCandidate_eq h (by decide)] at answer
    exact .inr ⟨fun k hk => never hk (all k hk), answer⟩

/-! ## The horizontal search (R167, R168) -/

/-- Where the horizontal search reads. -/
theorem hsyncFirst_add (ln : Nat) (hsync : Word) (k : Nat) :
    lineStart cfg ln + hsync + ofCount (syncBeg cfg) - ofCount cfg.hsyncWindow + ofCount k =
      BitVec.ofNat 32 (ln * 910 + hsync.toNat + 13) + ofCount k := by
  have first : lineStart cfg ln + hsync + ofCount (syncBeg cfg) - ofCount cfg.hsyncWindow =
      BitVec.ofNat 32 (ln * 910 + hsync.toNat + 13) := by
    simp only [lineStart, cfg_crtHres, syncBeg_cfg, cfg_hsyncWindow, ofCount]
    bv_omega
  rw [first]

/-- The offset of a search answer from the tracker. -/
theorem ofCount_sub_window {j : Nat} (hj : j < 16) : (ofCount j - ofCount 8).toInt = (j : Int) - 8 := by
  have window : (ofCount 8).toInt = 8 := by decide
  rw [sub_toInt, ofCount_toInt (by omega), window] <;> rw [ofCount_toInt (by omega), window] <;> omega

/-- What the search answers, on integers. -/
theorem hsyncShift_spec (inp : Array Sample) {ln : Nat} {hsync : Word} (hl : ln < 262) (hh : hsync.toNat < 910) :
    let value : Nat → Int := fun k => (ringSample inp (ln * 910 + hsync.toNat + 13 + k)).toInt
    (∃ j, firstReach value (-160) 16 j ∧ (hsyncShift cfg inp ln hsync).toInt = (j : Int) - 8) ∨
      (neverReach value (-160) 16 ∧ (hsyncShift cfg inp ln hsync).toInt = 8) := by
  intro value
  have level : (4#32 * syncLevel).toInt = -160 := by decide
  have samples {k : Nat} (hk : k < 16) : (sigRead cfg inp (lineStart cfg ln + hsync + ofCount (syncBeg cfg)
      - ofCount cfg.hsyncWindow + ofCount k)).toInt = value k := by
    rw [hsyncFirst_add, sigRead_add inp (by omega)]
    exact sext8_toInt _
  have sums {m : Nat} (hm : m ≤ 16) : intSum m (fun k => (sigRead cfg inp (lineStart cfg ln + hsync +
      ofCount (syncBeg cfg) - ofCount cfg.hsyncWindow + ofCount k)).toInt) = intSum m value := by
    unfold intSum
    refine congrArg List.sum (List.map_congr_left fun k hk => samples ?_)
    have := List.mem_range.1 hk
    omega
  obtain ⟨some_spec, none_spec⟩ := crossAt_spec (threshold := 4#32 * syncLevel)
    (value := fun k => sigRead cfg inp (lineStart cfg ln + hsync + ofCount (syncBeg cfg)
      - ofCount cfg.hsyncWindow + ofCount k)) (fun _ => sigRead_small _ _ _) (n := 16) (by decide)
  rw [level] at some_spec none_spec
  simp only [hsyncShift]
  split
  · rename_i j found
    obtain ⟨lt, reached, before⟩ := some_spec j found
    rw [sums (by omega)] at reached
    refine .inl ⟨j, ⟨lt, reached, fun i hi => ?_⟩, ofCount_sub_window lt⟩
    rw [← sums (by omega)]
    exact before i hi
  · rename_i nowhere
    refine .inr ⟨fun i hi => ?_, by decide⟩
    rw [← sums (by omega)]
    exact none_spec nowhere i hi

/-- Settles O33: the running sums are those of the ring from `HSYNC + 13` on, and no sum of the tracker wraps. -/
theorem horizontalSyncSearch : Obligations.HorizontalSyncSearch := by
  intro inp ln hsync hl hh value
  have start : hsync.toInt = hsync.toNat := BitVec.toInt_eq_toNat_of_lt (by omega)
  have next {k : Int} (lo : -8 ≤ k) (hi : k ≤ 8) (shift : (hsyncShift cfg inp ln hsync).toInt = k) :
      ((hsyncNext cfg inp ln hsync).toNat : Int) = ((hsync.toNat : Int) + k) % 910 := by
    rw [hsyncNext, cfg_crtHres, pmodWord_toNat _ (by decide) (by decide), pmod_toInt _ (by decide),
      add_toInt (by omega) (by omega), start, shift]
    rfl
  rcases hsyncShift_spec inp hl hh with ⟨j, reach, shift⟩ | ⟨never, shift⟩
  · have lt := reach.1
    exact ⟨_, .inl ⟨j, reach, rfl⟩, shift, next (by omega) (by omega) shift⟩
  · exact ⟨8, .inr ⟨never, rfl⟩, shift, next (by decide) (by decide) shift⟩

/-! ## Burst recovery (R169) -/

/-- Where burst recovery reads: from the 4-aligned tracker on. -/
theorem burstBase_eq (ln : Nat) (hsync : Word) :
    lineStart cfg ln + (hsync &&& ~~~3#32) = BitVec.ofNat 32 (ln * 910 + hsync.toNat / 4 * 4) := by
  have aligned : (hsync &&& ~~~3#32).toNat = hsync.toNat / 4 * 4 := by
    have masked : (hsync &&& ~~~3#32).toNat = hsync.toNat &&& 0xFFFFFFFC := BitVec.toNat_and _ _
    have quotient : (hsync.toNat &&& 0xFFFFFFFC) / 4 = hsync.toNat / 4 % 2 ^ 30 :=
      (Nat.and_div_two_pow (n := 2)).trans (Nat.and_two_pow_sub_one_eq_mod (hsync.toNat / 4) 30)
    have rest : (hsync.toNat &&& 0xFFFFFFFC) % 4 = 0 := (Nat.and_mod_two_pow (n := 2)).trans (Nat.and_zero _)
    omega
  rw [lineStart, cfg_crtHres, ofCount, BitVec.ofNat_add, ← aligned]
  simp

/-- The burst window of a line, register by register (R169). -/
theorem burstRecover_quadAt (inp : Array Sample) {ln : Nat} {hsync : Word} (ccref : Quad Word) {k : Nat}
    (hl : ln < 262) (hh : hsync.toNat < 910) (hk : k < 4) :
    quadAt (burstRecover cfg inp ln hsync ccref) k =
      (List.range 10).foldl
        (fun c j => BitVec.sdiv (c * 127#32) 128#32 +
          (ringSample inp (ln * 910 + hsync.toNat / 4 * 4 + (97 + (k + 3) % 4) + 4 * j)).signExtend 32)
        (quadAt ccref k) := by
  have updates := burstUpdate_foldl (fun t => sigRead cfg inp (lineStart cfg ln + (hsync &&& ~~~3#32) + ofCount t))
    97 k hk 10 ccref
  refine updates.trans (List.foldl_ext _ _ _ fun c j hj => ?_)
  have small := List.mem_range.1 hj
  have phase : 97 + (k + 4 - 97 % 4) % 4 + 4 * j = 97 + (k + 3) % 4 + 4 * j := by omega
  rw [burstBase_eq, phase, sigRead_add inp (by omega), ← Nat.add_assoc]
  rfl

/-- The samples of a noisy signal: none is −128 (R161). -/
def noisySamples (inp : Array Sample) : Prop := ∀ i, |(inp.getD i 0#8).toInt| ≤ 127

theorem sigRead_noisy {inp : Array Sample} (h : noisySamples inp) (c : Cfg) (i : Word) :
    |(sigRead c inp i).toInt| ≤ 127 := by
  rw [sigRead, sext8_toInt]
  exact h _

/-- A burst vector within R178 (h). -/
def burstBounded (q : Quad Word) : Prop := ∀ k, |(quadAt q k).toInt| ≤ 16256

theorem burstUpdate_bounded {q : Quad Word} (hq : burstBounded q) (t : Nat) {new : Word}
    (hn : |new.toInt| ≤ 127) : burstBounded (burstUpdate q t new) := by
  intro k
  rw [burstUpdate, quadAt_quadPut]
  split
  · obtain ⟨c0, c1⟩ := abs_le.1 (hq t)
    obtain ⟨n0, n1⟩ := abs_le.1 hn
    have f127 : (127#32 : Word).toInt = 127 := by decide
    have f128 : (128#32 : Word).toInt = 128 := by decide
    have product : (quadAt q t * 127#32).toInt = (quadAt q t).toInt * 127 := by
      rw [mul_toInt, f127] <;> rw [f127] <;> omega
    have average : (tdiv (quadAt q t * 127#32) 128#32).toInt = ((quadAt q t).toInt * 127).tdiv 128 := by
      rw [tdiv_toInt _ _ (.inr (by decide)), product, f128]
    obtain ⟨a0, a1⟩ := tdiv_between (a := (quadAt q t).toInt * 127) (b := 128) (lo := -16129) (hi := 16129)
      (by decide) (by decide) (by decide) (by omega) (by omega)
    rw [add_toInt (by omega) (by omega), average, abs_le]
    omega
  · exact hq k

/-- Burst recovery keeps the bound. -/
theorem burstRecover_bounded {c : Cfg} {inp : Array Sample} (h : noisySamples inp) (ln : Nat) (hsync : Word)
    {ccref : Quad Word} (hq : burstBounded ccref) : burstBounded (burstRecover c inp ln hsync ccref) := by
  unfold burstRecover
  induction List.range' (cbBeg c) (cbEnd c - cbBeg c) generalizing ccref with
  | nil => exact hq
  | cons t l ih => exact ih (burstUpdate_bounded hq t (sigRead_noisy h c _))

/-! ## Line energy and bloom (R172, R178) -/

/-- The line energy of a noisy signal. -/
theorem lineEnergy_bounded {inp : Array Sample} (h : noisySamples inp) (pos : Word) :
    |(lineEnergy cfg inp pos).toInt| ≤ 95631 := by
  have partialSum : ∀ n, n ≤ 753 →
      |((List.range n).foldl (fun e i => e + sigRead cfg inp (pos + ofCount i)) 0#32).toInt| ≤ 127 * n := by
    intro n
    induction n with
    | zero => intro _; simp
    | succ n ih =>
      intro hn
      have before := ih (by omega)
      rw [List.range_succ, List.foldl_append, List.foldl_cons, List.foldl_nil]
      generalize (List.range n).foldl _ _ = e at before ⊢
      have last := sigRead_noisy h cfg (pos + ofCount n)
      rw [abs_le] at before last ⊢
      rw [add_toInt (by omega) (by omega)]
      push_cast
      omega
  exact partialSum 753 le_rfl

/-- `max_e`, on integers (R166). -/
theorem maxEnergy_toInt {noise : Word} (h : 0 ≤ noise.toInt) (h' : noise.toInt ≤ 255) :
    (maxEnergy cfg noise).toInt = (128 + noise.toInt / 2) * 753 := by
  have two : (2#32 : Word).toInt = 2 := by decide
  have base : (128#32 : Word).toInt = 128 := by decide
  have length : (ofCount 753).toInt = 753 := by decide
  have half : (tdiv noise 2#32).toInt = noise.toInt / 2 := by
    rw [tdiv_toInt _ _ (.inr (by decide)), two, Int.tdiv_eq_ediv_of_nonneg h]
  have sum : (128#32 + tdiv noise 2#32).toInt = 128 + noise.toInt / 2 := by
    rw [add_toInt, half, base] <;> rw [half, base] <;> omega
  rw [maxEnergy, avLen_cfg, mul_toInt, sum, length] <;> rw [sum, length] <;> omega

/-- `prev_e` within R178 (c). -/
def energyBounded (p : Word) : Prop := -12903 ≤ p.toInt ∧ p.toInt ≤ 39117

/-- The bloom keeps `prev_e` in its range. -/
theorem bloomEnergy_bounded {noise e p : Word} (h : 0 ≤ noise.toInt) (h' : noise.toInt ≤ 255)
    (he : |e.toInt| ≤ 95631) (hp : energyBounded p) : energyBounded (bloomEnergy (maxEnergy cfg noise) p e) := by
  obtain ⟨p0, p1⟩ := hp
  obtain ⟨e0, e1⟩ := abs_le.1 he
  have maxE := maxEnergy_toInt h h'
  generalize maxEnergy cfg noise = m at maxE ⊢
  have f2 : (2#32 : Word).toInt = 2 := by decide
  have f123 : (123#32 : Word).toInt = 123 := by decide
  have f128 : (128#32 : Word).toInt = 128 := by decide
  have f1024 : (1024#32 : Word).toInt = 1024 := by decide
  have kept : (tdiv (p * 123#32) 128#32).toInt = (p.toInt * 123).tdiv 128 := by
    rw [tdiv_toInt _ _ (.inr (by decide)), mul_toInt, f123, f128] <;> rw [f123] <;> omega
  have half : (tdiv m 2#32).toInt = m.toInt / 2 := by
    rw [tdiv_toInt _ _ (.inr (by decide)), f2, Int.tdiv_eq_ediv_of_nonneg (by omega)]
  have lack : (tdiv m 2#32 - e).toInt = m.toInt / 2 - e.toInt := by
    rw [sub_toInt, half] <;> rw [half] <;> omega
  have scaled : ((tdiv m 2#32 - e) * 1024#32).toInt = (m.toInt / 2 - e.toInt) * 1024 := by
    rw [mul_toInt, lack, f1024] <;> rw [lack, f1024] <;> omega
  have added : (tdiv ((tdiv m 2#32 - e) * 1024#32) m).toInt = ((m.toInt / 2 - e.toInt) * 1024).tdiv m.toInt := by
    rw [tdiv_toInt _ _ (.inr (by omega)), scaled]
  obtain ⟨k0, k1⟩ := tdiv_between (a := p.toInt * 123) (b := 128) (lo := -12399) (hi := 37589)
    (by decide) (by decide) (by decide) (by omega) (by omega)
  obtain ⟨a0, a1⟩ := tdiv_between (a := (m.toInt / 2 - e.toInt) * 1024) (b := m.toInt) (lo := -504) (hi := 1528)
    (by omega) (by decide) (by decide) (by omega) (by omega)
  unfold energyBounded
  rw [bloomEnergy, add_toInt (by omega) (by omega), kept, added]
  omega

/-- `line_w`, on integers (R172). -/
theorem lineWidth_toInt {p : Word} (hp : energyBounded p) :
    (lineWidth cfg p).toInt = 658 + p.toInt.tdiv 512 ∧ 633 ≤ (lineWidth cfg p).toInt ∧
      (lineWidth cfg p).toInt ≤ 734 := by
  obtain ⟨p0, p1⟩ := hp
  have base : (tdiv (ofCount 753 * 112#32) 128#32).toInt = 658 := by decide
  have quotient : (tdiv p 512#32).toInt = p.toInt.tdiv 512 := tdiv_toInt _ _ (.inr (by decide))
  obtain ⟨q0, q1⟩ := tdiv_between (a := p.toInt) (b := 512) (lo := -25) (hi := 76)
    (by decide) (by decide) (by decide) (by omega) (by omega)
  have width : (lineWidth cfg p).toInt = 658 + p.toInt.tdiv 512 := by
    rw [lineWidth, avLen_cfg, add_toInt, base, quotient] <;> rw [base, quotient] <;> omega
  omega

/-- `scanL`, on integers (R172). -/
theorem scanLeft_toInt {w : Word} (h : 633 ≤ w.toInt) (h' : w.toInt ≤ 734) :
    (scanLeft cfg w).toInt = (384 - w.toInt / 2) * 4096 := by
  have f2 : (2#32 : Word).toInt = 2 := by decide
  have f8 : (8#32 : Word).toInt = 8 := by decide
  have f4096 : (4096#32 : Word).toInt = 4096 := by decide
  have middle : (tdiv (ofCount 753) 2#32).toInt = 376 := by decide
  have half : (tdiv w 2#32).toInt = w.toInt / 2 := by
    rw [tdiv_toInt _ _ (.inr (by decide)), f2, Int.tdiv_eq_ediv_of_nonneg (by omega)]
  have margin : (tdiv (ofCount 753) 2#32 - tdiv w 2#32).toInt = 376 - w.toInt / 2 := by
    rw [sub_toInt, middle, half] <;> rw [middle, half] <;> omega
  have left : (tdiv (ofCount 753) 2#32 - tdiv w 2#32 + 8#32).toInt = 384 - w.toInt / 2 := by
    rw [add_toInt, margin, f8] <;> [skip; (rw [margin, f8]; omega); (rw [margin, f8]; omega)]
    omega
  rw [scanLeft, avLen_cfg, mul_toInt, left, f4096] <;> rw [left, f4096] <;> omega

/-- The step from column to column: `OUTW` steps stay within `line_w` (R172). -/
theorem scanStep_toInt {w outw : Word} (h : 0 ≤ w.toInt) (h' : w.toInt ≤ 734) (hw : 0 < outw.toInt) :
    ∃ dx : Int, (scanStep w outw).toInt = dx ∧ 0 ≤ dx ∧ outw.toInt * dx ≤ w.toInt * 4096 := by
  have f4096 : (4096#32 : Word).toInt = 4096 := by decide
  have span : (w * 4096#32).toInt = w.toInt * 4096 := by
    rw [mul_toInt, f4096] <;> rw [f4096] <;> omega
  have whole := ((tdiv_remainder (w.toInt * 4096) hw).1 (by omega)).1
  refine ⟨(w.toInt * 4096).tdiv outw.toInt, ?_, Int.tdiv_nonneg (by omega) hw.le, by omega⟩
  rw [scanStep, tdiv_toInt _ _ (.inr (by omega)), span]

/-- The position of a column of a row, on integers: no column reaches `scanL + line_w`. -/
theorem columnPosition_bounds {w outw : Word} (h : 633 ≤ w.toInt) (h' : w.toInt ≤ 734) {col : Nat}
    (hc : (col : Int) < outw.toInt) :
    69632 ≤ (scanLeft cfg w + BitVec.ofNat 32 col * scanStep w outw).toInt ∧
      (scanLeft cfg w + BitVec.ofNat 32 col * scanStep w outw).toInt < 3080192 := by
  have left := scanLeft_toInt h h'
  have room : w.toInt * 4096 < 2147483648 := by omega
  have column : (BitVec.ofNat 32 col).toInt = col := ofCount_toInt (by have := BitVec.toInt_lt (x := outw); omega)
  obtain ⟨dx, step, dxNonneg, whole⟩ := scanStep_toInt (outw := outw) (by omega) h' (by omega)
  have covered : (col : Int) * dx ≤ w.toInt * 4096 := (mul_le_mul_of_nonneg_right hc.le dxNonneg).trans whole
  have coveredNonneg : 0 ≤ (col : Int) * dx := mul_nonneg (Int.natCast_nonneg col) dxNonneg
  have offset : (BitVec.ofNat 32 col * scanStep w outw).toInt = col * dx := by
    have product : (BitVec.ofNat 32 col).toInt * (scanStep w outw).toInt = col * dx := by rw [column, step]
    exact (mul_toInt (product ▸ by linarith) (product ▸ by linarith)).trans product
  generalize (col : Int) * dx = x at covered coveredNonneg offset
  have sum : (scanLeft cfg w + BitVec.ofNat 32 col * scanStep w outw).toInt = (384 - w.toInt / 2) * 4096 + x := by
    rw [add_toInt, left, offset] <;> rw [left, offset] <;> omega
  omega

/-- Settles O36. -/
theorem bloomStaysInBounds : Obligations.BloomStaysInBounds := by
  intro noise e p h h' he p0 p1 p'
  have bounded : energyBounded p' := bloomEnergy_bounded h h' he ⟨p0, p1⟩
  obtain ⟨-, w0, w1⟩ := lineWidth_toInt bounded
  have left := scanLeft_toInt w0 w1
  have column : ((scanLeft cfg (lineWidth cfg p')).sshiftRight 12).toInt =
      (scanLeft cfg (lineWidth cfg p')).toInt / 4096 := sar_toInt _ 12
  refine ⟨bounded, ⟨w0, w1⟩, by omega, by omega, fun outw col hc => ?_⟩
  exact columnPosition_bounds w0 w1 hc

/-! ## Demodulation (R173) -/

/-- The third next phase of a wave is the phase of the wave turned by one. -/
theorem quadAt_add_three (q : Quad Word) (i : Nat) : quadAt q (i + 3) = quadAt ⟨q.p3, q.p0, q.p1, q.p2⟩ i := by
  have phase : i % 4 = 0 ∨ i % 4 = 1 ∨ i % 4 = 2 ∨ i % 4 = 3 := by omega
  have next : (i + 3) % 4 = (i % 4 + 3) % 4 := by omega
  unfold quadAt
  rcases phase with h | h | h | h <;> simp only [next, h]

/-- One demodulated sample, from what is read at its place. -/
theorem demodSample_of_read {inp : Array Sample} {pos sg : Word} {i : Nat} (bright : Word) (wave : Quad Word)
    (d : Demod) (read : sigRead cfg inp (pos + ofCount i) = sg) :
    demodSample cfg inp pos bright wave d i =
      { eq := ⟨(eqStep d.eq.y (sg + bright)).unit, (eqStep d.eq.i (sar (sg * quadAt wave i) 9)).unit,
          (eqStep d.eq.q (sar (sg * quadAt ⟨wave.p3, wave.p0, wave.p1, wave.p2⟩ i) 9)).unit⟩
        scratch := d.scratch.setIfInBounds i ⟨shl (eqStep d.eq.y (sg + bright)).out 4,
          sar (eqStep d.eq.i (sar (sg * quadAt wave i) 9)).out 3,
          sar (eqStep d.eq.q (sar (sg * quadAt ⟨wave.p3, wave.p0, wave.p1, wave.p2⟩ i) 9)).out 3⟩ } := by
  simp only [demodSample, read, quadAt_add_three]

/-- Settles O38. -/
theorem demodulateOneSample : Obligations.DemodulateOneSample := by
  rintro inp pos bright sg wave d i _ _ _ room sample rfl rfl rfl
  have read : sigRead cfg inp (pos + ofCount i) = sg := by
    have place := sigRead_add inp room
    rw [BitVec.ofNat_toNat, BitVec.setWidth_eq] at place
    rw [place, sample]
  rw [demodSample_of_read bright wave d read]
  exact ⟨rfl, fun inside => set_getD_self _ _ _ inside, fun j hj => set_getD_ne _ _ _ (Ne.symm hj)⟩

/-- The window of the demodulation as a loop over consecutive numbers. -/
theorem demodLine_eq (inp : Array Sample) (pos bright : Word) (wave : Quad Word) (scanL : Word) (d : Demod) :
    demodLine cfg inp pos bright wave scanL d =
      (List.range' (countOf (sar scanL 12)) (752 - countOf (sar scanL 12))).foldl
        (demodSample cfg inp pos bright wave) { d with eq := resetEqs d.eq } := by
  have right : countOf (sar (scanRight cfg) 12) = 752 := by decide
  simp only [demodLine, right]

/-- What the reset and every sample of the window keep, demodulating the line keeps. -/
theorem demodLine_induction {inp : Array Sample} {pos bright scanL : Word} {wave : Quad Word} {d : Demod}
    {P : Demod → Prop} (first : P { d with eq := resetEqs d.eq })
    (next : ∀ d' i, countOf (sar scanL 12) ≤ i → i < 752 → P d' → P (demodSample cfg inp pos bright wave d' i)) :
    P (demodLine cfg inp pos bright wave scanL d) := by
  rw [demodLine_eq]
  refine List.foldlRecOn _ _ first fun d' hd' i hi => ?_
  obtain ⟨lo, hi⟩ := List.mem_range'_1.1 hi
  exact next d' i lo (by omega) hd'

/-- The coefficients of three equalizers that an update of each keeps. -/
theorem keepsCoefficients_mk {e e' : PerChannel EqUnit}
    (y : e'.y.lf = e.y.lf ∧ e'.y.hf = e.y.hf ∧ e'.y.g0 = e.y.g0 ∧ e'.y.g1 = e.y.g1 ∧ e'.y.g2 = e.y.g2)
    (i : e'.i.lf = e.i.lf ∧ e'.i.hf = e.i.hf ∧ e'.i.g0 = e.i.g0 ∧ e'.i.g1 = e.i.g1 ∧ e'.i.g2 = e.i.g2)
    (q : e'.q.lf = e.q.lf ∧ e'.q.hf = e.q.hf ∧ e'.q.g0 = e.q.g0 ∧ e'.q.g1 = e.q.g1 ∧ e'.q.g2 = e.q.g2) :
    keepsCoefficients e e' := fun k => by
  cases k
  · exact y
  · exact i
  · exact q

theorem keepsCoefficients_trans {e e' e'' : PerChannel EqUnit} (h : keepsCoefficients e e')
    (h' : keepsCoefficients e' e'') : keepsCoefficients e e'' := fun k => by
  obtain ⟨a1, a2, a3, a4, a5⟩ := h k
  obtain ⟨b1, b2, b3, b4, b5⟩ := h' k
  exact ⟨b1.trans a1, b2.trans a2, b3.trans a3, b4.trans a4, b5.trans a5⟩

theorem demodSample_keepsCoefficients (c : Cfg) (inp : Array Sample) (pos bright : Word) (wave : Quad Word)
    (d : Demod) (i : Nat) : keepsCoefficients d.eq (demodSample c inp pos bright wave d i).eq := by
  obtain ⟨y, ci, cq, eq, -⟩ := demodSample_cases c inp pos bright wave d i
  rw [eq]
  refine keepsCoefficients_mk ?_ ?_ ?_ <;> simp

theorem demodLine_keepsCoefficients (inp : Array Sample) (pos bright scanL : Word) (wave : Quad Word) (d : Demod) :
    keepsCoefficients d.eq (demodLine cfg inp pos bright wave scanL d).eq :=
  demodLine_induction (P := fun d' => keepsCoefficients d.eq d'.eq)
    (keepsCoefficients_mk ⟨rfl, rfl, rfl, rfl, rfl⟩ ⟨rfl, rfl, rfl, rfl, rfl⟩ ⟨rfl, rfl, rfl, rfl, rfl⟩)
    fun d' i _ _ h => keepsCoefficients_trans h (demodSample_keepsCoefficients cfg inp pos bright wave d' i)

/-- SCRATCH outside the window, and its size, through the demodulation of a line. -/
theorem demodLine_scratch (inp : Array Sample) (pos bright scanL : Word) (wave : Quad Word) (d : Demod) :
    (demodLine cfg inp pos bright wave scanL d).scratch.size = d.scratch.size ∧
    ∀ i, i < countOf (sar scanL 12) ∨ 752 ≤ i →
      (demodLine cfg inp pos bright wave scanL d).scratch.getD i zeroTriple = d.scratch.getD i zeroTriple := by
  refine demodLine_induction (P := fun d' => d'.scratch.size = d.scratch.size ∧
    ∀ i, i < countOf (sar scanL 12) ∨ 752 ≤ i → d'.scratch.getD i zeroTriple = d.scratch.getD i zeroTriple)
    ⟨rfl, fun _ _ => rfl⟩ fun d' i lo hi ⟨size, kept⟩ => ?_
  obtain ⟨y, ci, cq, -, scratch⟩ := demodSample_cases cfg inp pos bright wave d' i
  rw [scratch]
  exact ⟨by rw [Array.size_setIfInBounds, size],
    fun j outside => (set_getD_ne _ _ _ (by omega)).trans (kept j outside)⟩

/-- Settles O37. -/
theorem demodulationRunsThroughItsWindow : Obligations.DemodulationRunsThroughItsWindow := by
  rintro inp pos bright scanL wave d lo rfl
  obtain ⟨size, kept⟩ := demodLine_scratch inp pos bright scanL wave d
  refine ⟨?_, kept, size, demodLine_keepsCoefficients inp pos bright scanL wave d⟩
  obtain ⟨f, first, next, last⟩ := foldl_range'_run (demodSample cfg inp pos bright wave)
    { d with eq := resetEqs d.eq } (countOf (sar scanL 12)) (752 - countOf (sar scanL 12))
  refine ⟨f, first, fun i lo hi => next i lo (by omega), ?_⟩
  rw [demodLine_eq, last]
  exact congrArg f (by rw [countOf, sar]; omega)

end Sys2Proof.Machine
end

section
/-! 44_decoder.md R160, R165 and R166 and what R178 and R180 say of the whole command: DECODE as a run of its lines. -/

namespace Sys2Proof.Machine

/-! ## The parts of DECODE -/

/-- The noisy signal of a DECODE and the generator after it. -/
def decodeNoise (s : State) (b : SignalBuffers) : NoiseState :=
  injectNoise (noiseArg s) s.rn (samplesOf cfg b.analog)

/-- What its vertical search finds. -/
def decodeVSync (s : State) (b : SignalBuffers) : VSync := vsyncSearch cfg (decodeNoise s b).inp s.vsync

/-- Its frame constants. -/
def frameEnv (s : State) (b : SignalBuffers) : DecodeEnv :=
  decodeEnv cfg s (decodeNoise s b).inp (decodeVSync s b)

/-- What its last line leaves. -/
def lastLineState (s : State) (b : SignalBuffers) : LineState :=
  decodeLines cfg (frameEnv s b) (firstLineState cfg s b)

/-- The update of the state that DECODE makes of its parts: the noise, the vertical search and the lines. -/
def decodedState (s : State) (b : SignalBuffers) (n : NoiseState) (v : VSync) (st : LineState) : State :=
  { s with
    hsync := st.hsync, vsync := ofCount v.cand, rn := n.rn, fieldDet := recoveredField cfg v.j, ccref := st.ccref
    eq := st.eq, signal := some { b with inp := memoryOf n.inp, scratch := scratchOf st.scratch }, xmem := st.xmem }

theorem decodeField_eq (s : State) (b : SignalBuffers) :
    decodeField cfg s b = decodedState s b (decodeNoise s b) (decodeVSync s b) (lastLineState s b) := by
  simp only [decodeField, decodedState, lastLineState, frameEnv, decodeVSync, decodeNoise]

section DecodedState

variable (s : State) (b : SignalBuffers) (n : NoiseState) (v : VSync) (st : LineState)

theorem decodedState_hsync : (decodedState s b n v st).hsync = st.hsync := rfl
theorem decodedState_vsync : (decodedState s b n v st).vsync = ofCount v.cand := rfl
theorem decodedState_fieldDet : (decodedState s b n v st).fieldDet = recoveredField cfg v.j := rfl
theorem decodedState_ccref : (decodedState s b n v st).ccref = st.ccref := rfl
theorem decodedState_eqs : (decodedState s b n v st).eq = st.eq := rfl
theorem decodedState_xmem : (decodedState s b n v st).xmem = st.xmem := rfl
theorem decodedState_signal : (decodedState s b n v st).signal =
    some { b with inp := memoryOf n.inp, scratch := scratchOf st.scratch } := rfl

/-- All that the update leaves alone. -/
theorem decodedState_frame : decodedState s b n v st = { s with
    hsync := (decodedState s b n v st).hsync, vsync := (decodedState s b n v st).vsync
    rn := (decodedState s b n v st).rn, fieldDet := (decodedState s b n v st).fieldDet
    ccref := (decodedState s b n v st).ccref, eq := (decodedState s b n v st).eq
    xmem := (decodedState s b n v st).xmem
    signal := some { analog := b.analog, inp := memoryOf n.inp, scratch := scratchOf st.scratch } } := rfl

end DecodedState

theorem decodeField_hsync (s : State) (b : SignalBuffers) :
    (decodeField cfg s b).hsync = (lastLineState s b).hsync := by rw [decodeField_eq, decodedState_hsync]

theorem decodeField_vsync (s : State) (b : SignalBuffers) :
    (decodeField cfg s b).vsync = ofCount (decodeVSync s b).cand := by rw [decodeField_eq, decodedState_vsync]

theorem decodeField_fieldDet (s : State) (b : SignalBuffers) :
    (decodeField cfg s b).fieldDet = recoveredField cfg (decodeVSync s b).j := by
  rw [decodeField_eq, decodedState_fieldDet]

theorem decodeField_ccref (s : State) (b : SignalBuffers) :
    (decodeField cfg s b).ccref = (lastLineState s b).ccref := by rw [decodeField_eq, decodedState_ccref]

theorem decodeField_eqs (s : State) (b : SignalBuffers) :
    (decodeField cfg s b).eq = (lastLineState s b).eq := by rw [decodeField_eq, decodedState_eqs]

theorem decodeField_xmem (s : State) (b : SignalBuffers) :
    (decodeField cfg s b).xmem = (lastLineState s b).xmem := by rw [decodeField_eq, decodedState_xmem]

theorem decodeField_signal (s : State) (b : SignalBuffers) : (decodeField cfg s b).signal = some { b with
    inp := memoryOf (decodeNoise s b).inp, scratch := scratchOf (lastLineState s b).scratch } := by
  rw [decodeField_eq, decodedState_signal]

/-- A DECODE of an initialised machine, and what its memories hold after it. -/
theorem exec_decode_parts {s t : State} {b b' : SignalBuffers} (hs : s.signal = some b)
    (run : exec .decode s = .next t) (ht : t.signal = some b') :
    t = decodeField cfg s b ∧ b' = { b with
      inp := memoryOf (decodeNoise s b).inp, scratch := scratchOf (lastLineState s b).scratch } := by
  obtain rfl := exec_decode_of_signal hs run
  rw [decodeField_signal] at ht
  exact ⟨rfl, (Option.some.inj ht).symm⟩

theorem exec_decode_of_some {s : State} {b : SignalBuffers} (hs : s.signal = some b) :
    exec .decode s = .next (decodeField cfg s b) := by
  simp only [exec, execDecode, hs]

/-- A DECODE that has run found the memories present. -/
theorem exec_decode_of_present {s t : State} (hs : s.signal ≠ none) (run : exec .decode s = .next t) :
    ∃ b, s.signal = some b ∧ t = decodeField cfg s b := by
  obtain ⟨b, hb⟩ := Option.ne_none_iff_exists'.1 hs
  exact ⟨b, hb, exec_decode_of_signal hb run⟩

@[simp] theorem decodeNoise_size (s : State) (b : SignalBuffers) : (decodeNoise s b).inp.size = 238420 := by
  rw [decodeNoise, injectNoise_size, samplesOf_size, inputSize_cfg]

/-- The noisy signal holds no −128 (R161). -/
theorem decodeNoise_noisy (s : State) (b : SignalBuffers) : noisySamples (decodeNoise s b).inp := by
  intro i
  by_cases inside : i < (samplesOf cfg b.analog).size
  · rw [decodeNoise, injectNoise_getD _ _ _ inside, abs_le]
    exact noisySample_bounds _ _ _
  · rw [Array.getD_eq_getD_getElem?, Array.getElem?_eq_none (by simpa [decodeNoise] using inside)]
    decide

theorem decodeVSync_lt (s : State) (b : SignalBuffers) : (decodeVSync s b).cand < 262 := vsyncSearch_cand_lt _ _

/-! ## The vertical search of a completed DECODE -/

/-- Settles O32. -/
theorem decodeFindsVerticalSync : Obligations.DecodeFindsVerticalSync := by
  intro s t b b' hs hv run ht cand line
  obtain ⟨rfl, rfl⟩ := exec_decode_parts hs run ht
  have samples (l : Nat) : line l = lineSamples (decodeNoise s b).inp l :=
    funext fun k => congrArg BitVec.toInt (memoryOf_read _ _)
  have tracker {c j : Nat} (h : decodeVSync s b = ⟨c, j⟩) (hc : c < 262) :
      (decodeField cfg s b).vsync.toNat = c ∧ (decodeField cfg s b).fieldDet = if 455 < j then 1#1 else 0#1 := by
    rw [decodeField_vsync, decodeField_fieldDet, h]
    exact ⟨ofCount_toNat (n := c) (by omega), rfl⟩
  rcases vsyncSearch_spec (decodeNoise s b).inp hv with ⟨k, j, hk, reach, before, found⟩ | ⟨never, found⟩
  · obtain ⟨vsync, field⟩ := tracker found (Nat.mod_lt _ (by decide))
    refine .inl ⟨k, j, hk, ?_, fun k' hk' => ?_, vsync, field⟩ <;> rw [samples]
    · exact reach
    · exact before k' hk'
  · obtain ⟨vsync, field⟩ := tracker found (Nat.mod_lt _ (by decide))
    refine .inr ⟨fun k hk => ?_, vsync, field⟩
    rw [samples]
    exact never k hk

/-! ## One line (R165) -/

/-- Whether a line is shown: it has rows inside the raster. -/
theorem decodeLine_cases (e : DecodeEnv) (st : LineState) (n : Nat) :
    (e.outh.toInt ≤ (destRow cfg e n).toInt ∧ decodeLine cfg e st (21 + n) = st) ∨
    ((destRow cfg e n).toInt < e.outh.toInt ∧ decodeLine cfg e st (21 + n) =
      decodeShownLine cfg e (21 + n) (destRow cfg e n)
        (if e.outh.toInt < (destRow cfg e (n + 1)).toInt then e.outh else destRow cfg e (n + 1)) st) := by
  have number : 21 + n - cfg.crtTop = n := by rw [cfg_crtTop]; omega
  simp only [decodeLine, number, BitVec.sle_iff_toInt_le, BitVec.slt_iff_toInt_lt]
  by_cases skipped : e.outh.toInt ≤ (destRow cfg e n).toInt
  · exact .inl ⟨skipped, if_pos skipped⟩
  · exact .inr ⟨not_le.1 skipped, if_neg skipped⟩

section ShownLine

variable (e : DecodeEnv) (line : Nat) (beg fin : Word) (st : LineState)

/-- The new tracker of a shown line (R167, R168). -/
def shownHsync : Word := hsyncNext cfg e.inp (signalLine cfg e line) st.hsync

/-- Its burst vector, from the new tracker (R169). -/
def shownCcref : Quad Word := burstRecover cfg e.inp (signalLine cfg e line) (shownHsync e line st) st.ccref

/-- Its position in the signal (R170). -/
def shownPos : Word := demodPos cfg (signalLine cfg e line) (shownHsync e line st)

/-- Its wave, on the axes of its burst vector (R170, R171). -/
def shownWave : Quad Word :=
  demodWave (axisI (shownCcref e line st) (shownPos e line st &&& 3#32).toNat)
    (axisQ (shownCcref e line st) (shownPos e line st &&& 3#32).toNat) e.sat

/-- Its energy, over the samples from its position on (R172). -/
def shownPrevE : Word := bloomEnergy e.maxE st.prevE (lineEnergy cfg e.inp (shownPos e line st))

/-- Its width (R172). -/
def shownWidth : Word := lineWidth cfg (shownPrevE e line st)

/-- Its demodulation (R173). -/
def shownDemod : Demod :=
  demodLine cfg e.inp (shownPos e line st) e.bright (shownWave e line st) (scanLeft cfg (shownWidth e line st))
    { eq := st.eq, scratch := st.scratch }

/-- Its row of pixels (R174 to R176). -/
def shownRow : XMem :=
  resampleRow (shownDemod e line st).scratch e.con (scanRight cfg) (scanStep (shownWidth e line st) e.outw)
    (countOf e.outw) (scanLeft cfg (shownWidth e line st)) (rowAddr e beg) st.xmem

/-- The state after a line from the values it makes. -/
def lineStateOf (hsync : Word) (ccref : Quad Word) (prevE : Word) (d : Demod) (xmem : XMem) : LineState :=
  { hsync := hsync, ccref := ccref, prevE := prevE, eq := d.eq, scratch := d.scratch, xmem := xmem }

theorem decodeShownLine_eq : decodeShownLine cfg e line beg fin st =
    lineStateOf (shownHsync e line st) (shownCcref e line st) (shownPrevE e line st) (shownDemod e line st)
      (verticalFill e beg fin (shownRow e line beg st)) := by
  simp only [decodeShownLine, lineStateOf, shownRow, shownDemod, shownWidth, shownPrevE, shownWave, shownPos,
    shownCcref, shownHsync]

section LineStateOf

variable (hsync : Word) (ccref : Quad Word) (prevE : Word) (d : Demod) (xmem : XMem)

theorem lineStateOf_hsync : (lineStateOf hsync ccref prevE d xmem).hsync = hsync := rfl
theorem lineStateOf_ccref : (lineStateOf hsync ccref prevE d xmem).ccref = ccref := rfl
theorem lineStateOf_prevE : (lineStateOf hsync ccref prevE d xmem).prevE = prevE := rfl
theorem lineStateOf_eqs : (lineStateOf hsync ccref prevE d xmem).eq = d.eq := rfl
theorem lineStateOf_scratch : (lineStateOf hsync ccref prevE d xmem).scratch = d.scratch := rfl
theorem lineStateOf_xmem : (lineStateOf hsync ccref prevE d xmem).xmem = xmem := rfl

end LineStateOf

theorem decodeShownLine_hsync : (decodeShownLine cfg e line beg fin st).hsync = shownHsync e line st := by
  rw [decodeShownLine_eq, lineStateOf_hsync]

theorem decodeShownLine_ccref : (decodeShownLine cfg e line beg fin st).ccref = shownCcref e line st := by
  rw [decodeShownLine_eq, lineStateOf_ccref]

theorem decodeShownLine_prevE : (decodeShownLine cfg e line beg fin st).prevE = shownPrevE e line st := by
  rw [decodeShownLine_eq, lineStateOf_prevE]

theorem decodeShownLine_eqs : (decodeShownLine cfg e line beg fin st).eq = (shownDemod e line st).eq := by
  rw [decodeShownLine_eq, lineStateOf_eqs]

theorem decodeShownLine_scratch :
    (decodeShownLine cfg e line beg fin st).scratch = (shownDemod e line st).scratch := by
  rw [decodeShownLine_eq, lineStateOf_scratch]

theorem decodeShownLine_xmem : (decodeShownLine cfg e line beg fin st).xmem =
    verticalFill e beg fin (shownRow e line beg st) := by
  rw [decodeShownLine_eq, lineStateOf_xmem]

end ShownLine

/-- What every line keeps, the whole run of the 240 lines keeps. -/
theorem decodeLines_induction {e : DecodeEnv} {st : LineState} {P : LineState → Prop} (first : P st)
    (next : ∀ st n, n < 240 → P st → P (decodeLine cfg e st (21 + n))) : P (decodeLines cfg e st) := by
  refine List.foldlRecOn _ _ first fun st' h line inside => ?_
  obtain ⟨lo, hi⟩ := List.mem_range'_1.1 inside
  rw [cfg_crtTop] at lo hi
  rw [cfg_crtBot] at hi
  rw [show line = 21 + (line - 21) by omega]
  exact next st' (line - 21) (by omega) h

/-- What every shown line keeps, all lines keep: a skipped line does nothing. -/
theorem decodeLines_induction_shown {e : DecodeEnv} {st : LineState} {P : LineState → Prop} (first : P st)
    (next : ∀ st line beg fin, P st → P (decodeShownLine cfg e line beg fin st)) : P (decodeLines cfg e st) := by
  refine decodeLines_induction first fun st' n _ h => ?_
  rcases decodeLine_cases e st' n with ⟨-, same⟩ | ⟨-, shown⟩
  · rwa [same]
  · rw [shown]
    exact next _ _ _ _ h

/-! ## What the lines keep -/

/-- The equalizers keep their coefficients and gains (R180). -/
theorem decodeLines_keepsCoefficients (e : DecodeEnv) (st : LineState) :
    keepsCoefficients st.eq (decodeLines cfg e st).eq :=
  decodeLines_induction_shown (P := fun st' => keepsCoefficients st.eq st'.eq)
    (fun _ => ⟨rfl, rfl, rfl, rfl, rfl⟩)
    fun st' line beg fin h => by
      rw [decodeShownLine_eqs, shownDemod]
      exact keepsCoefficients_trans h (demodLine_keepsCoefficients e.inp (shownPos e line st') e.bright
        (scanLeft cfg (shownWidth e line st')) (shownWave e line st') { eq := st'.eq, scratch := st'.scratch })

/-- The burst vector stays bounded (R178 (h)). -/
theorem decodeLines_burstBounded {e : DecodeEnv} {st : LineState} (noisy : noisySamples e.inp)
    (h : burstBounded st.ccref) : burstBounded (decodeLines cfg e st).ccref :=
  decodeLines_induction_shown (P := fun st' => burstBounded st'.ccref) h
    fun st' line beg fin h => by
      rw [decodeShownLine_ccref]
      exact burstRecover_bounded noisy (signalLine cfg e line) (shownHsync e line st') h

/-- Settles O34: the vector starts from 0 and every line keeps it bounded. -/
theorem burstRecoveryAveragesWithinBounds : Obligations.BurstRecoveryAveragesWithinBounds := by
  refine ⟨fun inp ln hsync ccref k => burstRecover_quadAt inp ccref, fun s t hs run k => ?_⟩
  obtain ⟨b, -, rfl⟩ := exec_decode_of_present hs run
  have start : burstBounded zeroQuad := fun k => by
    have zero : quadAt zeroQuad k = 0#32 := by
      unfold quadAt zeroQuad
      split <;> rfl
    rw [zero]
    decide
  have last : burstBounded (lastLineState s b).ccref :=
    decodeLines_burstBounded (e := frameEnv s b) (st := firstLineState cfg s b) (decodeNoise_noisy s b) start
  rw [decodeField_ccref]
  exact last k

/-- Settles O35: DECODE reads neither register, and INP is written before it is read. -/
theorem decodeForgetsTheOldBurstVector : Obligations.DecodeForgetsTheOldBurstVector := by
  intro s b q f m hs
  rw [exec_decode_of_some hs, exec_decode_of_some (b := { b with inp := m }) rfl]
  rfl

/-! ## Rows of the output raster (R165, R166) -/

/-- The offset of a field's rows is that of R166. -/
theorem fieldOffsetOut_eq (field : BitVec 1) (outh : Word) : fieldOffsetOut cfg field outh = rowOffset field outh := by
  have lines : ofCount cfg.crtLines = 240#32 := rfl
  unfold fieldOffsetOut rowOffset
  simp only [lines, show tdiv 240#32 2#32 = 120#32 by decide]
  rcases BitVec.eq_zero_or_eq_one field with rfl | rfl
  · simp
  · simp only [if_pos]
    rw [show (1#1).setWidth 32 = 1#32 by decide, BitVec.one_mul]
    rfl

/-- A field's offset lies in `[0, OUTH]` and is small. -/
theorem rowOffset_bounds (field : BitVec 1) {outh : Word} (h : 1 ≤ outh.toInt) (h' : outh.toInt ≤ 2 ^ 23) :
    0 ≤ (rowOffset field outh).toInt ∧ (rowOffset field outh).toInt ≤ 2 ^ 15 := by
  have f2 : (2#32 : Word).toInt = 2 := by decide
  have f120 : (120#32 : Word).toInt = 120 := by decide
  have f240 : (240#32 : Word).toInt = 240 := by decide
  unfold rowOffset
  split_ifs
  · have rounded : (outh + 120#32).toInt = outh.toInt + 120 := by
      rw [add_toInt, f120] <;> rw [f120] <;> omega
    have ratio : (tdiv (outh + 120#32) 240#32).toInt = (outh.toInt + 120) / 240 := by
      rw [tdiv_toInt _ _ (.inr (by decide)), rounded, f240, Int.tdiv_eq_ediv_of_nonneg (by omega)]
    have half : (tdiv (tdiv (outh + 120#32) 240#32) 2#32).toInt = (outh.toInt + 120) / 240 / 2 := by
      rw [tdiv_toInt _ _ (.inr (by decide)), ratio, f2, Int.tdiv_eq_ediv_of_nonneg (by omega)]
    change 0 ≤ (tdiv (tdiv (outh + 120#32) 240#32) 2#32).toInt ∧ (tdiv (tdiv (outh + 120#32) 240#32) 2#32).toInt ≤ _
    omega
  · decide

/-- The first row of a line is no negative number. -/
theorem destRow_nonneg {e : DecodeEnv} {n : Nat} (hn : n ≤ 240) (h : 1 ≤ e.outh.toInt) (h' : e.outh.toInt ≤ 2 ^ 23)
    (fo : 0 ≤ e.fo.toInt ∧ e.fo.toInt ≤ 2 ^ 15) : 0 ≤ (destRow cfg e n).toInt := by
  have f240 : (ofCount 240).toInt = 240 := by decide
  have count : (ofCount n).toInt = n := ofCount_toInt (by omega)
  have least : 0 ≤ (n : Int) * e.outh.toInt := mul_nonneg (Int.natCast_nonneg n) (by omega)
  have most : (n : Int) * e.outh.toInt ≤ 240 * 2 ^ 23 :=
    mul_le_mul (by exact_mod_cast hn) h' (by omega) (by decide)
  have product : (ofCount n * e.outh).toInt = n * e.outh.toInt := by
    rw [mul_toInt, count] <;> rw [count] <;> linarith
  generalize (n : Int) * e.outh.toInt = m at least most product
  have row : (tdiv (ofCount n * e.outh) (ofCount 240)).toInt = m / 240 := by
    rw [tdiv_toInt _ _ (.inr (by decide)), product, f240, Int.tdiv_eq_ediv_of_nonneg least]
  rw [destRow, cfg_crtLines, add_toInt (by omega) (by omega)]
  omega

/-! ## XMEM outside the output raster (20_memory.md R56) -/

/-- Every column loop ends somewhere. -/
theorem exists_columnsEnd (scanR dx p : Word) (n : Nat) : ∃ m, columnsEnd scanR dx p n m := by
  induction n generalizing p with
  | zero => exact ⟨0, le_rfl, fun _ h => absurd h (Nat.not_lt_zero _), fun h => absurd h (Nat.not_lt_zero _)⟩
  | succ n ih =>
    rcases left : p.slt scanR with _ | _
    · exact ⟨0, Nat.zero_le _, fun _ h => absurd h (Nat.not_lt_zero _), fun _ => by simpa using left⟩
    · obtain ⟨m, le, before, stop⟩ := ih (p + dx)
      refine ⟨m + 1, by omega, fun col hc => ?_, fun hm => ?_⟩
      · cases col with
        | zero => simpa using left
        | succ col =>
          rw [position_succ]
          exact before col (by omega)
      · rw [position_succ]
        exact stop (by omega)

/-- A word that is in no row from `beg` to `fin − 1`. -/
def outsideRows (e : DecodeEnv) (beg : Word) (rows : Nat) (a : Word) : Prop :=
  ∀ r x, r < rows → x < countOf e.outw → a ≠ rowAddr e (beg + ofCount r) + BitVec.ofNat 32 x

/-- A shown line writes no word outside its rows. -/
theorem decodeShownLine_find_other {e : DecodeEnv} {line rows : Nat} {beg fin : Word} {st : LineState} {a : Word}
    (h : outsideRows e beg rows a) (first : 0 < rows) (copied : countOf (fin - beg - 1#32) < rows) :
    XMem.find (decodeShownLine cfg e line beg fin st).xmem a = XMem.find st.xmem a := by
  rw [decodeShownLine_xmem, verticalFill_eq, filledRows_find_other _ _ _ _ fun r x _ hi hx => h r x (by omega) hx]
  obtain ⟨m, cols⟩ := exists_columnsEnd (scanRight cfg) (scanStep (shownWidth e line st) e.outw)
    (scanLeft cfg (shownWidth e line st)) (countOf e.outw)
  refine resampleRow_find_other _ _ _ _ cols fun col hc => ?_
  have inside : col < countOf e.outw := lt_of_lt_of_le hc cols.1
  simpa [ofCount] using h 0 col first inside

/-- A word outside the raster is outside the rows of every shown line. -/
theorem outsideRows_of_outsideRaster {s : State} {e : DecodeEnv} {a beg : Word} {rows : Nat}
    (width : e.outw = s.outw) (base : e.outBase = s.outBase) (h : outsideRaster s a) (nonneg : 0 ≤ beg.toInt)
    (wide : 1 ≤ s.outw.toInt) (inside : beg.toInt + rows ≤ s.outh.toInt) : outsideRows e beg rows a := by
  intro r x hr hx
  have count : (countOf e.outw : Int) = s.outw.toInt := by rw [width, countOf_eq]; omega
  have start := toInt_eq_toNat_of_nonneg nonneg
  have row : beg + ofCount r = BitVec.ofNat 32 (beg.toNat + r) := by
    rw [BitVec.ofNat_add, BitVec.ofNat_toNat, BitVec.setWidth_eq, ofCount]
  rw [rowAddr, row, width, base]
  exact h x (beg.toNat + r) (by omega) (by push_cast; omega)

/-- The rows of a shown line: at least one, and all of them inside the raster. -/
theorem shownRows {beg fin outh : Word} (nonneg : 0 ≤ beg.toInt) (shown : beg.toInt < outh.toInt)
    (cut : fin.toInt ≤ outh.toInt) (finNonneg : 0 ≤ fin.toInt) :
    ∃ rows : Nat, 0 < rows ∧ countOf (fin - beg - 1#32) < rows ∧ beg.toInt + rows ≤ outh.toInt := by
  have one : (1#32 : Word).toInt = 1 := by decide
  have bound := BitVec.toInt_lt (x := outh)
  have difference : (fin - beg).toInt = fin.toInt - beg.toInt := sub_toInt (by omega) (by omega)
  have copied : (fin - beg - 1#32).toInt = fin.toInt - beg.toInt - 1 := by
    rw [sub_toInt, difference, one] <;> rw [difference, one] <;> omega
  have count := countOf_eq (fin - beg - 1#32)
  refine ⟨(max 1 (fin.toInt - beg.toInt)).toNat, by omega, by omega, by omega⟩

/-- DECODE's frame constants, where the raster fits: the offset of the field is in range. -/
theorem frameEnv_fo {s : State} (b : SignalBuffers) (fits : rasterFits s) :
    0 ≤ (frameEnv s b).fo.toInt ∧ (frameEnv s b).fo.toInt ≤ 2 ^ 15 := by
  obtain ⟨⟨-, tall⟩, low⟩ := fits
  rw [show (frameEnv s b).fo = fieldOffsetOut cfg (recoveredField cfg (decodeVSync s b).j) s.outh from rfl,
    fieldOffsetOut_eq]
  exact rowOffset_bounds _ tall low

/-- DECODE leaves every word outside the output raster alone (20_memory.md R56). -/
theorem lastLineState_find_outside {s : State} (b : SignalBuffers) {a : Word} (fits : rasterFits s)
    (h : outsideRaster s a) : XMem.find (lastLineState s b).xmem a = XMem.find s.xmem a := by
  obtain ⟨⟨wide, tall⟩, low⟩ := fits
  refine decodeLines_induction (P := fun st => XMem.find st.xmem a = XMem.find s.xmem a) rfl fun st n hn kept => ?_
  have row {m : Nat} (hm : m ≤ 240) : 0 ≤ (destRow cfg (frameEnv s b) m).toInt :=
    destRow_nonneg hm tall low (frameEnv_fo b ⟨⟨wide, tall⟩, low⟩)
  have height : (frameEnv s b).outh = s.outh := rfl
  rcases decodeLine_cases (frameEnv s b) st n with ⟨-, same⟩ | ⟨shown, result⟩
  · rwa [same]
  rw [height] at shown result
  have beg := row (m := n) (by omega)
  have fin : 0 ≤ (if s.outh.toInt < (destRow cfg (frameEnv s b) (n + 1)).toInt then s.outh
      else destRow cfg (frameEnv s b) (n + 1)).toInt := by
    split_ifs
    · omega
    · exact row (by omega)
  obtain ⟨rows, first, copied, inside⟩ := shownRows beg shown (by split_ifs <;> omega) fin
  rw [result, ← kept]
  exact decodeShownLine_find_other (outsideRows_of_outsideRaster rfl rfl h beg wide inside) first copied

/-- Settles O43. -/
theorem decodeWritesTheOutputRasterOnly : Obligations.DecodeWritesTheOutputRasterOnly := by
  intro s t a hs fits run outside
  obtain ⟨b, -, rfl⟩ := exec_decode_of_present hs run
  rw [decodeField_xmem]
  exact lastLineState_find_outside b fits outside

/-- Settles O30. -/
theorem decodeCompletesAndLeavesAlone : Obligations.DecodeCompletesAndLeavesAlone := by
  intro s b hs
  refine ⟨decodeField cfg s b, memoryOf (decodeNoise s b).inp, scratchOf (lastLineState s b).scratch,
    exec_decode_of_some hs, ?_, ?_, fun fits a outside => ?_⟩
  · rw [decodeField_eq]
    exact decodedState_frame s b _ _ _
  · rw [decodeField_eqs]
    exact decodeLines_keepsCoefficients (frameEnv s b) (firstLineState cfg s b)
  · rw [decodeField_xmem]
    exact lastLineState_find_outside b fits outside

/-! ## The words DECODE writes (20_memory.md R54) -/

/-- The word listed at an address has bits 31:24 zero. -/
def colourAt (m : XMem) (a : Word) : Prop := ∃ v, XMem.find m a = some v ∧ v.toNat < 2 ^ 24

/-- Every address lists what it listed before, or a word with bits 31:24 zero. -/
def onlyColours (m m' : XMem) : Prop := ∀ a, XMem.find m' a = XMem.find m a ∨ colourAt m' a

theorem onlyColours_refl (m : XMem) : onlyColours m m := fun _ => .inl rfl

theorem colourAt_of_onlyColours {m m' : XMem} (h : onlyColours m m') {a : Word} (ha : colourAt m a) :
    colourAt m' a := by
  rcases h a with same | colour
  · obtain ⟨v, found, small⟩ := ha
    exact ⟨v, same.trans found, small⟩
  · exact colour

theorem onlyColours_trans {m m' m'' : XMem} (h : onlyColours m m') (h' : onlyColours m' m'') :
    onlyColours m m'' := fun a => by
  rcases h' a with same | colour
  · rcases h a with same' | colour'
    · exact .inl (same.trans same')
    · exact .inr (colourAt_of_onlyColours h' colour')
  · exact .inr colour

/-- A store of a word with bits 31:24 zero. -/
theorem onlyColours_write (m : XMem) (a : Word) {v : Word} (h : v.toNat < 2 ^ 24) :
    onlyColours m (XMem.write m a v) ∧ colourAt (XMem.write m a v) a := by
  have here : colourAt (XMem.write m a v) a := ⟨v, by rw [xmem_find_write, if_pos rfl], h⟩
  refine ⟨fun b => ?_, here⟩
  by_cases same : b = a
  · exact .inr (same ▸ here)
  · exact .inl (by rw [xmem_find_write, if_neg same])

theorem resampleRow_onlyColours (scratch : Array (PerChannel Word)) (con scanR dx : Word) (n : Nat) (p addr : Word)
    (xmem : XMem) : onlyColours xmem (resampleRow scratch con scanR dx n p addr xmem) := by
  induction n generalizing p addr xmem with
  | zero => exact onlyColours_refl _
  | succ n ih =>
    rcases left : p.slt scanR with _ | _
    · rw [resampleRow_stop _ _ _ _ _ _ _ _ left]
      exact onlyColours_refl _
    · rw [resampleRow_go _ _ _ _ _ _ _ _ left]
      exact onlyColours_trans (onlyColours_write _ _ (blendWords_lt _ _)).1 (ih _ _ _)

/-- A row of colours is copied to a row of colours. -/
theorem copyWords_onlyColours (n : Nat) (src dst : Word) (xmem : XMem)
    (h : ∀ x, x < n → colourAt xmem (src + BitVec.ofNat 32 x)) :
    onlyColours xmem (copyWords n src dst xmem) ∧
      ∀ x, x < n → colourAt (copyWords n src dst xmem) (dst + BitVec.ofNat 32 x) := by
  induction n generalizing src dst xmem with
  | zero => exact ⟨onlyColours_refl _, fun _ hx => absurd hx (Nat.not_lt_zero _)⟩
  | succ n ih =>
    obtain ⟨v, found, small⟩ := h 0 (by omega)
    have read : XMem.read xmem src = v := read_of_find (by simpa using found)
    obtain ⟨written, here⟩ := onlyColours_write xmem dst (v := XMem.read xmem src) (read ▸ small)
    obtain ⟨rest, row⟩ := ih (src + 1#32) (dst + 1#32) _ fun x hx => by
      rw [← address_succ]
      exact colourAt_of_onlyColours written (h (x + 1) (by omega))
    rw [copyWords]
    refine ⟨onlyColours_trans written rest, fun x hx => ?_⟩
    cases x with
    | zero => simpa using colourAt_of_onlyColours rest here
    | succ x =>
      rw [address_succ dst x]
      exact row x (by omega)

theorem filledRows_onlyColours (e : DecodeEnv) (beg : Word) (xmem : XMem) (n : Nat)
    (h : ∀ x, x < countOf e.outw → colourAt xmem (rowAddr e beg + BitVec.ofNat 32 x)) :
    onlyColours xmem (filledRows e beg xmem n) ∧
      ∀ x, x < countOf e.outw → colourAt (filledRows e beg xmem n) (rowAddr e (beg + ofCount n) + BitVec.ofNat 32 x) := by
  induction n with
  | zero => exact ⟨onlyColours_refl _, fun x hx => by simpa [filledRows, ofCount] using h x hx⟩
  | succ n ih =>
    obtain ⟨before, row⟩ := ih
    rw [filledRows_succ]
    obtain ⟨copied, next⟩ := copyWords_onlyColours _ _ (rowAddr e (beg + ofCount (n + 1))) _ row
    exact ⟨onlyColours_trans before copied, next⟩

/-- Within R178's bounds the column loop blends the whole row. -/
theorem columnsEnd_of_lineWidth {w outw : Word} (h : 633 ≤ w.toInt) (h' : w.toInt ≤ 734) :
    columnsEnd (scanRight cfg) (scanStep w outw) (scanLeft cfg w) (countOf outw) (countOf outw) := by
  have right : (scanRight cfg).toInt = 3080192 := by decide
  refine ⟨le_rfl, fun col hc => ?_, fun hm => absurd hm (lt_irrefl _)⟩
  have count := countOf_eq outw
  obtain ⟨-, before⟩ := columnPosition_bounds h h' (outw := outw) (col := col) (by omega)
  rw [BitVec.slt_iff_toInt_lt, right]
  exact before

/-- A shown line writes colours only, and keeps `prev_e` bounded. -/
theorem decodeShownLine_onlyColours {e : DecodeEnv} {noise : Word} {line : Nat} {beg fin : Word} {st : LineState}
    (maxE : e.maxE = maxEnergy cfg noise) (h : 0 ≤ noise.toInt) (h' : noise.toInt ≤ 255)
    (noisy : noisySamples e.inp) (energy : energyBounded st.prevE) :
    energyBounded (decodeShownLine cfg e line beg fin st).prevE ∧
      onlyColours st.xmem (decodeShownLine cfg e line beg fin st).xmem := by
  have bounded : energyBounded (shownPrevE e line st) := by
    rw [shownPrevE, maxE]
    exact bloomEnergy_bounded h h' (lineEnergy_bounded noisy (shownPos e line st)) energy
  rw [decodeShownLine_prevE, decodeShownLine_xmem, verticalFill_eq, shownRow]
  refine ⟨bounded, ?_⟩
  obtain ⟨-, w0, w1⟩ : _ ∧ 633 ≤ (shownWidth e line st).toInt ∧ (shownWidth e line st).toInt ≤ 734 :=
    lineWidth_toInt bounded
  have cols := columnsEnd_of_lineWidth (outw := e.outw) w0 w1
  have width : countOf e.outw ≤ 2 ^ 32 := by
    have := countOf_eq e.outw
    have := BitVec.toInt_lt (x := e.outw)
    omega
  exact onlyColours_trans (resampleRow_onlyColours _ _ _ _ _ _ _ _)
    (filledRows_onlyColours _ _ _ _ fun x hx =>
      ⟨_, resampleRow_find_column _ _ _ _ cols width hx, blendWords_lt _ _⟩).1

/-- Settles O44: within the bounds of the bloom no row is copied before all of it is blended. -/
theorem decodeWritesColourBitsOnly : Obligations.DecodeWritesColourBitsOnly := by
  intro s t a v hs _ run found
  obtain ⟨b, -, rfl⟩ := exec_decode_of_present hs run
  have noise := noiseArg_toInt s
  have lines : energyBounded (lastLineState s b).prevE ∧ onlyColours s.xmem (lastLineState s b).xmem := by
    refine decodeLines_induction_shown (P := fun st => energyBounded st.prevE ∧ onlyColours s.xmem st.xmem)
      ⟨(⟨by decide, by decide⟩ : energyBounded 2048#32), onlyColours_refl _⟩ fun st line beg fin ⟨energy, colours⟩ => ?_
    obtain ⟨energy', written⟩ := decodeShownLine_onlyColours (e := frameEnv s b) (line := line) (beg := beg)
      (fin := fin) rfl (by omega) (by omega) (decodeNoise_noisy s b) energy
    exact ⟨energy', onlyColours_trans colours written⟩
  rw [decodeField_xmem] at found
  rcases lines.2 a with same | ⟨w, found', small⟩
  · exact .inl (same.symm.trans found)
  · exact .inr (Option.some.inj (found.symm.trans found') ▸ small)

end Sys2Proof.Machine
end

section
/-! 44_decoder.md R160 and R165 to R177: DECODE runs its lines in order, each by the line rules. -/

namespace Sys2Proof.Machine

/-! ## The numbers of a line -/

/-- The signal line of a shown line (R167). -/
theorem signalLine_eq {e : DecodeEnv} {cand n : Nat} (vsync : e.vsync = ofCount cand) (hc : cand < 262)
    (hn : n < 240) : signalLine cfg e (21 + n) = (n + 21 + cand) % 262 := by
  have sum : ofCount (21 + n) + e.vsync = ofCount (21 + n + cand) := by
    rw [vsync]
    exact (BitVec.ofNat_add (21 + n) cand).symm
  have reduced := pmod_toInt (ofCount (21 + n) + e.vsync) (m := 262) (by decide)
  rw [sum, ofCount_toInt (by omega)] at reduced
  rw [signalLine, cfg_crtVres, sum]
  omega

/-- `max_e` of the noise operand (R166). -/
theorem fullEnergy_eq (s : State) : fullEnergy s.args.a0 = maxEnergy cfg (noiseArg s) := by
  have noise := noiseArg_toInt s
  have energy := maxEnergy_toInt (noise := noiseArg s) (by omega) (by omega)
  rw [fullEnergy, ← noise, ← energy, BitVec.ofInt_toInt]

theorem lineWidth_eq (p : Word) : lineWidth cfg p = 658#32 + BitVec.sdiv p 512#32 := by
  rw [lineWidth, avLen_cfg, show tdiv (ofCount 753 * 112#32) 128#32 = 658#32 by decide]
  rfl

theorem scanLeft_eq (w : Word) : scanLeft cfg w = (376#32 - BitVec.sdiv w 2#32 + 8#32) * 4096#32 := by
  rw [scanLeft, avLen_cfg, show tdiv (ofCount 753) 2#32 = 376#32 by decide]
  rfl

theorem scanRight_eq : scanRight cfg = 3080192#32 := by decide

/-- The phase of the burst register at a position (R170). -/
theorem quadAt_phase (q : Quad Word) (pos k : Nat) :
    quadAt q ((BitVec.ofNat 32 pos &&& 3#32).toNat + k) = quadAt q (pos + k) := by
  have phase : (BitVec.ofNat 32 pos &&& 3#32).toNat = (BitVec.ofNat 32 pos).toNat % 4 :=
    toNat_and_mask (BitVec.ofNat 32 pos) (k := 2) (by decide)
  refine quadAt_mod q _ _ ?_
  rw [phase, BitVec.toNat_ofNat]
  omega

/-! ## A shown line as the line rules state it -/

/-- The number of the position of a shown line (R170). -/
def shownPlace (e : DecodeEnv) (line : Nat) (st : LineState) : Nat :=
  (156 + (shownHsync e line st).toNat) % 910 + signalLine cfg e line * 910

theorem shownHsync_lt (e : DecodeEnv) (line : Nat) (st : LineState) : (shownHsync e line st).toNat < 910 :=
  hsyncNext_lt _ _ _

theorem shownPos_eq (e : DecodeEnv) (line : Nat) (st : LineState) :
    shownPos e line st = BitVec.ofNat 32 (shownPlace e line st) :=
  demodPos_eq _ _ (shownHsync_lt e line st)

theorem signalLine_lt (e : DecodeEnv) (line : Nat) : signalLine cfg e line < 262 := pmod_lt _ (by decide)

theorem shownPlace_lt (e : DecodeEnv) (line : Nat) (st : LineState) : shownPlace e line st < 2 ^ 30 := by
  have bound := signalLine_lt e line
  unfold shownPlace
  omega

/-- The wave of a shown line, on the axes at its position (R170, R171). -/
theorem shownWave_eq (e : DecodeEnv) (line : Nat) (st : LineState) :
    shownWave e line st =
      demodWave (quadAt (shownCcref e line st) (shownPlace e line st + 1)
          - quadAt (shownCcref e line st) (shownPlace e line st + 3))
        (quadAt (shownCcref e line st) (shownPlace e line st + 2)
          - quadAt (shownCcref e line st) (shownPlace e line st)) e.sat := by
  rw [shownWave, shownPos_eq, axisI, axisQ, quadAt_phase, quadAt_phase, quadAt_phase, quadAt_phase]
  rfl

/-- The energy of a shown line on integers (R172). -/
theorem shownPrevE_eq (e : DecodeEnv) (line : Nat) (st : LineState) :
    shownPrevE e line st = bloomEnergy e.maxE st.prevE
      (BitVec.ofInt 32 (intSum 753 (fun i => (ringSample e.inp (shownPlace e line st + i)).toInt))) := by
  rw [shownPrevE, shownPos_eq, lineEnergy_eq _ (shownPlace_lt e line st)]

/-- A shown line is decoded by the rules R167 to R177. -/
theorem lineDecoded_shown (s : State) (b : SignalBuffers) {n : Nat} (hn : n < 240) (beg fin : Word)
    (st : LineState) :
    lineDecoded s (decodeNoise s b).inp ((n + 21 + (decodeVSync s b).cand) % 262) beg fin st
      (decodeShownLine cfg (frameEnv s b) (21 + n) beg fin st) := by
  rw [← signalLine_eq (e := frameEnv s b) rfl (decodeVSync_lt s b) hn]
  unfold lineDecoded
  rw [decodeShownLine_hsync, decodeShownLine_ccref, decodeShownLine_prevE, decodeShownLine_eqs,
    decodeShownLine_scratch, decodeShownLine_xmem]
  refine ⟨shownPlace (frameEnv s b) (21 + n) st, _, _, _, shownWidth (frameEnv s b) (21 + n) st,
    scanLeft cfg (shownWidth (frameEnv s b) (21 + n) st), shownDemod (frameEnv s b) (21 + n) st, frameEnv s b,
    rfl, rfl, rfl, rfl, rfl, rfl, ?_, ?_, ?_, ?_, rfl, rfl, rfl, rfl, ?_⟩
  · rw [shownPrevE_eq, fullEnergy_eq]
    rfl
  · rw [shownWidth, lineWidth_eq]
  · rw [scanLeft_eq]
  · rw [shownDemod, shownPos_eq, shownWave_eq]
    rfl
  · rw [shownRow, scanRight_eq]
    rfl

/-! ## The run of the lines -/

theorem decodeLines_eq (e : DecodeEnv) (st : LineState) :
    decodeLines cfg e st = (List.range' 21 240).foldl (decodeLine cfg e) st := by
  rw [decodeLines, cfg_crtTop, cfg_crtBot]

/-- The lines as a run of 240 states, each made from the one before it. -/
theorem lastLineState_run (s : State) (b : SignalBuffers) : ∃ f : Nat → LineState,
    f 0 = firstLineState cfg s b ∧ f 240 = lastLineState s b ∧
    ∀ n, n < 240 → f (n + 1) = decodeLine cfg (frameEnv s b) (f n) (21 + n) := by
  obtain ⟨f, first, next, last⟩ :=
    foldl_range'_run (decodeLine cfg (frameEnv s b)) (firstLineState cfg s b) 21 240
  refine ⟨fun n => f (21 + n), first, ?_, fun n hn => next (21 + n) (by omega) (by omega)⟩
  rw [lastLineState, decodeLines_eq, last]

/-- The first row of a line, by R165 and R166. -/
theorem destRow_eq (s : State) (b : SignalBuffers) (n : Nat) :
    destRow cfg (frameEnv s b) n = BitVec.sdiv (BitVec.ofNat 32 n * s.outh) 240#32
      + rowOffset (decodeField cfg s b).fieldDet s.outh := by
  rw [decodeField_fieldDet, ← fieldOffsetOut_eq]
  rfl

/-- What DECODE's first line starts from (R160, R166). -/
theorem firstLineState_spec (s : State) {b : SignalBuffers} (wf : Scratch.wf b.scratch) :
    (firstLineState cfg s b).hsync = s.hsync ∧ (firstLineState cfg s b).ccref = ⟨0#32, 0#32, 0#32, 0#32⟩ ∧
    (firstLineState cfg s b).prevE = 2048#32 ∧ (firstLineState cfg s b).eq = s.eq ∧
    (firstLineState cfg s b).xmem = s.xmem ∧ (firstLineState cfg s b).scratch.size = 754 ∧
    ∀ i, i < 754 → (firstLineState cfg s b).scratch.getD i zeroTriple = Scratch.read b.scratch i := by
  have scratch : (firstLineState cfg s b).scratch = triplesOf cfg b.scratch := rfl
  rw [scratch, triplesOf_size, avLen_cfg]
  exact ⟨rfl, rfl, rfl, rfl, rfl, rfl, fun i hi => triplesOf_getD wf (by rwa [avLen_cfg])⟩

/-- Settles O52. -/
theorem decodeRunsItsLinesInOrder : Obligations.DecodeRunsItsLinesInOrder := by
  intro s t b b' hs wf run ht
  obtain ⟨rfl, rfl⟩ := exec_decode_parts hs run ht
  obtain ⟨f, first, last, next⟩ := lastLineState_run s b
  refine ⟨(decodeNoise s b).inp, f, ⟨decodeNoise_size s b, fun i => (memoryOf_read _ i).symm⟩,
    first ▸ firstLineState_spec s wf, ?_, fun n beg fin hn hbeg hfin => ?_⟩
  · rw [last, decodeField_hsync, decodeField_ccref, decodeField_eqs, decodeField_xmem]
    exact ⟨rfl, rfl, rfl, rfl, fun i => (scratchOf_read _ i).symm⟩
  · rw [← destRow_eq] at hbeg hfin
    have tracker : (decodeField cfg s b).vsync.toNat = (decodeVSync s b).cand := by
      have bound := decodeVSync_lt s b
      rw [decodeField_vsync, ofCount_toNat (by omega)]
    have height : (frameEnv s b).outh = s.outh := rfl
    rw [next n hn, tracker, hbeg, hfin]
    rcases decodeLine_cases (frameEnv s b) (f n) n with ⟨le, same⟩ | ⟨lt, shown⟩
    · rw [height] at le
      exact ⟨fun _ => same, fun lt => absurd lt (not_lt.2 le)⟩
    · rw [height] at lt shown
      refine ⟨fun le => absurd lt (not_lt.2 le), fun _ => ?_⟩
      rw [shown]
      exact lineDecoded_shown s b hn _ _ _

end Sys2Proof.Machine
end

section
/-! 43_encoder.md: ENCODE as rules R130 to R144 state it: its sync structure, its picture row by row, the reads of
source row `h`, and what its result depends on. -/

namespace Sys2Proof.Machine

/-! ## ENCODE as one update of the state by its parts -/

/-- What active video reads and does not change. -/
def encodeEnv (s : State) : EncodeEnv := { args := encodeArgs s, tuning := s.tuning, xmem := s.xmem }

/-- What active video starts from: the sync structure over the old samples. -/
def encodeStart (s : State) (b : SignalBuffers) : Modulator :=
  { iir := s.iir, analog := syncLines cfg (encodeArgs s) (samplesOf cfg b.analog), oobCount := s.oobCount }

/-- The rows of the picture done so far. -/
def pictureRows (s : State) (b : SignalBuffers) (n : Nat) : Modulator := encodeRows cfg (encodeEnv s) (encodeStart s b) n

theorem encodeField_eq (s : State) (b : SignalBuffers) : encodeField cfg s b = pictureRows s b 232 := by
  rw [encodeField, activeVideo_eq, desth_cfg, pictureRows, encodeEnv, encodeStart]

/-- The update of the state that ENCODE makes of its active video. -/
def encodedState (s : State) (b : SignalBuffers) (m : Modulator) : State :=
  { s with iir := m.iir, signal := some { b with analog := memoryOf m.analog }, oobCount := m.oobCount }

theorem encodedState_iir (s : State) (b : SignalBuffers) (m : Modulator) : (encodedState s b m).iir = m.iir := rfl
theorem encodedState_oobCount (s : State) (b : SignalBuffers) (m : Modulator) :
    (encodedState s b m).oobCount = m.oobCount := rfl
theorem encodedState_signal (s : State) (b : SignalBuffers) (m : Modulator) :
    (encodedState s b m).signal = some { b with analog := memoryOf m.analog } := rfl

/-- ENCODE on checked operands. -/
theorem exec_encode_of_some {s : State} {b : SignalBuffers} (hs : s.signal = some b) (hw : 1 ≤ s.args.a1.toInt)
    (hh : 1 ≤ s.args.a2.toInt) : exec .encode s = .next (encodedState s b (pictureRows s b 232)) := by
  have ok : encodeArgsOk s = true := (encodeArgsOk_iff s).2 ⟨hw, hh⟩
  rw [← encodeField_eq]
  simp only [exec, execEncode, hs, ok, if_true, encodedState]

/-- A completed ENCODE, and what its memories hold after it. -/
theorem exec_encode_parts {s t : State} {b b' : SignalBuffers} (hs : s.signal = some b) (hw : 1 ≤ s.args.a1.toInt)
    (hh : 1 ≤ s.args.a2.toInt) (run : exec .encode s = .next t) (ht : t.signal = some b') :
    t = encodedState s b (pictureRows s b 232) ∧
      b' = { b with analog := memoryOf (pictureRows s b 232).analog } := by
  obtain rfl := Host.Outcome.next.inj (run.symm.trans (exec_encode_of_some hs hw hh))
  rw [encodedState_signal] at ht
  exact ⟨rfl, (Option.some.inj ht).symm⟩

/-! ## The samples of the sync structure (R131 to R135) -/

/-- The sync structure holds the level of the tables where they have one, and the old sample elsewhere. -/
theorem encodeStart_getD {s : State} {b : SignalBuffers} (wf : Memory.wf b.analog) {n t : Nat} (hn : n < 262)
    (ht : t < 910) :
    (∀ v, syncLevelAt (s.args.a3.getLsbD 0) (s.args.a4 != 0#32) n t = some v →
      ((encodeStart s b).analog.getD (n * 910 + t) 0#8).toInt = v) ∧
    (syncLevelAt (s.args.a3.getLsbD 0) (s.args.a4 != 0#32) n t = none →
      (encodeStart s b).analog.getD (n * 910 + t) 0#8 = Memory.read b.analog (n * 910 + t)) := by
  have size : n * 910 + t < (samplesOf cfg b.analog).size := by rw [samplesOf_size, inputSize_cfg]; omega
  have field : (encodeArgs s).field = if s.args.a3.getLsbD 0 then 1#32 else 0#32 := by
    refine BitVec.eq_of_toNat_eq ?_
    rw [show ((encodeArgs s).field).toNat = s.args.a3.toNat % 2 from toNat_and_mask s.args.a3 (k := 1) (by decide),
      BitVec.getLsbD, Nat.testBit_zero]
    rcases Nat.mod_two_eq_zero_or_one s.args.a3.toNat with h | h <;> simp [h]
  have start : (encodeStart s b).analog = syncLinesUpTo cfg (encodeArgs s) 262 (samplesOf cfg b.analog) := by
    rw [encodeStart, syncLines_eq, show cfg.crtVres = 262 from rfl]
  rw [start, syncLinesUpTo_getD_line _ n 262 t _ ht size hn]
  obtain ⟨level, kept⟩ := syncLine_getD_self (encodeArgs s) n t
    (syncLinesUpTo cfg (encodeArgs s) n (samplesOf cfg b.analog)) ht (by rwa [syncLinesUpTo_size]) _ field
  refine ⟨level, fun none => (kept none).trans ?_⟩
  rw [syncLinesUpTo_getD_after _ n _ _ size (by omega)]
  exact samplesOf_getD wf (by rw [inputSize_cfg]; omega)

/-- The sync tables have no level inside the picture. -/
theorem syncLevelAt_of_inPicture {odd color : Bool} {n t : Nat} (h : inPicture n t) :
    syncLevelAt odd color n t = none := by
  obtain ⟨n0, -, t0, -⟩ := h
  unfold syncLevelAt
  rw [if_neg (by omega), if_neg (by omega), if_neg (by omega), if_neg (by omega)]

/-! ## The samples of the picture (R136, R141) -/

theorem encodeStart_size (s : State) (b : SignalBuffers) : (encodeStart s b).analog.size = 238420 := by
  rw [encodeStart, syncLines_eq, syncLinesUpTo_size, samplesOf_size, inputSize_cfg]

theorem pictureRows_size (s : State) (b : SignalBuffers) (n : Nat) : (pictureRows s b n).analog.size = 238420 := by
  rw [pictureRows, encodeRows_size, encodeStart_size]

/-- The composite level a pixel stores, from the filters after it (R140). -/
def pixelLevel (e : EncodeEnv) (y x : Nat) (iir : PerChannel IirUnit) : Word :=
  composite e.tuning e.args.color ⟨iir.y.h, iir.i.h, iir.q.h⟩ (linePhase cfg y) x

/-- The place of a pixel in ANALOG (R141). -/
def pixelPlace (y x : Nat) : Nat := (y + 29) * 910 + (x + 216)

/-- A pixel stores the clamped level of its filters at its place. -/
theorem encodePixel_analog (e : EncodeEnv) (m : Modulator) (y x : Nat) :
    (encodePixel cfg e (rowPlan cfg e.args y) m x).analog = m.analog.setIfInBounds (pixelPlace y x)
      (low8 (clamp (pixelLevel e y x (encodePixel cfg e (rowPlan cfg e.args y) m x).iir) 0#32 110#32)) := by
  simp only [encodePixel, pixelLevel, pixelPlace, rowPlan, sampleIndex_cfg, yo_cfg, xo_cfg]

/-- What a row has stored in the columns done so far. -/
theorem encodeColumns_getD_column (e : EncodeEnv) (m : Modulator) (y : Nat) {n x : Nat} (hx : x < n)
    (inside : pixelPlace y x < m.analog.size) :
    (encodeColumns cfg e m y n).analog.getD (pixelPlace y x) 0#8 =
      low8 (clamp (pixelLevel e y x (encodeColumns cfg e m y (x + 1)).iir) 0#32 110#32) := by
  induction n with
  | zero => omega
  | succ n ih =>
    rw [encodeColumns_succ, encodePixel_analog]
    by_cases last : x = n
    · subst last
      rw [set_getD_self _ _ _ (by rwa [encodeColumns_size]), encodeColumns_succ]
    · rw [set_getD_ne _ _ _ (by unfold pixelPlace; omega), ih (by omega)]

/-- A row leaves every sample outside its columns alone. -/
theorem encodeRow_getD_other (e : EncodeEnv) (m : Modulator) {y i : Nat}
    (h : i < pixelPlace y 0 ∨ pixelPlace y 637 ≤ i) :
    (encodeRow cfg e m y).analog.getD i 0#8 = m.analog.getD i 0#8 := by
  rw [encodeRow_eq, destw_cfg]
  unfold pixelPlace at h
  exact encodeColumns_getD_other e m y 637 i (by omega)

/-- The rows done so far leave every sample outside their columns alone. -/
theorem encodeRows_getD_other (e : EncodeEnv) (m : Modulator) {n i : Nat}
    (h : ∀ y, y < n → i < pixelPlace y 0 ∨ pixelPlace y 637 ≤ i) :
    (encodeRows cfg e m n).analog.getD i 0#8 = m.analog.getD i 0#8 := by
  induction n with
  | zero => rfl
  | succ n ih =>
    rw [encodeRows_succ, encodeRow_getD_other e _ (h n (by omega))]
    exact ih fun y hy => h y (by omega)

/-- What a row has stored, the rows after it leave. -/
theorem encodeRows_getD_pixel (e : EncodeEnv) (m : Modulator) {n y x : Nat} (hy : y < n) (hx : x < 637)
    (inside : pixelPlace y x < m.analog.size) :
    (encodeRows cfg e m n).analog.getD (pixelPlace y x) 0#8 =
      low8 (clamp (pixelLevel e y x (encodeColumns cfg e (encodeRows cfg e m y) y (x + 1)).iir) 0#32 110#32) := by
  induction n with
  | zero => omega
  | succ n ih =>
    rw [encodeRows_succ]
    by_cases last : y = n
    · subst last
      rw [encodeRow_eq, destw_cfg, encodeColumns_getD_column e _ y hx (by rwa [encodeRows_size])]
    · rw [encodeRow_getD_other e _ (by unfold pixelPlace; omega), ih (by omega)]

/-- The filters on row `y` of ENCODE, before column `x`. -/
def rowFilters (s : State) (b : SignalBuffers) (y x : Nat) : PerChannel IirUnit :=
  (encodeColumns cfg (encodeEnv s) (pictureRows s b y) y x).iir

/-- The sample of a pixel after ENCODE. -/
theorem pictureRows_pixel (s : State) (b : SignalBuffers) {y x : Nat} (hy : y < 232) (hx : x < 637) :
    (pictureRows s b 232).analog.getD (pixelPlace y x) 0#8 =
      low8 (clamp (pixelLevel (encodeEnv s) y x (rowFilters s b y (x + 1))) 0#32 110#32) :=
  encodeRows_getD_pixel _ _ hy hx (by rw [encodeStart_size]; unfold pixelPlace; omega)

/-- The sample of a place outside the picture after ENCODE. -/
theorem pictureRows_outside (s : State) (b : SignalBuffers) {n t : Nat} (ht : t < 910) (h : ¬ inPicture n t) :
    (pictureRows s b 232).analog.getD (n * 910 + t) 0#8 = (encodeStart s b).analog.getD (n * 910 + t) 0#8 :=
  encodeRows_getD_other _ _ fun y hy => by unfold pixelPlace; omega

/-- A place inside the picture is a pixel's. -/
theorem pixel_of_inPicture {n t : Nat} (h : inPicture n t) :
    ∃ y x, y < 232 ∧ x < 637 ∧ n * 910 + t = pixelPlace y x := by
  obtain ⟨n0, n1, t0, t1⟩ := h
  exact ⟨n - 29, t - 216, by omega, by omega, by unfold pixelPlace; omega⟩

/-- ENCODE keeps the coefficients of the filters. -/
theorem pictureRows_c (s : State) (b : SignalBuffers) (n : Nat) (k : Channel) :
    (channelGet (pictureRows s b n).iir k).c = (channelGet s.iir k).c := by
  unfold pictureRows
  induction n with
  | zero => rfl
  | succ n ih => rw [encodeRows_succ, encodeRow_eq, encodeColumns_c, ih]

/-- Every sample after ENCODE: the sync level, a level of the picture, or the old sample. -/
theorem pictureRows_samples (s : State) {b : SignalBuffers} (wf : Memory.wf b.analog) {n t : Nat} (hn : n < 262)
    (ht : t < 910) :
    (∀ v, syncLevelAt (s.args.a3.getLsbD 0) (s.args.a4 != 0#32) n t = some v →
      (Memory.read (memoryOf (pictureRows s b 232).analog) (n * 910 + t)).toInt = v) ∧
    (inPicture n t → 0 ≤ (Memory.read (memoryOf (pictureRows s b 232).analog) (n * 910 + t)).toInt ∧
      (Memory.read (memoryOf (pictureRows s b 232).analog) (n * 910 + t)).toInt ≤ 110) ∧
    (syncLevelAt (s.args.a3.getLsbD 0) (s.args.a4 != 0#32) n t = none → ¬ inPicture n t →
      Memory.read (memoryOf (pictureRows s b 232).analog) (n * 910 + t) = Memory.read b.analog (n * 910 + t)) := by
  obtain ⟨level, kept⟩ := encodeStart_getD (s := s) wf hn ht
  rw [memoryOf_read]
  refine ⟨fun v sync => ?_, fun inside => ?_, fun none outside => ?_⟩
  · have outside : ¬ inPicture n t := fun inside => by
      cases sync.symm.trans (syncLevelAt_of_inPicture inside)
    rw [pictureRows_outside s b ht outside]
    exact level v sync
  · obtain ⟨y, x, hy, hx, place⟩ := pixel_of_inPicture inside
    rw [place, pictureRows_pixel s b hy hx, storedLevel_toInt]
    omega
  · rw [pictureRows_outside s b ht outside]
    exact kept none

/-- Settles O24. -/
theorem encodeWritesTheField : Obligations.EncodeWritesTheField := by
  intro s b hs wf hw hh
  exact ⟨memoryOf (pictureRows s b 232).analog, (pictureRows s b 232).iir, (pictureRows s b 232).oobCount,
    exec_encode_of_some hs hw hh, pictureRows_c s b 232, fun n t hn ht => pictureRows_samples s wf hn ht⟩

/-! ## The rows of the source (R136, R137) -/

theorem sourceRowA_eq (s : State) (y : Nat) :
    sourceRowA cfg (encodeArgs s) y = clampRow s.args.a2 (rowBeforeClampA s.args y) := rfl

theorem sourceRowB_eq (s : State) (y : Nat) :
    sourceRowB cfg (encodeArgs s) y = clampRow s.args.a2 (rowBeforeClampB s.args y) := rfl

theorem pixelAddr_eq (s : State) (x : Nat) (row : Word) :
    pixelAddr (encodeArgs s) (sourceColumn cfg (encodeArgs s) x) row = sourceAddr s.args x row := rfl

/-- A row before `h` is taken as it is. -/
theorem clampRow_of_lt {h row : Word} (lt : row.toInt < h.toInt) : clampRow h row = row ∧ row ≠ h := by
  refine ⟨if_neg fun above => ?_, fun same => absurd lt (same ▸ lt_irrefl _)⟩
  exact absurd (BitVec.slt_iff_toInt_lt.1 above) (by omega)

/-- A row from `h` on is taken as row `h`. -/
theorem clampRow_of_le {h row : Word} (le : h.toInt ≤ row.toInt) : clampRow h row = h := by
  unfold clampRow
  split_ifs with above
  · rfl
  · refine BitVec.eq_of_toInt_eq (le_antisymm ?_ le)
    exact not_lt.1 fun lt => above (BitVec.slt_iff_toInt_lt.2 lt)

/-! ## One output row (R136 to R140) -/

/-- A row starts from accumulators 0, with the coefficients of before the command. -/
theorem rowFilters_zero (s : State) (b : SignalBuffers) (y : Nat) : rowFilters s b y 0 =
    { y := ⟨s.iir.y.c, 0#32⟩, i := ⟨s.iir.i.c, 0#32⟩, q := ⟨s.iir.q.c, 0#32⟩ } := by
  rw [← show (pictureRows s b y).iir.y.c = s.iir.y.c from pictureRows_c s b y .y,
    ← show (pictureRows s b y).iir.i.c = s.iir.i.c from pictureRows_c s b y .i,
    ← show (pictureRows s b y).iir.q.c = s.iir.q.c from pictureRows_c s b y .q]
  rfl

/-- The last row leaves the filters. -/
theorem rowFilters_last (s : State) (b : SignalBuffers) : (pictureRows s b 232).iir = rowFilters s b 231 637 := by
  rw [pictureRows, encodeRows_succ, encodeRow_eq, destw_cfg, rowFilters, pictureRows]

theorem carrier_eq (n : Nat) :
    quadAt carrier n = if n % 4 = 1 then 1#32 else if n % 4 = 3 then -1#32 else 0#32 := by
  have phase : n % 4 = 0 ∨ n % 4 = 1 ∨ n % 4 = 2 ∨ n % 4 = 3 := by omega
  unfold quadAt carrier
  rcases phase with h | h | h | h <;> simp [h]

theorem linePhase_eq (y : Nat) : linePhase cfg y = if (y + 29) % 2 = 0 then 1#32 else -1#32 := rfl

/-- The two ways to say that a level is clamped to [0, 110]. -/
theorem clamped_level_eq (v : Int) : max 0 (min 110 v) = if v < 0 then 0 else if 110 < v then 110 else v := by
  split_ifs <;> omega

/-- The composite level of R140 with the chroma written as one sum. -/
theorem pixelLevel_eq (s : State) (y x : Nat) (iir : PerChannel IirUnit) :
    pixelLevel (encodeEnv s) y x iir = 7#32 + s.tuning.blackPoint + (BitVec.sdiv ((iir.y.h +
      (if s.args.a4 = 0#32 then 0#32
       else iir.i.h * linePhase cfg y * quadAt carrier x + iir.q.h * linePhase cfg y * quadAt carrier (x + 3)))
        * 100#32 * s.tuning.whitePoint) 100#32).sshiftRight 10 := by
  have color : (encodeEnv s).args.color = (s.args.a4 != 0#32) := rfl
  rw [pixelLevel, composite, color]
  by_cases off : s.args.a4 = 0#32
  · simp only [off, bne_self_eq_false, Bool.false_eq_true, if_false, if_true, BitVec.add_zero]
    rfl
  · simp only [bne_iff_ne, ne_eq, off, not_false_eq_true, if_true, if_false, BitVec.add_assoc]
    rfl

/-- Settles O26: the run is that of the row's filters, and each pixel is read and stored as `encodePixel` does. -/
theorem encodePictureRow : Obligations.EncodePictureRow := by
  rintro s t b b' y _ _ _ hs - hw hh hy rfl rfl rfl run ht
  obtain ⟨rfl, rfl⟩ := exec_encode_parts hs hw hh run ht
  refine ⟨rowFilters s b y, rowFilters_zero s b y, fun last => ?_, fun x hx => ?_⟩
  · rw [encodedState_iir, last, rowFilters_last]
  obtain ⟨p, p', readA, readB, step, -, -, wordA, wordB⟩ := encodePixel_cases cfg (encodeEnv s)
    (rowPlan cfg (encodeEnv s).args y) (encodeColumns cfg (encodeEnv s) (pictureRows s b y) y x) x
  rw [← encodeColumns_succ] at step
  simp only [rowPlan, encodeEnv, sourceRowA_eq, sourceRowB_eq, pixelAddr_eq] at readA readB wordA wordB
  refine ⟨p, p', fun lt => ?_, fun lt => ?_, fun w found => ⟨fun le => ?_, fun le => ?_⟩,
    step.trans (bandlimit_eq _ _), ?_⟩
  · obtain ⟨kept, ne⟩ := clampRow_of_lt lt
    rw [kept] at readA
    exact readA ne
  · obtain ⟨kept, ne⟩ := clampRow_of_lt lt
    rw [kept] at readB
    exact readB ne
  · rw [clampRow_of_le le] at wordA
    exact wordA w found
  · rw [clampRow_of_le le] at wordB
    exact wordB w found
  · have place : x + 216 + (y + 29) * 910 = pixelPlace y x := Nat.add_comm _ _
    have level := pixelLevel_eq s y x (rowFilters s b y (x + 1))
    simp only [carrier_eq] at level
    rw [place, memoryOf_read, pictureRows_pixel s b hy hx, storedLevel_toInt, level, linePhase_eq]
    exact clamped_level_eq _

/-! ## The reads of row `h` (R137) -/

/-- How many `OOB_SRC` values a pixel draws. -/
def pixelDraws (s : State) (y x : Nat) : Nat :=
  drawsOf (encodeArgs s) s.xmem (sourceColumn cfg (encodeArgs s) x) (sourceRowA cfg (encodeArgs s) y) +
    drawsOf (encodeArgs s) s.xmem (sourceColumn cfg (encodeArgs s) x) (sourceRowB cfg (encodeArgs s) y)

theorem encodeColumns_oobCount (s : State) (m : Modulator) (y n : Nat) :
    (encodeColumns cfg (encodeEnv s) m y n).oobCount = m.oobCount + ∑ x ∈ Finset.range n, pixelDraws s y x := by
  induction n with
  | zero => rfl
  | succ n ih =>
    obtain ⟨p, p', -, -, -, -, count, -⟩ := encodePixel_cases cfg (encodeEnv s)
      (rowPlan cfg (encodeEnv s).args y) (encodeColumns cfg (encodeEnv s) m y n) n
    rw [encodeColumns_succ, count, ih, Finset.sum_range_succ, Nat.add_assoc, Nat.add_assoc]
    rfl

theorem pictureRows_oobCount (s : State) (b : SignalBuffers) (n : Nat) :
    (pictureRows s b n).oobCount = s.oobCount + ∑ y ∈ Finset.range n, ∑ x ∈ Finset.range 637, pixelDraws s y x := by
  unfold pictureRows
  induction n with
  | zero => rfl
  | succ n ih =>
    rw [encodeRows_succ, encodeRow_eq, destw_cfg, encodeColumns_oobCount, ih,
      Finset.sum_range_succ (fun y => ∑ x ∈ Finset.range 637, pixelDraws s y x), Nat.add_assoc]

/-- ENCODE draws no value exactly when no pixel does. -/
theorem pictureRows_oobCount_eq_iff (s : State) (b : SignalBuffers) :
    (pictureRows s b 232).oobCount = s.oobCount ↔ ∀ y x, y < 232 → x < 637 → pixelDraws s y x = 0 := by
  rw [pictureRows_oobCount]
  have none : ∑ y ∈ Finset.range 232, ∑ x ∈ Finset.range 637, pixelDraws s y x = 0 ↔
      ∀ y x, y < 232 → x < 637 → pixelDraws s y x = 0 := by
    simp only [Finset.sum_eq_zero_iff, Finset.mem_range]
    exact ⟨fun h y x hy hx => h y hy x hx, fun h y hy x hx => h y x hy hx⟩
  rw [← none]
  omega

/-- A source row draws where it is row `h` and nobody has written the word. -/
theorem drawsOf_clampRow (s : State) (x : Nat) (row : Word) :
    drawsOf (encodeArgs s) s.xmem (sourceColumn cfg (encodeArgs s) x) (clampRow s.args.a2 row) = 0 ↔
      (s.args.a2.toInt ≤ row.toInt → XMem.find s.xmem (sourceAddr s.args x s.args.a2) ≠ none) := by
  have height : (encodeArgs s).h = s.args.a2 := rfl
  unfold drawsOf
  rw [pixelAddr_eq, height]
  rcases lt_or_ge row.toInt s.args.a2.toInt with lt | le
  · obtain ⟨kept, ne⟩ := clampRow_of_lt lt
    simp [kept, ne, not_le.2 lt]
  · simp [clampRow_of_le le, le]

/-- The field's shear of the source rows, on integers. -/
theorem rowShear_toInt {a : Args} (h : 1 ≤ a.a2.toInt) (h' : a.a2.toInt < 2 ^ 23) :
    (rowShear a).toInt = if a.a3.getLsbD 0 then (a.a2.toInt + 232) / 232 / 2 else 0 := by
  have f2 : (2#32 : Word).toInt = 2 := by decide
  have f232 : (232#32 : Word).toInt = 232 := by decide
  have shear {v : Word} (v0 : 0 ≤ v.toInt) (v1 : v.toInt < 2 ^ 24) :
      (BitVec.sdiv (BitVec.sdiv (v + 232#32) 232#32) 2#32).toInt = (v.toInt + 232) / 232 / 2 := by
    have sum : (v + 232#32).toInt = v.toInt + 232 := by
      rw [add_toInt, f232] <;> rw [f232] <;> omega
    have ratio : (tdiv (v + 232#32) 232#32).toInt = (v.toInt + 232) / 232 := by
      rw [tdiv_toInt _ _ (.inr (by decide)), sum, f232, Int.tdiv_eq_ediv_of_nonneg (by omega)]
    refine (tdiv_toInt (tdiv (v + 232#32) 232#32) 2#32 (.inr (by decide))).trans ?_
    rw [ratio, f2, Int.tdiv_eq_ediv_of_nonneg (by omega)]
  have bit : (a.a3 &&& 1#32) = if a.a3.getLsbD 0 then 1#32 else 0#32 := by
    refine BitVec.eq_of_toNat_eq ?_
    rw [show (a.a3 &&& 1#32).toNat = a.a3.toNat % 2 from toNat_and_mask a.a3 (k := 1) (by decide),
      BitVec.getLsbD, Nat.testBit_zero]
    rcases Nat.mod_two_eq_zero_or_one a.a3.toNat with h | h <;> simp [h]
  unfold rowShear
  rw [bit]
  split_ifs
  · rw [BitVec.one_mul, shear (by omega) (by omega)]
  · rw [BitVec.zero_mul, shear (by decide) (by decide)]
    rfl

/-- The two source rows of an output row before the clamp, on integers. -/
theorem rowBeforeClamp_toInt {a : Args} (h : 1 ≤ a.a2.toInt) (h' : a.a2.toInt < 2 ^ 23) {y : Nat} (hy : y < 232) :
    (rowBeforeClampA a y).toInt = (y : Int) * a.a2.toInt / 232 + (rowShear a).toInt ∧
      (rowBeforeClampB a y).toInt = ((y : Int) * a.a2.toInt + 116) / 232 + (rowShear a).toInt := by
  have f116 : (116#32 : Word).toInt = 116 := by decide
  have f232 : (232#32 : Word).toInt = 232 := by decide
  have shear := rowShear_toInt h h'
  have shear0 : 0 ≤ (rowShear a).toInt := by rw [shear]; split_ifs <;> omega
  have shear1 : (rowShear a).toInt < 2 ^ 23 := by rw [shear]; split_ifs <;> omega
  have count : (BitVec.ofNat 32 y).toInt = y := ofCount_toInt (by omega)
  have least : 0 ≤ (y : Int) * a.a2.toInt := mul_nonneg (Int.natCast_nonneg y) (by omega)
  have most : (y : Int) * a.a2.toInt ≤ 231 * 2 ^ 23 :=
    mul_le_mul (by omega) (by omega) (by omega) (by decide)
  have product : (BitVec.ofNat 32 y * a.a2).toInt = y * a.a2.toInt := by
    rw [mul_toInt, count] <;> rw [count] <;> linarith
  generalize (y : Int) * a.a2.toInt = m at least most product
  have quotient {v : Word} (v0 : 0 ≤ v.toInt) : (BitVec.sdiv v 232#32).toInt = v.toInt / 232 := by
    refine (tdiv_toInt v 232#32 (.inr (by decide))).trans ?_
    rw [f232, Int.tdiv_eq_ediv_of_nonneg v0]
  have rounded : (BitVec.ofNat 32 y * a.a2 + 116#32).toInt = m + 116 := by
    rw [add_toInt, product, f116] <;> rw [product, f116] <;> omega
  have rowA := quotient (v := BitVec.ofNat 32 y * a.a2) (by omega)
  have rowB := quotient (v := BitVec.ofNat 32 y * a.a2 + 116#32) (by omega)
  constructor
  · rw [rowBeforeClampA, add_toInt (by omega) (by omega), rowA, product]
  · rw [rowBeforeClampB, add_toInt (by omega) (by omega), rowB, rounded]

/-- The heights at which some output row is row `h` of the source (R137): the last output row reaches it first. -/
theorem rowH_iff {a : Args} (h : 1 ≤ a.a2.toInt) (h' : a.a2.toInt < 2 ^ 23) :
    (∃ y, y < 232 ∧ (a.a2.toInt ≤ (rowBeforeClampA a y).toInt ∨ a.a2.toInt ≤ (rowBeforeClampB a y).toInt)) ↔
      (a.a2.toInt ≤ 116 ∨ (a.a3.getLsbD 0 = true ∧ 232 ≤ a.a2.toInt ∧ a.a2.toInt ≤ 348)) := by
  have shear := rowShear_toInt h h'
  constructor
  · rintro ⟨y, hy, reaches⟩
    obtain ⟨rowA, rowB⟩ := rowBeforeClamp_toInt h h' hy
    have most : (y : Int) * a.a2.toInt ≤ 231 * a.a2.toInt := mul_le_mul_of_nonneg_right (by omega) (by omega)
    rw [rowA, rowB, shear] at reaches
    generalize (y : Int) * a.a2.toInt = m at most reaches
    by_cases odd : a.a3.getLsbD 0 = true
    · rw [if_pos odd] at reaches
      have heights : a.a2.toInt ≤ 116 ∨ (232 ≤ a.a2.toInt ∧ a.a2.toInt ≤ 348) := by omega
      exact heights.imp_right (And.intro odd)
    · rw [if_neg odd] at reaches
      exact .inl (by omega)
  · intro heights
    obtain ⟨-, rowB⟩ := rowBeforeClamp_toInt h h' (y := 231) (by decide)
    refine ⟨231, by decide, .inr ?_⟩
    rw [rowB, shear, show ((231 : Nat) : Int) = 231 from rfl]
    rcases heights with low | ⟨odd, high⟩
    · split_ifs <;> omega
    · rw [if_pos odd]
      omega

/-- Settles O28. -/
theorem encodeReadsRowHExactlyForTheseHeights : Obligations.EncodeReadsRowHExactlyForTheseHeights := by
  intro s t present hw hh run
  obtain ⟨b, hs⟩ := Option.ne_none_iff_exists'.1 present
  obtain rfl := Host.Outcome.next.inj (run.symm.trans (exec_encode_of_some hs hw hh))
  have draws (y x : Nat) : pixelDraws s y x = 0 ↔
      ((s.args.a2.toInt ≤ (rowBeforeClampA s.args y).toInt →
        XMem.find s.xmem (sourceAddr s.args x s.args.a2) ≠ none) ∧
      (s.args.a2.toInt ≤ (rowBeforeClampB s.args y).toInt →
        XMem.find s.xmem (sourceAddr s.args x s.args.a2) ≠ none)) := by
    rw [pixelDraws, Nat.add_eq_zero_iff, sourceRowA_eq, sourceRowB_eq, drawsOf_clampRow, drawsOf_clampRow]
  rw [encodedState_oobCount, ne_eq, pictureRows_oobCount_eq_iff]
  refine ⟨fun unwritten low => ?_, fun written y x _ hx => (draws y x).2 ⟨fun _ => written x hx, fun _ => written x hx⟩⟩
  rw [← rowH_iff hh low]
  constructor
  · intro some
    by_contra nowhere
    refine some fun y x hy hx => (draws y x).2 ⟨fun le => ?_, fun le => ?_⟩
    · exact absurd ⟨y, hy, .inl le⟩ nowhere
    · exact absurd ⟨y, hy, .inr le⟩ nowhere
  · rintro ⟨y, hy, reaches⟩ none
    obtain ⟨noneA, noneB⟩ := (draws y 0).1 (none y 0 hy (by decide))
    rcases reaches with le | le
    · exact noneA le (unwritten 0 (by decide))
    · exact noneB le (unwritten 0 (by decide))

/-! ## What ENCODE depends on (R144) -/

/-- The words of source row `h` that ENCODE can address have all been written. -/
def rowHWritten (s : State) : Prop := ∀ x, x < 637 → XMem.find s.xmem (sourceAddr s.args x s.args.a2) ≠ none

/-- Two states give a source row the same words: below row `h` what is read, in row `h` what is written. -/
def sameSource (s s' : State) (x : Nat) (row : Word) : Prop :=
  (row.toInt < s.args.a2.toInt →
    XMem.read s'.xmem (sourceAddr s'.args x row) = XMem.read s.xmem (sourceAddr s.args x row)) ∧
  (s.args.a2.toInt ≤ row.toInt →
    XMem.find s'.xmem (sourceAddr s'.args x s.args.a2) = XMem.find s.xmem (sourceAddr s.args x s.args.a2))

/-- The next `OOB_SRC` values are the same ones, or none is ever drawn. -/
def sameDraws (s : State) (n n' : Nat) : Prop := n' = n ∨ rowHWritten s

/-- A source read of two states that agree. -/
theorem readSource_same {s s' : State} {x n n' : Nat} {row : Word} (hx : x < 637) (height : s'.args.a2 = s.args.a2)
    (source : sameSource s s' x row) (draws : sameDraws s n n') :
    (readSource (encodeArgs s') s'.xmem n' (sourceColumn cfg (encodeArgs s') x) (clampRow s.args.a2 row)).pixel =
      (readSource (encodeArgs s) s.xmem n (sourceColumn cfg (encodeArgs s) x) (clampRow s.args.a2 row)).pixel ∧
    sameDraws s
      (readSource (encodeArgs s) s.xmem n (sourceColumn cfg (encodeArgs s) x) (clampRow s.args.a2 row)).oobCount
      (readSource (encodeArgs s') s'.xmem n' (sourceColumn cfg (encodeArgs s') x)
        (clampRow s.args.a2 row)).oobCount := by
  obtain ⟨below, past⟩ := source
  have h : (encodeArgs s).h = s.args.a2 := rfl
  have h' : (encodeArgs s').h = s.args.a2 := height
  unfold readSource
  rw [pixelAddr_eq, pixelAddr_eq, h, h']
  rcases lt_or_ge row.toInt s.args.a2.toInt with lt | le
  · obtain ⟨kept, ne⟩ := clampRow_of_lt lt
    rw [kept, if_neg ne, if_neg ne]
    exact ⟨below lt, draws⟩
  · rw [clampRow_of_le le, if_pos rfl, if_pos rfl, readPastRaster, readPastRaster, past le]
    rcases word : XMem.find s.xmem (sourceAddr s.args x s.args.a2) with _ | w
    · rcases draws with rfl | written
      · exact ⟨rfl, .inl rfl⟩
      · exact absurd word (written x hx)
    · exact ⟨rfl, draws⟩

/-- Two states agree on all that ENCODE reads. -/
structure SameInputs (s s' : State) : Prop where
  width : s'.args.a1 = s.args.a1
  height : s'.args.a2 = s.args.a2
  field : s'.args.a3 &&& 1#32 = s.args.a3 &&& 1#32
  color : s'.args.a4 = 0#32 ↔ s.args.a4 = 0#32
  sourceA : ∀ x y, x < 637 → y < 232 → sameSource s s' x (rowBeforeClampA s.args y)
  sourceB : ∀ x y, x < 637 → y < 232 → sameSource s s' x (rowBeforeClampB s.args y)
  black : s'.tuning.blackPoint = s.tuning.blackPoint
  white : s'.tuning.whitePoint = s.tuning.whitePoint
  coefficients : ∀ k, (channelGet s'.iir k).c = (channelGet s.iir k).c
  draws : sameDraws s s.oobCount s'.oobCount

section SameInputs

variable {s s' : State} (same : SameInputs s s') (b b' : SignalBuffers)
include same

theorem rowBeforeClamp_same (y : Nat) : rowBeforeClampA s'.args y = rowBeforeClampA s.args y ∧
    rowBeforeClampB s'.args y = rowBeforeClampB s.args y := by
  simp only [rowBeforeClampA, rowBeforeClampB, rowShear, same.height, same.field, and_self]

/-- One pixel of two states that agree. -/
theorem encodePixel_same {m m' : Modulator} {y x : Nat} (hx : x < 637) (hy : y < 232) (iir : m'.iir = m.iir)
    (draws : sameDraws s m.oobCount m'.oobCount) :
    (encodePixel cfg (encodeEnv s') (rowPlan cfg (encodeEnv s').args y) m' x).iir =
      (encodePixel cfg (encodeEnv s) (rowPlan cfg (encodeEnv s).args y) m x).iir ∧
    sameDraws s (encodePixel cfg (encodeEnv s) (rowPlan cfg (encodeEnv s).args y) m x).oobCount
      (encodePixel cfg (encodeEnv s') (rowPlan cfg (encodeEnv s').args y) m' x).oobCount := by
  obtain ⟨rowA, rowB⟩ := rowBeforeClamp_same same y
  obtain ⟨pixelA, drawsA⟩ := readSource_same hx same.height (same.sourceA x y hx hy) draws
  obtain ⟨pixelB, drawsB⟩ := readSource_same hx same.height (same.sourceB x y hx hy) drawsA
  simp only [encodePixel, rowPlan, encodeEnv, sourceRowA_eq, sourceRowB_eq, rowA, rowB, same.height, iir, pixelA,
    pixelB, true_and]
  exact drawsB

/-- The columns of a row of two states that agree. -/
theorem encodeColumns_same {m m' : Modulator} {y n : Nat} (hn : n ≤ 637) (hy : y < 232)
    (iir : resetIirs m'.iir = resetIirs m.iir) (draws : sameDraws s m.oobCount m'.oobCount) :
    (encodeColumns cfg (encodeEnv s') m' y n).iir = (encodeColumns cfg (encodeEnv s) m y n).iir ∧
      sameDraws s (encodeColumns cfg (encodeEnv s) m y n).oobCount
        (encodeColumns cfg (encodeEnv s') m' y n).oobCount := by
  induction n with
  | zero => exact ⟨iir, draws⟩
  | succ n ih =>
    obtain ⟨before, drawn⟩ := ih (by omega)
    rw [encodeColumns_succ, encodeColumns_succ]
    exact encodePixel_same same (by omega) hy before drawn

/-- Each row starts from the same filters in two states that agree. -/
theorem resetIirs_same (y : Nat) :
    resetIirs (pictureRows s' b' y).iir = resetIirs (pictureRows s b y).iir := by
  have start (k : Channel) : (channelGet (pictureRows s' b' y).iir k).c = (channelGet (pictureRows s b y).iir k).c := by
    rw [pictureRows_c, pictureRows_c, same.coefficients]
  have y' : (pictureRows s' b' y).iir.y.c = (pictureRows s b y).iir.y.c := start .y
  have i' : (pictureRows s' b' y).iir.i.c = (pictureRows s b y).iir.i.c := start .i
  have q' : (pictureRows s' b' y).iir.q.c = (pictureRows s b y).iir.q.c := start .q
  simp only [resetIirs, iirReset, y', i', q']

theorem pictureRows_sameDraws {n : Nat} (hn : n ≤ 232) :
    sameDraws s (pictureRows s b n).oobCount (pictureRows s' b' n).oobCount := by
  induction n with
  | zero => exact same.draws
  | succ n ih =>
    rw [pictureRows, pictureRows, encodeRows_succ, encodeRows_succ, encodeRow_eq, encodeRow_eq, destw_cfg]
    exact (encodeColumns_same same le_rfl (by omega) (resetIirs_same same b b' n) (ih (by omega))).2

/-- The filters on every row are the same in two states that agree. -/
theorem rowFilters_same {y x : Nat} (hy : y < 232) (hx : x ≤ 637) : rowFilters s' b' y x = rowFilters s b y x :=
  (encodeColumns_same same hx hy (resetIirs_same same b b' y) (pictureRows_sameDraws same b b' (by omega))).1

theorem pixelLevel_same (y x : Nat) (iir : PerChannel IirUnit) :
    pixelLevel (encodeEnv s') y x iir = pixelLevel (encodeEnv s) y x iir := by
  simp only [pixelLevel_eq, same.black, same.white, same.color]

/-- The field and the colour of two states that agree. -/
theorem syncLevelAt_same (n t : Nat) : syncLevelAt (s'.args.a3.getLsbD 0) (s'.args.a4 != 0#32) n t =
    syncLevelAt (s.args.a3.getLsbD 0) (s.args.a4 != 0#32) n t := by
  have odd : s'.args.a3.getLsbD 0 = s.args.a3.getLsbD 0 := by
    simpa using congrArg (fun w : Word => w.getLsbD 0) same.field
  have color : (s'.args.a4 != 0#32) = (s.args.a4 != 0#32) := by
    rw [Bool.eq_iff_iff]
    simp [same.color]
  rw [odd, color]

/-- Every sample that ENCODE writes is the same in two states that agree. -/
theorem pictureRows_same {b b' : SignalBuffers} (wf : Memory.wf b.analog) (wf' : Memory.wf b'.analog) {n t : Nat}
    (hn : n < 262) (ht : t < 910)
    (written : syncLevelAt (s.args.a3.getLsbD 0) (s.args.a4 != 0#32) n t ≠ none ∨ inPicture n t) :
    Memory.read (memoryOf (pictureRows s' b' 232).analog) (n * 910 + t) =
      Memory.read (memoryOf (pictureRows s b 232).analog) (n * 910 + t) := by
  rcases written with sync | inside
  · obtain ⟨v, level⟩ := Option.ne_none_iff_exists'.1 sync
    refine BitVec.eq_of_toInt_eq ?_
    rw [(pictureRows_samples s wf hn ht).1 v level,
      (pictureRows_samples s' wf' hn ht).1 v (syncLevelAt_same same n t ▸ level)]
  · obtain ⟨y, x, hy, hx, place⟩ := pixel_of_inPicture inside
    rw [memoryOf_read, memoryOf_read, place, pictureRows_pixel s b hy hx, pictureRows_pixel s' b' hy hx,
      rowFilters_same same b b' hy (by omega), pixelLevel_same same]

end SameInputs

/-- Settles O29. -/
theorem encodeDependsOnItsInputsOnly : Obligations.EncodeDependsOnItsInputsOnly := by
  intro s s' t t' b b' c c' hs hs' wf wf' hw hh width height field color source black white coefficients draws
    run run' ht ht'
  obtain ⟨rfl, rfl⟩ := exec_encode_parts hs hw hh run ht
  obtain ⟨rfl, rfl⟩ := exec_encode_parts hs' (width ▸ hw) (height ▸ hh) run' ht'
  have same : SameInputs s s' :=
    { width, height, field, color, black, white, coefficients, draws
      sourceA := fun x y hx hy => source x y hx hy _ (by simp)
      sourceB := fun x y hx hy => source x y hx hy _ (by simp) }
  refine ⟨?_, fun n x hn hx written => ?_⟩
  · rw [encodedState_iir, encodedState_iir, rowFilters_last, rowFilters_last]
    exact rowFilters_same (y := 231) (x := 637) same b b' (by omega) le_rfl
  · have samples := pictureRows_same same wf wf' hn hx written
    dsimp only
    exact samples

end Sys2Proof.Machine
end

section
/-! 10_state.md R39 and section 2: the state each command writes, and the invariant that every step keeps. -/

namespace Sys2Proof.Machine

/-! ## What the commands with memories write -/

/-- The registers, XMEM and flags that ENCODE leaves alone. -/
theorem encodedState_frame (s : State) (b : SignalBuffers) (m : Modulator) : encodedState s b m = { s with
    iir := (encodedState s b m).iir, signal := (encodedState s b m).signal
    oobCount := (encodedState s b m).oobCount, flags := (encodedState s b m).flags } := rfl

/-- A new ANALOG leaves the other two memories alone. -/
theorem otherMemories_same (b : SignalBuffers) (m : Memory) :
    (some { b with analog := m }).map (fun b : SignalBuffers => (b.inp, b.scratch)) =
      (some b).map (fun b => (b.inp, b.scratch)) := rfl

/-- ENCODE on checked operands keeps to its row of the table: coefficients, `INP` and SCRATCH, and every sample
outside the sync pattern and the picture. -/
theorem encodedState_writeSet (s : State) (b : SignalBuffers) (hs : s.signal = some b) :
    (∀ k, (channelGet (encodedState s b (pictureRows s b 232)).iir k).c = (channelGet s.iir k).c) ∧
    (encodedState s b (pictureRows s b 232)).signal.map (fun b => (b.inp, b.scratch)) =
      s.signal.map (fun b => (b.inp, b.scratch)) ∧
    ∀ c c', s.signal = some c → (encodedState s b (pictureRows s b 232)).signal = some c' → Memory.wf c.analog →
      ∀ n x, n < 262 → x < 910 →
        syncLevelAt (s.args.a3.getLsbD 0) (s.args.a4 != 0#32) n x = none → ¬ inPicture n x →
        Memory.read c'.analog (n * 910 + x) = Memory.read c.analog (n * 910 + x) := by
  rw [encodedState_iir, encodedState_signal]
  refine ⟨pictureRows_c s b 232, by rw [hs, otherMemories_same], fun c c' hc hc' wf n x hn hx level outside => ?_⟩
  obtain rfl := Option.some.inj (hs.symm.trans hc)
  obtain rfl := Option.some.inj hc'
  obtain ⟨-, -, kept⟩ := pictureRows_samples s wf hn hx
  dsimp only
  exact kept level outside

/-- The registers, operands and flags that DECODE leaves alone. -/
theorem decodedState_writeSet (s : State) (b : SignalBuffers) (n : NoiseState) (v : VSync) (st : LineState) :
    decodedState s b n v st = { s with
      rn := (decodedState s b n v st).rn, ccref := (decodedState s b n v st).ccref
      hsync := (decodedState s b n v st).hsync, vsync := (decodedState s b n v st).vsync
      fieldDet := (decodedState s b n v st).fieldDet, eq := (decodedState s b n v st).eq
      signal := (decodedState s b n v st).signal, xmem := (decodedState s b n v st).xmem
      flags := (decodedState s b n v st).flags } := rfl

/-- What CRT_INIT leaves alone. -/
theorem initialise_frame (c : Cfg) (s : State) : initialise c s = { s with
    flags := (initialise c s).flags, tuning := (initialise c s).tuning, hsync := (initialise c s).hsync
    vsync := (initialise c s).vsync, outw := (initialise c s).outw, outh := (initialise c s).outh
    outBase := (initialise c s).outBase, rn := (initialise c s).rn, fieldDet := (initialise c s).fieldDet
    ccref := (initialise c s).ccref, iir := (initialise c s).iir, eq := (initialise c s).eq
    signal := (initialise c s).signal } := rfl

/-- WRSIG.ANALOG on checked operands writes the sample they name. -/
theorem wrsig_samples {s : State} (ok : sigArgsOk cfg s = true) (m : Memory) (v : Sample) {j : Nat}
    (other : j ≠ s.args.a0.toNat * 910 + s.args.a1.toNat) :
    Memory.read (Memory.write m (sigArgIndex cfg s) v) j = Memory.read m j := by
  rw [memory_read_write, (sigArgIndex_eq ok).1, if_neg other]

/-! ## R39 -/

theorem keepsCoefficients_refl (e : PerChannel EqUnit) : keepsCoefficients e e := fun _ => ⟨rfl, rfl, rfl, rfl, rfl⟩

/-- Storing an equalizer with the old one's coefficients and gains keeps those of the file. -/
theorem keepsCoefficients_channelSet {e : PerChannel EqUnit} {k : Channel} {u : EqUnit}
    (kept : u.lf = (channelGet e k).lf ∧ u.hf = (channelGet e k).hf ∧ u.g0 = (channelGet e k).g0 ∧
      u.g1 = (channelGet e k).g1 ∧ u.g2 = (channelGet e k).g2) : keepsCoefficients e (channelSet e k u) := by
  intro j
  by_cases same : j = k
  · subst same
    rwa [channelGet_channelSet_self]
  · rw [channelGet_channelSet_of_ne e u same]
    exact keepsCoefficients_refl e j

/-- Storing a filter with the old one's coefficient keeps it. -/
theorem coefficient_channelSet {f : PerChannel IirUnit} {k : Channel} {u : IirUnit} (kept : u.c = (channelGet f k).c) :
    (channelGet (channelSet f k u) k).c = (channelGet f k).c := by
  rw [channelGet_channelSet_self, kept]

/-- A refused command leaves the memories alone. -/
theorem signal_of_raise {s : State} (f : StickyFlag) {b b' : SignalBuffers} (hb : s.signal = some b)
    (hb' : (raise f s).signal = some b') : b' = b := by
  cases f <;> exact Option.some.inj (hb'.symm.trans hb)

/-- Settles O45: each command is an update of the state by the fields of its row, or sets a flag. -/
theorem commandWriteSets : Obligations.CommandWriteSets := by
  intro i s t run
  cases i with
  | nop =>
    rw [exec_nop] at run
    exact (Host.Outcome.next.inj run).symm
  | sincos14 =>
    rw [exec_sincos14] at run
    cases run
    rfl
  | expx =>
    rw [exec_expx] at run
    cases run
    rfl
  | iirInit k =>
    rw [exec_iirInit] at run
    cases run
    exact ⟨rfl, fun j other => channelGet_channelSet_of_ne _ _ other⟩
  | iirReset k =>
    rw [exec_iirReset] at run
    cases run
    exact ⟨rfl, coefficient_channelSet rfl,
      fun j other => channelGet_channelSet_of_ne _ _ other⟩
  | iirStep k =>
    rw [exec_iirStep] at run
    cases run
    exact ⟨rfl, coefficient_channelSet rfl,
      fun j other => channelGet_channelSet_of_ne _ _ other⟩
  | eqInit k =>
    rw [exec_eqInit] at run
    cases run
    exact ⟨rfl, fun j other => channelGet_channelSet_of_ne _ _ other⟩
  | eqReset k =>
    rw [exec_eqReset] at run
    cases run
    exact ⟨rfl, keepsCoefficients_channelSet ⟨rfl, rfl, rfl, rfl, rfl⟩,
      fun j other => channelGet_channelSet_of_ne _ _ other⟩
  | eqStep k =>
    rw [exec_eqStep] at run
    cases run
    exact ⟨rfl, keepsCoefficients_channelSet (by simp),
      fun j other => channelGet_channelSet_of_ne _ _ other⟩
  | crtInit =>
    rcases execCrtInit_cases run with ⟨-, rfl⟩ | ⟨-, rfl⟩
    · exact initialise_frame cfg s
    · rfl
  | crtResize => rcases execCrtResize_cases run with ⟨-, rfl⟩ | ⟨-, rfl⟩ <;> rfl
  | crtReset =>
    rw [exec_crtReset] at run
    cases run
    rfl
  | encode =>
    rcases execEncode_cases run with ⟨-, rfl⟩ | ⟨b, hs, ⟨-, rfl⟩ | ⟨ok, -⟩⟩
    · exact ⟨rfl, fun _ => rfl, rfl, fun c c' hc hc' _ _ _ _ _ _ _ => by rw [signal_of_raise .seq hc hc']⟩
    · exact ⟨rfl, fun _ => rfl, rfl, fun c c' hc hc' _ _ _ _ _ _ _ => by rw [signal_of_raise .arg hc hc']⟩
    · obtain ⟨hw, hh⟩ := (encodeArgsOk_iff s).1 ok
      obtain rfl := Host.Outcome.next.inj (run.symm.trans (exec_encode_of_some hs hw hh))
      exact ⟨encodedState_frame s b _, encodedState_writeSet s b hs⟩
  | decode =>
    rcases execDecode_cases run with ⟨-, rfl⟩ | ⟨b, hs, rfl⟩
    · exact ⟨rfl, keepsCoefficients_refl _, rfl, fun _ _ _ => rfl⟩
    · refine ⟨?_, ?_, ?_, fun fits a outside => ?_⟩
      · rw [decodeField_eq]
        exact decodedState_writeSet s b _ _ _
      · rw [decodeField_eqs]
        exact decodeLines_keepsCoefficients (frameEnv s b) (firstLineState cfg s b)
      · rw [decodeField_signal, hs]
        rfl
      · rw [decodeField_xmem]
        exact lastLineState_find_outside b fits outside
  | rdsig buf => rcases execRdsig_cases run with ⟨-, rfl⟩ | ⟨b, -, ⟨-, rfl⟩ | ⟨-, rfl⟩⟩ <;> rfl
  | wrsig buf =>
    rcases execWrsig_cases run with ⟨-, rfl⟩ | ⟨-, -, rfl⟩ | ⟨b, -, hs, ⟨-, rfl⟩ | ⟨ok, rfl⟩⟩
    · exact ⟨rfl, rfl, fun c c' hc hc' _ _ => by rw [signal_of_raise .ill hc hc']⟩
    · exact ⟨rfl, rfl, fun c c' hc hc' _ _ => by rw [signal_of_raise .seq hc hc']⟩
    · exact ⟨rfl, rfl, fun c c' hc hc' _ _ => by rw [signal_of_raise .arg hc hc']⟩
    · refine ⟨rfl, by rw [hs]; rfl, fun c c' hc hc' j other => ?_⟩
      obtain rfl := Option.some.inj (hs.symm.trans hc)
      obtain rfl := Option.some.inj hc'
      exact wrsig_samples ok _ _ other

end Sys2Proof.Machine
end

section
/-! The invariant of Safety.lean at reset and through every step (10_state.md sections 2, 4 and 6). -/

namespace Sys2Proof.Machine

/-- Settles O49. -/
theorem invariantHoldsAtReset : Obligations.InvariantHoldsAtReset :=
  ⟨rfl, ⟨by decide, by decide⟩, ⟨by decide, by decide⟩, nofun⟩

/-! ## What the invariant reads -/

/-- The invariant reads `BUSY`, the trackers, XMEM, the memories and the raster alone. -/
theorem stateInv_congr {s t : State} (inv : stateInv cfg s) (busy : t.flags.busy = s.flags.busy)
    (hsync : t.hsync = s.hsync) (vsync : t.vsync = s.vsync) (xmem : t.xmem = s.xmem) (signal : t.signal = s.signal)
    (outw : t.outw = s.outw) (outh : t.outh = s.outh) : stateInv cfg t := by
  unfold stateInv trackersOk rasterOk
  rw [busy, hsync, vsync, xmem, signal, outw, outh]
  exact inv

/-- Raising a flag keeps the invariant. -/
theorem stateInv_raise {s : State} (inv : stateInv cfg s) (f : StickyFlag) : stateInv cfg (raise f s) := by
  cases f <;> exact inv

/-- New memories in order on an initialised machine keep the invariant. -/
theorem stateInv_signal {s t : State} {b b' : SignalBuffers} (inv : stateInv cfg s) (hs : s.signal = some b)
    (busy : t.flags.busy = s.flags.busy) (trackers : trackersOk cfg t) (xmem : XMem.wf t.xmem)
    (signal : t.signal = some b') (ok : buffersOk cfg b') (outw : t.outw = s.outw) (outh : t.outh = s.outh) :
    stateInv cfg t := by
  obtain ⟨idle, -, -, memories⟩ := inv
  obtain ⟨-, raster⟩ := memories b hs
  refine ⟨busy.trans idle, trackers, xmem, fun c hc => ?_⟩
  obtain rfl := Option.some.inj (signal.symm.trans hc)
  unfold rasterOk
  rw [outw, outh]
  exact ⟨ok, raster⟩

/-! ## CRT_INIT and the commands that write ANALOG -/

theorem zeroBuffers_ok : buffersOk cfg zeroBuffers :=
  ⟨⟨.nil, nofun⟩, nofun, ⟨.nil, nofun⟩, nofun, nofun, ⟨.nil, nofun⟩, nofun⟩

/-- Trackers at 0 are in range. -/
theorem zeroTrackers_ok : (0#32 : Word).toNat < cfg.crtHres ∧ (0#32 : Word).toNat < cfg.crtVres :=
  ⟨by decide, by decide⟩

/-- CRT_INIT on checked operands. -/
theorem stateInv_initialise {s : State} (inv : stateInv cfg s) (ok : rasterArgsOk s = true) :
    stateInv cfg (initialise cfg s) := by
  obtain ⟨idle, -, xmem, -⟩ := inv
  have raster := (rasterArgsOk_iff s).1 ok
  refine ⟨idle, zeroTrackers_ok, xmem, fun b hb => ?_⟩
  obtain rfl := Option.some.inj hb
  exact ⟨zeroBuffers_ok, raster⟩

/-- CRT_RESIZE on checked operands. -/
theorem stateInv_setRaster {s : State} (inv : stateInv cfg s) (ok : rasterArgsOk s = true) :
    stateInv cfg (setRaster s) := by
  obtain ⟨idle, trackers, xmem, memories⟩ := inv
  exact ⟨idle, trackers, xmem, fun b hb => ⟨(memories b hb).1, (rasterArgsOk_iff s).1 ok⟩⟩

/-- New samples in order keep the memories in order. -/
theorem buffersOk_analog {b : SignalBuffers} {m : Memory} (ok : buffersOk cfg b) (wf : Memory.wf m)
    (below : keysBelow 238420 m) : buffersOk cfg { b with analog := m } := by
  obtain ⟨-, -, others⟩ := ok
  exact ⟨wf, inputSize_cfg ▸ below, others⟩

/-- ENCODE keeps the invariant: its samples fill ANALOG exactly. -/
theorem stateInv_encodedState {s : State} {b : SignalBuffers} {m : Modulator} (inv : stateInv cfg s)
    (hs : s.signal = some b) (size : m.analog.size = 238420) : stateInv cfg (encodedState s b m) := by
  have ⟨_, trackers, xmem, memories⟩ := inv
  exact stateInv_signal inv hs rfl trackers xmem (encodedState_signal s b m)
    (buffersOk_analog (memories b hs).1 (memoryOf_wf m.analog) (size ▸ memoryOf_keysBelow m.analog)) rfl rfl

/-- One sample stored at checked operands. -/
theorem wrsigBuffers_ok {s : State} {b : SignalBuffers} (ok : buffersOk cfg b) (legal : sigArgsOk cfg s = true)
    (v : Sample) : buffersOk cfg { b with analog := Memory.write b.analog (sigArgIndex cfg s) v } := by
  have ⟨wf, below, _⟩ := ok
  refine buffersOk_analog ok (memory_write_wf wf _ v) (memory_write_keysBelow ?_ (sigArgIndex_eq legal).2 v)
  rwa [inputSize_cfg] at below

/-! ## DECODE -/

/-- INP after DECODE: canonical, inside its size, no −128 (R161). -/
theorem decodedInp_ok (s : State) (b : SignalBuffers) :
    Memory.wf (memoryOf (decodeNoise s b).inp) ∧ keysBelow (inputSize cfg) (memoryOf (decodeNoise s b).inp) ∧
      ∀ p ∈ memoryOf (decodeNoise s b).inp, p.2 ≠ 0x80#8 := by
  refine ⟨memoryOf_wf _, ?_, fun p hp least => ?_⟩
  · have below := memoryOf_keysBelow (decodeNoise s b).inp
    rwa [decodeNoise_size, ← inputSize_cfg] at below
  · obtain ⟨listed, -⟩ := mem_ofDense.1 hp
    have noisy := decodeNoise_noisy s b p.1
    rw [Array.getD_eq_getD_getElem?, listed, Option.getD_some, least] at noisy
    exact absurd noisy (by decide)

/-- The entries of SCRATCH that no line may write are zero (R33). -/
def scratchTailZero (a : Array (PerChannel Word)) : Prop := ∀ i, 752 ≤ i → a.getD i zeroTriple = zeroTriple

theorem scratchOf_keysBelow {a : Array (PerChannel Word)} (tail : scratchTailZero a) :
    keysBelow (avLen cfg - 1) (scratchOf a) := by
  intro p hp
  obtain ⟨listed, nonzero⟩ := mem_ofDense.1 hp
  by_contra past
  refine nonzero ?_
  have zero := tail p.1 (not_lt.1 past)
  rwa [Array.getD_eq_getD_getElem?, listed, Option.getD_some] at zero

/-- SCRATCH in order has that tail. -/
theorem triplesOf_tailZero {m : Scratch} (wf : Scratch.wf m) (below : keysBelow (avLen cfg - 1) m) :
    scratchTailZero (triplesOf cfg m) := by
  intro i past
  by_cases inside : i < avLen cfg + 1
  · have unlisted : sparseFind m i = none :=
      sparseFind_of_forall_ne m i fun p hp => Nat.ne_of_lt (lt_of_lt_of_le (below p hp) past)
    rw [triplesOf_getD wf inside, Scratch.read, unlisted, Option.getD_none]
  · rw [Array.getD_eq_getD_getElem?, Array.getElem?_eq_none (by rw [triplesOf_size]; omega), Option.getD_none]

/-- The lines of DECODE keep the horizontal tracker in range, the tail of SCRATCH zero and XMEM canonical. -/
theorem decodeLines_inv (e : DecodeEnv) {st : LineState} (hsync : st.hsync.toNat < 910)
    (tail : scratchTailZero st.scratch) (xmem : XMem.wf st.xmem) :
    (decodeLines cfg e st).hsync.toNat < 910 ∧ scratchTailZero (decodeLines cfg e st).scratch ∧
      XMem.wf (decodeLines cfg e st).xmem := by
  refine ⟨?_, ?_, ?_⟩
  · refine decodeLines_induction_shown (P := fun st => st.hsync.toNat < 910) hsync fun st line beg fin _ => ?_
    rw [decodeShownLine_hsync]
    exact shownHsync_lt e line st
  · refine decodeLines_induction_shown (P := fun st => scratchTailZero st.scratch) tail
      fun st line beg fin h i past => ?_
    rw [decodeShownLine_scratch, shownDemod, (demodLine_scratch _ _ _ _ _ _).2 i (.inr past)]
    exact h i past
  · exact decodeLines_induction (P := fun st => XMem.wf st.xmem) xmem fun st n _ h => decodeLine_wf cfg e st (21 + n) h

/-- The update of the state that DECODE makes keeps the invariant when its parts are in order. -/
theorem stateInv_decodedState {s : State} {b : SignalBuffers} {n : NoiseState} {v : VSync} {st : LineState}
    (inv : stateInv cfg s) (hs : s.signal = some b)
    (inp : Memory.wf (memoryOf n.inp) ∧ keysBelow (inputSize cfg) (memoryOf n.inp) ∧
      ∀ p ∈ memoryOf n.inp, p.2 ≠ 0x80#8)
    (vsync : v.cand < 262)
    (lines : st.hsync.toNat < 910 ∧ scratchTailZero st.scratch ∧ XMem.wf st.xmem) :
    stateInv cfg (decodedState s b n v st) := by
  have ⟨_, _, _, memories⟩ := inv
  obtain ⟨⟨analog, analogBelow, -⟩, -⟩ := memories b hs
  obtain ⟨inpWf, inpBelow, least⟩ := inp
  obtain ⟨hsync, tail, xmem⟩ := lines
  have vertical : (ofCount v.cand).toNat < 262 := by rwa [ofCount_toNat (by omega)]
  exact stateInv_signal inv hs rfl ⟨hsync, vertical⟩ xmem (decodedState_signal s b n v st)
    ⟨analog, analogBelow, inpWf, inpBelow, least, scratchOf_wf _, scratchOf_keysBelow tail⟩ rfl rfl

/-- DECODE keeps the invariant. -/
theorem stateInv_decodeField {s : State} {b : SignalBuffers} (inv : stateInv cfg s) (hs : s.signal = some b) :
    stateInv cfg (decodeField cfg s b) := by
  have ⟨_, ⟨hsync, _⟩, xmem, memories⟩ := inv
  obtain ⟨⟨-, -, -, -, -, scratch, scratchBelow⟩, -⟩ := memories b hs
  rw [decodeField_eq]
  exact stateInv_decodedState inv hs (decodedInp_ok s b) (decodeVSync_lt s b)
    (decodeLines_inv (frameEnv s b) (st := firstLineState cfg s b) hsync
      (triplesOf_tailZero scratch scratchBelow) xmem)

/-! ## Every command -/

/-- A command keeps the invariant: one that writes registers alone writes nothing the invariant reads. -/
theorem stateInv_exec {i : Instr} {s t : State} (inv : stateInv cfg s) (run : exec i s = .next t) :
    stateInv cfg t := by
  cases i with
  | nop => cases run; exact inv
  | sincos14 =>
    rw [exec_sincos14] at run; cases run
    exact stateInv_congr inv rfl rfl rfl rfl rfl rfl rfl
  | expx =>
    rw [exec_expx] at run; cases run
    exact stateInv_congr inv rfl rfl rfl rfl rfl rfl rfl
  | iirInit k =>
    rw [exec_iirInit] at run; cases run
    exact stateInv_congr inv rfl rfl rfl rfl rfl rfl rfl
  | iirReset k =>
    rw [exec_iirReset] at run; cases run
    exact stateInv_congr inv rfl rfl rfl rfl rfl rfl rfl
  | iirStep k =>
    rw [exec_iirStep] at run; cases run
    exact stateInv_congr inv rfl rfl rfl rfl rfl rfl rfl
  | eqInit k =>
    rw [exec_eqInit] at run; cases run
    exact stateInv_congr inv rfl rfl rfl rfl rfl rfl rfl
  | eqReset k =>
    rw [exec_eqReset] at run; cases run
    exact stateInv_congr inv rfl rfl rfl rfl rfl rfl rfl
  | eqStep k =>
    rw [exec_eqStep] at run; cases run
    exact stateInv_congr inv rfl rfl rfl rfl rfl rfl rfl
  | crtInit =>
    rcases execCrtInit_cases run with ⟨ok, rfl⟩ | ⟨-, rfl⟩
    · exact stateInv_initialise inv ok
    · exact stateInv_raise inv .arg
  | crtResize =>
    rcases execCrtResize_cases run with ⟨ok, rfl⟩ | ⟨-, rfl⟩
    · exact stateInv_setRaster inv ok
    · exact stateInv_raise inv .arg
  | crtReset =>
    rw [exec_crtReset] at run; cases run
    obtain ⟨idle, -, rest⟩ := inv
    exact ⟨idle, zeroTrackers_ok, rest⟩
  | encode =>
    rcases execEncode_cases run with ⟨-, rfl⟩ | ⟨b, hs, ⟨-, rfl⟩ | ⟨ok, -⟩⟩
    · exact stateInv_raise inv .seq
    · exact stateInv_raise inv .arg
    · obtain ⟨hw, hh⟩ := (encodeArgsOk_iff s).1 ok
      obtain rfl := Host.Outcome.next.inj (run.symm.trans (exec_encode_of_some hs hw hh))
      exact stateInv_encodedState inv hs (pictureRows_size s b 232)
  | decode =>
    rcases execDecode_cases run with ⟨-, rfl⟩ | ⟨b, hs, rfl⟩
    · exact stateInv_raise inv .seq
    · exact stateInv_decodeField inv hs
  | rdsig buf =>
    rcases execRdsig_cases run with ⟨-, rfl⟩ | ⟨b, -, ⟨-, rfl⟩ | ⟨-, rfl⟩⟩
    · exact stateInv_raise inv .seq
    · exact stateInv_raise inv .arg
    · exact stateInv_congr inv rfl rfl rfl rfl rfl rfl rfl
  | wrsig buf =>
    rcases execWrsig_cases run with ⟨-, rfl⟩ | ⟨-, -, rfl⟩ | ⟨b, -, hs, ⟨-, rfl⟩ | ⟨ok, rfl⟩⟩
    · exact stateInv_raise inv .ill
    · exact stateInv_raise inv .seq
    · exact stateInv_raise inv .arg
    · have ⟨_, trackers, xmem, memories⟩ := inv
      exact stateInv_signal inv hs rfl trackers xmem rfl (wrsigBuffers_ok (memories b hs).1 ok _) rfl rfl

/-! ## Every step -/

/-- A register write: the host's tracker values are reduced (R25), every other register is outside the invariant. -/
theorem stateInv_writeReg {s : State} (inv : stateInv cfg s) (r : Reg) (v : Word) :
    stateInv cfg (writeReg cfg s r v) := by
  have ⟨idle, ⟨hsync, vsync⟩, rest⟩ := inv
  cases r with
  | hsync => exact ⟨idle, ⟨pmodWord_lt v (by decide) (by decide), vsync⟩, rest⟩
  | vsync => exact ⟨idle, ⟨hsync, pmodWord_lt v (by decide) (by decide)⟩, rest⟩
  | _ => exact stateInv_congr inv rfl rfl rfl rfl rfl rfl rfl

/-- A host write to XMEM keeps its form canonical. -/
theorem stateInv_xmemWrite {s : State} (inv : stateInv cfg s) (a v : Word) :
    stateInv cfg { s with xmem := XMem.write s.xmem a v } := by
  obtain ⟨idle, trackers, xmem, memories⟩ := inv
  exact ⟨idle, trackers, xmem_write_wf xmem a v, memories⟩

/-- Hardware reset starts from the reset column and keeps XMEM. -/
theorem stateInv_hardwareReset {s : State} (inv : stateInv cfg s) : stateInv cfg (hardwareReset s) := by
  obtain ⟨-, -, xmem, -⟩ := inv
  obtain ⟨idle, trackers, -, memories⟩ := invariantHoldsAtReset
  exact ⟨idle, trackers, xmem, memories⟩

/-- The issue of a word runs its command, or raises `ERR_ILL`. -/
theorem stateInv_issue {w : Word} {s t : State} (inv : stateInv cfg s) (run : issue w s = .next t) :
    stateInv cfg t := by
  have stored : stateInv cfg { s with cmd := w } := inv
  rcases issue_cases w s with ⟨e, -, ill⟩ | ⟨i, -, command⟩
  · cases ill.symm.trans run
    exact stateInv_raise stored .ill
  · exact stateInv_exec stored (command.symm.trans run)

/-- Settles O50: by the ways a host operation can change the machine. -/
theorem everyStepKeepsTheInvariant : Obligations.EveryStepKeepsTheInvariant := by
  intro s t inv run
  rcases ops : s.hostOps with _ | ⟨op, rest⟩
  · rw [step, nextStep, ops] at run
    cases run
    exact inv
  rw [step_of_op ops] at run
  have taken : stateInv cfg { s with hostOps := rest } := inv
  rcases hostStep_cases run with ⟨w, -, -, issued⟩ | ⟨r, v, rfl⟩ | rfl | rfl | ⟨v, rfl | rfl⟩ | ⟨a, v, rfl⟩ | ⟨-, rfl⟩
  · exact stateInv_issue taken issued
  · exact stateInv_writeReg taken r v
  · exact taken
  · exact stateInv_raise taken .busy
  · exact stateInv_congr taken rfl rfl rfl rfl rfl rfl rfl
  · exact stateInv_congr (stateInv_raise taken .busy) rfl rfl rfl rfl rfl rfl rfl
  · exact stateInv_xmemWrite taken a v
  · exact stateInv_hardwareReset taken

end Sys2Proof.Machine
end

section
/-! 40_fixedmath.md R93 and R95, and the corner cases of 41_iir.md and 42_eq.md. -/

namespace Sys2Proof.Machine

/-! ## The symmetries of `sincos14` (R93) -/

/-- Half a turn on negates the sine. -/
theorem turnSine_half {m : Nat} (hm : m < 16384) : turnSine ((m + 8192) % 16384) = -turnSine m := by
  rw [turnSine_eq_half m, turnSine_eq_half ((m + 8192) % 16384)]
  rcases Nat.lt_or_ge m 8192 with low | high
  · rw [if_pos (by omega), if_neg (by omega), show (m + 8192) % 16384 % 8192 = m % 8192 by omega]
  · rw [if_neg (by omega), if_pos (by omega), show (m + 8192) % 16384 % 8192 = m % 8192 by omega, neg_neg]

/-- Half a turn on negates the cosine. -/
theorem turnCosine_half {m : Nat} (hm : m < 16384) : turnCosine ((m + 8192) % 16384) = -turnCosine m := by
  rw [turnCosine_eq_half m, turnCosine_eq_half ((m + 8192) % 16384)]
  rcases Nat.lt_or_ge m 8192 with low | high
  · rw [if_pos (by omega), if_neg (by omega), show (m + 8192) % 16384 % 8192 = m % 8192 by omega]
  · rw [if_neg (by omega), if_pos (by omega), show (m + 8192) % 16384 % 8192 = m % 8192 by omega, neg_neg]

/-- On the first half turn the cosine is the sine a quarter turn on. -/
theorem turnCosine_eq_turnSine_of_lt_half {m : Nat} (hm : m < 8192) : turnCosine m = turnSine (m + 4096) := by
  rw [turnCosine_of_lt_half hm]
  split_ifs with second
  · rw [show m + 4096 = (m - 4096 + 8192) % 16384 by omega, turnSine_half (by omega),
      turnSine_of_lt_half (by omega), if_neg (by omega)]
  · rw [turnSine_of_lt_half (by omega), if_pos (by omega), show 8192 - (m + 4096) = 4096 - m by omega]

/-- The cosine is the sine a quarter turn on. -/
theorem turnCosine_eq_turnSine {m : Nat} (hm : m < 16384) : turnCosine m = turnSine ((m + 4096) % 16384) := by
  rcases Nat.lt_or_ge m 8192 with low | high
  · rw [turnCosine_eq_turnSine_of_lt_half low, Nat.mod_eq_of_lt (by omega)]
  · have half : (m - 8192 + 8192) % 16384 = m := by omega
    have quarter : (m - 8192 + 4096 + 8192) % 16384 = (m + 4096) % 16384 := by omega
    have cosine := turnCosine_half (m := m - 8192) (by omega)
    have sine := turnSine_half (m := m - 8192 + 4096) (by omega)
    rw [half] at cosine
    rw [quarter] at sine
    rw [cosine, sine, turnCosine_eq_turnSine_of_lt_half (by omega)]

/-- The place of a later operand in its turn. -/
theorem turn_add (n : Word) (k : Nat) :
    (n + BitVec.ofNat 32 k).toNat % 16384 = (n.toNat % 16384 + k) % 16384 := by
  rw [BitVec.toNat_add, BitVec.toNat_ofNat]
  omega

/-- Settles O8: each symmetry is that of the sine and cosine of one turn. -/
theorem sincos14PeriodAndSymmetries : Obligations.Sincos14PeriodAndSymmetries := by
  have inTurn (n : Word) : n.toNat % 16384 < 16384 := Nat.mod_lt _ (by decide)
  refine ⟨fun n => ?_, fun n => ⟨?_, ?_⟩, fun n => ?_, by decide⟩
  · rw [sincos14_eq_turn, sincos14_eq_turn, turn_add n 16384, Nat.add_mod_right, Nat.mod_mod]
  · rw [sincos14_eq_turn, sincos14_eq_turn, turn_add n 8192, turnSine_half (inTurn n), BitVec.ofInt_neg]
  · rw [sincos14_eq_turn, sincos14_eq_turn, turn_add n 8192, turnCosine_half (inTurn n), BitVec.ofInt_neg]
  · rw [sincos14_eq_turn, sincos14_eq_turn, turn_add n 4096, turnCosine_eq_turnSine (inTurn n)]

/-! ## One IIR step between its ends (R112) -/

/-- The floored part of a distance, taken with a coefficient of at most 2048, stays inside it. -/
theorem iirMove_between {d c : Int} (hc : 0 ≤ c) (hc' : c ≤ 2048) :
    (0 ≤ d → 0 ≤ d * c / 2048 ∧ d * c / 2048 ≤ d) ∧ (d ≤ 0 → d ≤ d * c / 2048 ∧ d * c / 2048 ≤ 0) := by
  refine ⟨fun hd => ?_, fun hd => ?_⟩
  · have most : d * c ≤ d * 2048 := mul_le_mul_of_nonneg_left hc' hd
    have least : 0 ≤ d * c := mul_nonneg hd hc
    omega
  · have least : d * 2048 ≤ d * c := mul_le_mul_of_nonpos_left hc' hd
    have most : d * c ≤ 0 := mul_nonpos_of_nonpos_of_nonneg hd hc
    omega

/-- Settles O14: inside the envelope the step does not wrap, and moves by part of the distance. -/
theorem iirStepStaysBetweenStateAndInput : Obligations.IirStepStaysBetweenStateAndInput := by
  intro u x c0 c1 near
  obtain ⟨near0, near1⟩ := abs_lt.1 near
  have distance : (x - u.h).toInt = x.toInt - u.h.toInt := sub_toInt (by omega) (by omega)
  obtain ⟨up, down⟩ := iirMove_between (d := x.toInt - u.h.toInt) c0 c1
  have product : ((x - u.h) * u.c).toInt = (x.toInt - u.h.toInt) * u.c.toInt := by
    have size : |(x.toInt - u.h.toInt) * u.c.toInt| ≤ (2 ^ 20 - 1) * 2048 := by
      rw [abs_mul]
      exact mul_le_mul (by omega) (abs_le.2 ⟨by omega, c1⟩) (abs_nonneg _) (by decide)
    obtain ⟨size0, size1⟩ := abs_le.1 size
    rw [mul_toInt, distance] <;> rw [distance] <;> omega
  have move : (sar ((x - u.h) * u.c) 11).toInt = (x.toInt - u.h.toInt) * u.c.toInt / 2048 := by
    rw [sar_toInt, product]
    rfl
  have h0 := BitVec.le_toInt u.h
  have h1 := BitVec.toInt_lt (x := u.h)
  have x0 := BitVec.le_toInt x
  have x1 := BitVec.toInt_lt (x := x)
  have stepped : (iirStep u x).h.toInt = u.h.toInt + (x.toInt - u.h.toInt) * u.c.toInt / 2048 := by
    rw [iirStep, add_toInt, move] <;> rw [move] <;> omega
  rw [stepped]
  omega

/-! ## The equalizer with unity gains (R122) -/

/-- A band inside 16 bits goes through a gain of 65536 unchanged. -/
theorem eqBand_unity {r : Word} (low : -32768 ≤ r.toInt) (high : r.toInt < 32768) : eqBand r 65536#32 = r := by
  have gain : (65536#32 : Word).toInt = 65536 := by decide
  have product : (r * 65536#32).toInt = r.toInt * 65536 := by
    rw [mul_toInt, gain] <;> rw [gain] <;> omega
  refine BitVec.eq_of_toInt_eq ?_
  rw [eqBand, sar_toInt, product]
  omega

/-- Settles O18: the three bands add up to the delayed input. -/
theorem eqUnityGainsGiveTheDelayedInput : Obligations.EqUnityGainsGiveTheDelayedInput := by
  rintro u x g0 g1 g2 ⟨low0, low1⟩ ⟨mid0, mid1⟩ ⟨high0, high1⟩
  have bands : (eqStep u x).out = eqBand (eqStep u x).unit.fL.s3 u.g0 +
      eqBand ((eqStep u x).unit.fH.s3 - (eqStep u x).unit.fL.s3) u.g1 +
      eqBand (u.h2 - (eqStep u x).unit.fH.s3) u.g2 := rfl
  rw [bands, g0, g1, g2, eqBand_unity low0 low1, eqBand_unity mid0 mid1, eqBand_unity high0 high1]
  abel

end Sys2Proof.Machine
end

section
/-! 40_fixedmath.md R95: EXPX as its table passes, its Taylor tail and its reciprocal. -/

namespace Sys2Proof.Machine

/-! ## The Taylor tail (R95) -/

/-- The truncating quotient of two counts. -/
theorem tdiv_ofNat {a b : Nat} (ha : a < 2 ^ 31) (hb : b < 2 ^ 31) :
    tdiv (BitVec.ofNat 32 a) (BitVec.ofNat 32 b) = BitVec.ofNat 32 (a / b) := by
  have quotient : a / b < 2 ^ 31 := lt_of_le_of_lt (Nat.div_le_self a b) ha
  have count {n : Nat} (h : n < 2 ^ 31) : (BitVec.ofNat 32 n).toInt = n := ofCount_toInt h
  refine BitVec.eq_of_toInt_eq ?_
  rw [tdiv_toInt _ _ (.inl (by rw [count ha]; omega)), count ha, count hb, count quotient, Int.natCast_ediv]
  exact Int.tdiv_eq_ediv_of_nonneg (Int.natCast_nonneg a)

/-- The test that ends the Taylor loop, on counts. -/
theorem taylorStop_iff {t n : Nat} (ht : t < 2 ^ 31) (hn : n < 2 ^ 31) (pos : 0 < n) :
    ((BitVec.ofNat 32 t).slt (BitVec.ofNat 32 n) || (BitVec.ofNat 32 t).sle 0#32 ||
      (BitVec.ofNat 32 n).sle 0#32) = true ↔ t < n := by
  have count {n : Nat} (h : n < 2 ^ 31) : (BitVec.ofNat 32 n).toInt = n := ofCount_toInt h
  simp only [Bool.or_eq_true, BitVec.slt_iff_toInt_lt, BitVec.sle_iff_toInt_le, count ht, count hn,
    BitVec.toInt_zero]
  omega

section Terms

variable {term : Nat → Nat} {f : Nat} (first : term 0 = 2048) (next : ∀ i, term (i + 1) = term i * f / 2048)
  (fraction : f < 2048)
include next fraction

/-- Each term is a fraction of the one before. -/
theorem term_antitone : Antitone term := by
  refine antitone_nat_of_succ_le fun i => ?_
  rw [next]
  exact Nat.div_le_of_le_mul (Nat.mul_comm 2048 (term i) ▸ Nat.mul_le_mul_left _ fraction.le)

/-- A term below the factorial that divides it ends the sum: no later one contributes. -/
theorem quotient_eq_zero_of_lt {i k : Nat} (small : term i < i.factorial) (le : i ≤ k) : term k / k.factorial = 0 :=
  Nat.div_eq_of_lt (lt_of_le_of_lt (term_antitone next fraction le) (small.trans_le (Nat.factorial_le le)))

include first

theorem term_le (i : Nat) : term i ≤ 2048 := first ▸ term_antitone next fraction (Nat.zero_le i)

/-- The word of the next term. -/
theorem expMul_term (i : Nat) :
    expMul (BitVec.ofNat 32 (term i)) (BitVec.ofNat 32 f) = BitVec.ofNat 32 (term (i + 1)) := by
  have bound : term i * f ≤ 2048 * 2048 := Nat.mul_le_mul (term_le first next fraction i) fraction.le
  rw [expMul, ← BitVec.ofNat_mul, next, ← BitVec.ofInt_natCast, sar_ofInt 11 (by omega) (by omega),
    ← BitVec.ofInt_natCast]
  norm_cast

/-- One turn of the Taylor loop, from term `j`. -/
theorem expTaylor_succ {n j : Nat} (acc : Nat) (hj : j ≤ 6) :
    expTaylor (BitVec.ofNat 32 f) (n + 1) (j + 1) (BitVec.ofNat 32 (term j)) (BitVec.ofNat 32 acc)
      (BitVec.ofNat 32 j.factorial) =
    if term (j + 1) < (j + 1).factorial then BitVec.ofNat 32 (acc + term j / j.factorial)
    else expTaylor (BitVec.ofNat 32 f) n (j + 2) (BitVec.ofNat 32 (term (j + 1)))
      (BitVec.ofNat 32 (acc + term j / j.factorial)) (BitVec.ofNat 32 (j + 1).factorial) := by
  have termBound := term_le first next fraction
  have below : (j + 1).factorial ≤ 5040 := Nat.factorial_le (show j + 1 ≤ 7 by omega)
  have below' : j.factorial ≤ 5040 := Nat.factorial_le (show j ≤ 7 by omega)
  have divisor : BitVec.ofNat 32 j.factorial * ofCount (j + 1) = BitVec.ofNat 32 (j + 1).factorial := by
    rw [ofCount, ← BitVec.ofNat_mul, Nat.factorial_succ, Nat.mul_comm]
  have quotient : tdiv (BitVec.ofNat 32 (term j)) (BitVec.ofNat 32 j.factorial) =
      BitVec.ofNat 32 (term j / j.factorial) :=
    tdiv_ofNat (lt_of_le_of_lt (termBound j) (by decide)) (lt_of_le_of_lt below' (by decide))
  have stop := taylorStop_iff (lt_of_le_of_lt (termBound (j + 1)) (by decide)) (lt_of_le_of_lt below (by decide))
    (Nat.factorial_pos (j + 1))
  simp only [expTaylor, expMul_term first next fraction, divisor, quotient, ← BitVec.ofNat_add, stop]

/-- The Taylor loop from term `j` on: it adds the quotients of the terms up to the seventh, and the terms after the
one at which it stops have quotient 0. -/
theorem expTaylor_eq {d j : Nat} (acc : Nat) (last : j + d = 6) :
    expTaylor (BitVec.ofNat 32 f) (d + 10) (j + 1) (BitVec.ofNat 32 (term j)) (BitVec.ofNat 32 acc)
      (BitVec.ofNat 32 j.factorial) =
    BitVec.ofNat 32 (acc + ∑ k ∈ Finset.range (d + 1), term (j + k) / (j + k).factorial) := by
  have bound := term_le first next fraction
  induction d generalizing j acc with
  | zero =>
    obtain rfl : j = 6 := last
    rw [expTaylor_succ first next fraction acc le_rfl,
      if_pos (lt_of_le_of_lt (bound 7) (by decide)), Finset.sum_range_one]
  | succ d ih =>
    rw [expTaylor_succ first next fraction acc (by omega : j ≤ 6)]
    have split : ∑ k ∈ Finset.range (d + 1 + 1), term (j + k) / (j + k).factorial =
        term j / j.factorial + ∑ k ∈ Finset.range (d + 1), term (j + 1 + k) / (j + 1 + k).factorial := by
      rw [Finset.sum_range_succ', Nat.add_comm]
      simp only [Nat.add_zero, Nat.add_assoc, Nat.add_comm 1]
    rw [split, ← Nat.add_assoc]
    split_ifs with small
    · rw [Finset.sum_eq_zero fun k _ => quotient_eq_zero_of_lt next fraction small (Nat.le_add_right (j + 1) k),
        Nat.add_zero]
    · exact ih _ (by omega)

end Terms

/-! ## The table passes (R95) -/

/-- The passes over EXPTAB[4]. -/
theorem expScale_eq (n : Nat) (r : Word) :
    expScale cfg n r = (fun r : Word => (r * 111817#32).sshiftRight 11)^[n] r := by
  induction n generalizing r with
  | zero => rfl
  | succ n ih =>
    rw [Function.iterate_succ_apply, ← ih]
    rfl

/-- The Taylor tail of a fraction: the loop makes its seven quotients and no more. -/
theorem expTaylor_tail {term : Nat → Nat} {f : Nat} (first : term 0 = 2048)
    (next : ∀ i, term (i + 1) = term i * f / 2048) (fraction : f < 2048) :
    expTaylor (BitVec.ofNat 32 f) 16 1 expOne 0#32 1#32 = BitVec.ofNat 32 (term 0 + term 1 + term 2 / 2 + term 3 / 6 +
      term 4 / 24 + term 5 / 120 + term 6 / 720) := by
  have loop := expTaylor_eq first next fraction (d := 6) (j := 0) 0 rfl
  rw [first] at loop
  refine loop.trans (congrArg (BitVec.ofNat 32) ?_)
  simp only [Finset.sum_range_succ, Finset.sum_range_zero, Nat.zero_add, Nat.factorial, Nat.div_one, Nat.mul_one,
    Nat.reduceAdd]

/-- The exponential of a positive operand: table passes over its integer part, times its Taylor tail. -/
theorem expPositive_eq {n : Word} (pos : 0 < n.toInt) : expPositive cfg n =
    expMul (if 0 < n.toNat / 2048 % 4
      then expMul ((fun r : Word => (r * 111817#32).sshiftRight 11)^[n.toNat / 8192] 2048#32)
        (expEntry cfg (n.toNat / 2048 % 4))
      else (fun r : Word => (r * 111817#32).sshiftRight 11)^[n.toNat / 8192] 2048#32)
    (expTaylor (BitVec.ofNat 32 (n.toNat % 2048)) 16 1 expOne 0#32 1#32) := by
  have whole : sar n 11 = BitVec.ofNat 32 (n.toNat / 2048) := by
    refine BitVec.eq_of_toInt_eq ?_
    have bound := n.isLt
    rw [sar_toInt, toInt_eq_toNat_of_nonneg pos.le]
    exact (ofCount_toInt (n := n.toNat / 2048) (by omega)).symm
  have passes : countOf (tdiv (sar n 11) 4#32) = n.toNat / 8192 := by
    have bound := n.isLt
    rw [whole, show (4#32 : Word) = BitVec.ofNat 32 4 from rfl, tdiv_ofNat (by omega) (by decide),
      Nat.div_div_eq_div_mul]
    exact countOf_ofCount (n := n.toNat / 8192) (by omega)
  have entry : (sar n 11 &&& 3#32).toNat = n.toNat / 2048 % 4 := by
    have bound := n.isLt
    rw [show (sar n 11 &&& 3#32).toNat = (sar n 11).toNat % 4 from toNat_and_mask (sar n 11) (k := 2) (by decide),
      whole, BitVec.toNat_ofNat]
    omega
  have fraction : n &&& 2047#32 = BitVec.ofNat 32 (n.toNat % 2048) := by
    refine BitVec.eq_of_toNat_eq ?_
    rw [show (n &&& 2047#32).toNat = n.toNat % 2048 from toNat_and_mask n (k := 11) (by decide), BitVec.toNat_ofNat]
    omega
  rw [expPositive, passes, entry, fraction, expScale_eq]
  rfl

/-! ## The three signs of the operand -/

theorem expx_zero : expx cfg 0#32 = { val := 2048#32, divz := false } := rfl

theorem expx_of_pos {n : Word} (pos : 0 < n.toInt) : expx cfg n = { val := expPositive cfg n, divz := false } := by
  have nonzero : n ≠ 0#32 := fun zero => by simp [zero] at pos
  have nonneg : ¬ n.slt 0#32 = true := by
    rw [BitVec.slt_iff_toInt_lt, BitVec.toInt_zero]
    omega
  rw [expx, if_neg nonzero, if_neg nonneg]

/-- A negative operand gives the reciprocal of the exponential of its negation, that of −2^31 included, which is its own
negation. -/
theorem expx_of_neg {n : Word} (neg : n.toInt < 0) : expx cfg n =
    { val := BitVec.sdiv 4194304#32 (expx cfg (-n)).val, divz := (expx cfg (-n)).val == 0#32 } := by
  by_cases least : n = 0x80000000#32
  · subst least
    decide
  have nonzero : n ≠ 0#32 := fun zero => by simp [zero] at neg
  have negative : n.slt 0#32 = true := by rwa [BitVec.slt_iff_toInt_lt, BitVec.toInt_zero]
  have pos : 0 < (-n).toInt := by
    have bound := BitVec.le_toInt n
    have ne : n.toInt ≠ (0x80000000#32 : Word).toInt := fun same => least (BitVec.eq_of_toInt_eq same)
    rw [show (0x80000000#32 : Word).toInt = -2147483648 by decide] at ne
    rw [show -n = 0#32 - n from (BitVec.zero_sub n).symm, sub_toInt] <;> rw [BitVec.toInt_zero] <;> omega
  rw [expx_of_pos pos, expx, if_neg nonzero, if_pos negative]
  rfl

/-- Settles O10. -/
theorem expxCompletesAndReciprocates : Obligations.ExpxCompletesAndReciprocates := by
  intro s
  refine ⟨fun zero => ?_, fun nonneg => ?_, fun fours whole term pos passes table first next => ?_, fun neg => ?_⟩
  · exact exec_expx_of_divz_false (by rw [zero, expx_zero])
  · refine exec_expx_of_divz_false ?_
    rcases nonneg.eq_or_lt with zero | pos
    · rw [show s.args.a0 = 0#32 from BitVec.eq_of_toInt_eq (by rw [← zero, BitVec.toInt_zero]), expx_zero]
    · rw [expx_of_pos pos]
  · refine exec_expx_of_divz_false ?_
    have entry : whole = if 0 < s.args.a0.toNat / 2048 % 4 then expMul fours (expEntry cfg (s.args.a0.toNat / 2048 % 4))
        else fours := by
      have four : s.args.a0.toNat / 2048 % 4 < 4 := Nat.mod_lt _ (by decide)
      rw [table]
      generalize s.args.a0.toNat / 2048 % 4 = k at four
      interval_cases k <;> rfl
    rw [expx_of_pos pos, expPositive_eq pos, ← passes, ← entry,
      expTaylor_tail first next (Nat.mod_lt _ (by decide))]
    rfl
  · rw [exec_expx, expx_of_neg neg]

end Sys2Proof.Machine
end

section
/-! 30_encoding.md R76, 41_iir.md R110 to R112, 45_control.md R200 to R204 and 43_encoder.md R138: the illegal word,
the filter commands, the control commands and the colour matrix. -/

namespace Sys2Proof.Machine

/-! ## An illegal word (R76) -/

/-- Settles O3: a word that is not legal by the tables does not decode, so its issue is the refusal. -/
theorem illegalWordOnlySetsErrIll : Obligations.IllegalWordOnlySetsErrIll := by
  intro s w rest op idle illegal
  rw [step_of_command op idle]
  rcases issue_cases w { s with hostOps := rest } with ⟨e, -, run⟩ | ⟨i, decoded, -⟩
  · exact run
  · exact absurd (legalWord_of_decode decoded) (Bool.eq_false_iff.1 illegal)

/-! ## The filter commands without a division (R111, R112) -/

/-- Settles O12: the command stores the reset unit in the named channel. -/
theorem iirResetZeroesTheAccumulator : Obligations.IirResetZeroesTheAccumulator := by
  refine ⟨by decide, fun s k => ⟨_, exec_iirReset k s, rfl, ?_, fun j hj => ?_⟩⟩
  · exact channelGet_channelSet_self ..
  · exact channelGet_channelSet_of_ne _ _ hj

/-- Settles O13: the command stores the stepped unit in the named channel and its `h` in `RES0`. -/
theorem iirStepFiltersOneSample : Obligations.IirStepFiltersOneSample := by
  refine ⟨by decide, fun s k c h h' unit step => ?_⟩
  have stepped : iirStep (channelGet s.iir k) s.args.a0 = { c := c, h := h' } := by
    rw [unit, step]; rfl
  refine ⟨_, exec_iirStep k s, ?_, ?_, fun j hj => ?_⟩
  · rw [stepped]
  · rw [stepped]; exact channelGet_channelSet_self ..
  · exact channelGet_channelSet_of_ne _ _ hj

/-! ## The coefficients CRT_INIT builds (R113, R123) -/

/-- The equalizers built at the default configuration have the coefficients and gains of R123. -/
theorem builtEqs_cfg : builtEqs cfg =
    { y := { lf := 42156#32, hf := 79824#32, g0 := 65536#32, g1 := 8192#32, g2 := 9175#32
             fL := zeroCascade, fH := zeroCascade, h0 := 0#32, h1 := 0#32, h2 := 0#32 }
      i := { lf := 2252#32, hf := 32636#32, g0 := 65536#32, g1 := 65536#32, g2 := 1311#32
             fL := zeroCascade, fH := zeroCascade, h0 := 0#32, h1 := 0#32, h2 := 0#32 }
      q := { lf := 2252#32, hf := 28248#32, g0 := 65536#32, g1 := 65536#32, g2 := 0#32
             fL := zeroCascade, fH := zeroCascade, h0 := 0#32, h1 := 0#32, h2 := 0#32 } } := by
  decide

/-- The filters built at the default configuration have the coefficients of R113. -/
theorem builtIirs_cfg : builtIirs cfg = ⟨⟨1233#32, 0#32⟩, ⟨574#32, 0#32⟩, ⟨232#32, 0#32⟩⟩ := by
  decide

/-! ## The control commands, each as its check and its update (R200 to R204) -/

/-- CRT_INIT's whole effect as one update of the state (R200). -/
theorem initialise_as_update (c : Cfg) (s : State) : initialise c s = { s with
    signal := some zeroBuffers
    ccref := zeroQuad, rn := rnInit, fieldDet := 0#1
    outw := s.args.a0, outh := s.args.a1, outBase := s.args.a2
    tuning := defaultTuning, hsync := 0#32, vsync := 0#32
    eq := builtEqs c, iir := builtIirs c } := rfl

theorem exec_crtInit (s : State) : exec .crtInit s =
    if rasterArgsOk s then .next (initialise cfg s) else refuseWith .arg s := rfl

theorem exec_crtResize (s : State) : exec .crtResize s =
    if rasterArgsOk s then .next (setRaster s) else refuseWith .arg s := rfl

/-- The raster check fails exactly when an operand is below 1. -/
theorem rasterArgsOk_eq_false_iff (s : State) :
    rasterArgsOk s = false ↔ s.args.a0.toInt < 1 ∨ s.args.a1.toInt < 1 := by
  rw [← Bool.not_eq_true, rasterArgsOk_iff]
  omega

/-- The sample check fails exactly when the line or the column is outside the buffer. -/
theorem sigArgsOk_eq_false_iff (s : State) : sigArgsOk cfg s = false ↔
    s.args.a0.toInt < 0 ∨ 262 ≤ s.args.a0.toInt ∨ s.args.a1.toInt < 0 ∨ 910 ≤ s.args.a1.toInt := by
  rw [← Bool.not_eq_true, sigArgsOk_iff]
  omega

/-- A command whose operand check fails sets `ERR_ARG` alone, whatever it would have done. -/
theorem checked_of_false {ok : Bool} (s : State) (done : Host.Outcome State Fault Refusal) (h : ok = false) :
    (if ok then done else refuseWith .arg s) =
      .next { s with flags := { s.flags with errArg := true } } :=
  if_neg (Bool.eq_false_iff.1 h)

theorem exec_rdsig_of_some (buf : SigBuf) {s : State} {b : SignalBuffers} (hs : s.signal = some b) :
    exec (.rdsig buf) s =
      if sigArgsOk cfg s then
        .next { s with res0 := sext8 (Memory.read (bufferOf buf b) (sigArgIndex cfg s)) }
      else refuseWith .arg s := by
  simp only [exec, execRdsig, hs]

theorem exec_wrsig_analog_of_some {s : State} {b : SignalBuffers} (hs : s.signal = some b) :
    exec (.wrsig .analog) s =
      if sigArgsOk cfg s then
        .next { s with signal := some { b with
          analog := Memory.write b.analog (sigArgIndex cfg s) (low8 s.args.a2) } }
      else refuseWith .arg s := by
  simp only [exec, execWrsig, hs]

/-! ## The obligations on the control commands -/

/-- Settles O19: the raster check decides, and the filters built are those of the printed coefficients. -/
theorem crtInitStartsTheMachineOver : Obligations.CrtInitStartsTheMachineOver := by
  refine ⟨by decide, fun s => ⟨fun legal => ?_, fun illegal => ?_, fun _ => ⟨rfl, rfl⟩⟩⟩
  · rw [exec_crtInit, if_pos ((rasterArgsOk_iff s).2 legal), initialise_as_update, builtEqs_cfg, builtIirs_cfg]
    rfl
  · rw [exec_crtInit, checked_of_false s _ ((rasterArgsOk_eq_false_iff s).2 illegal)]

/-- Settles O20: the raster check decides, whether or not the machine is initialised. -/
theorem crtResizeRebindsTheRaster : Obligations.CrtResizeRebindsTheRaster := by
  refine ⟨by decide, fun s => ⟨fun legal => ?_, fun illegal => ?_⟩⟩
  · rw [exec_crtResize, if_pos ((rasterArgsOk_iff s).2 legal), setRaster]
  · rw [exec_crtResize, checked_of_false s _ ((rasterArgsOk_eq_false_iff s).2 illegal)]

/-- Settles O21: the command has no check. -/
theorem crtResetRestoresTuningAndSync : Obligations.CrtResetRestoresTuningAndSync :=
  ⟨by decide, exec_crtReset⟩

/-- Settles O22: the sequence check comes first, then the range check; legal operands name the sample of R50. -/
theorem rdsigReadsOneSample : Obligations.RdsigReadsOneSample := by
  refine ⟨by decide, fun s buf => ⟨fun none => ?_, fun b hs => ⟨fun legal => ?_, fun illegal => ?_⟩⟩⟩
  · exact exec_seq (i := .rdsig buf) rfl rfl none
  · have ok := (sigArgsOk_iff s).2 legal
    obtain ⟨index, -⟩ := sigArgIndex_eq ok
    rw [exec_rdsig_of_some buf hs, if_pos ok, index]
    rfl
  · rw [exec_rdsig_of_some buf hs, checked_of_false s _ ((sigArgsOk_eq_false_iff s).2 illegal)]

/-- Settles O23: as RDSIG, and the store changes the sample at its index alone. -/
theorem wrsigWritesOneSample : Obligations.WrsigWritesOneSample := by
  refine ⟨by decide, fun s => ⟨fun none => ?_, fun b hs => ⟨fun legal => ?_, fun illegal => ?_⟩⟩⟩
  · exact exec_seq (i := .wrsig .analog) rfl rfl none
  · have ok := (sigArgsOk_iff s).2 legal
    obtain ⟨index, -⟩ := sigArgIndex_eq ok
    refine ⟨Memory.write b.analog (sigArgIndex cfg s) (low8 s.args.a2), ?_, fun i => ?_⟩
    · rw [exec_wrsig_analog_of_some hs, if_pos ok]
    · rw [index, memory_read_write, low8]
  · rw [exec_wrsig_analog_of_some hs, checked_of_false s _ ((sigArgsOk_eq_false_iff s).2 illegal)]

/-! ## The colour matrix on integers (R138) -/

theorem redOf_eq (p : Word) : redOf p = BitVec.ofInt 32 (p.toNat / 65536 % 256 : Nat) := by
  rw [BitVec.ofInt_natCast]
  refine BitVec.eq_of_toNat_eq ?_
  simp [redOf, Nat.shiftRight_eq_div_pow]

theorem greenOf_eq (p : Word) : greenOf p = BitVec.ofInt 32 (p.toNat / 256 % 256 : Nat) := by
  rw [BitVec.ofInt_natCast]
  refine BitVec.eq_of_toNat_eq ?_
  simp [greenOf, Nat.shiftRight_eq_div_pow]

theorem blueOf_eq (p : Word) : blueOf p = BitVec.ofInt 32 (p.toNat % 256 : Nat) := by
  rw [BitVec.ofInt_natCast]
  refine BitVec.eq_of_toNat_eq ?_
  simp [blueOf]

/-- One channel as a floored quotient, for coefficients whose products with the bytes of two pixels fit 32 bits. -/
theorem matrixSum_toInt {kr kg kb : Word} {cr cg cb r g b : Int} {p p' : Word}
    (hr : kr = BitVec.ofInt 32 cr) (hg : kg = BitVec.ofInt 32 cg) (hb : kb = BitVec.ofInt 32 cb)
    (red : r = (p.toNat / 65536 % 256 : Nat) + (p'.toNat / 65536 % 256 : Nat))
    (green : g = (p.toNat / 256 % 256 : Nat) + (p'.toNat / 256 % 256 : Nat))
    (blue : b = (p.toNat % 256 : Nat) + (p'.toNat % 256 : Nat))
    (lower : -2147483648 ≤ cr * r + cg * g + cb * b) (upper : cr * r + cg * g + cb * b < 2147483648) :
    (matrixSum kr kg kb p p').toInt = (cr * r + cg * g + cb * b) / 32768 := by
  have products : kr * redOf p + kg * greenOf p + kb * blueOf p + kr * redOf p' + kg * greenOf p' + kb * blueOf p' =
      BitVec.ofInt 32 (cr * r + cg * g + cb * b) := by
    simp only [hr, hg, hb, redOf_eq, greenOf_eq, blueOf_eq, ← BitVec.ofInt_mul, ← BitVec.ofInt_add, red, green, blue]
    congr 1
    ring
  rw [matrixSum, products, sar_toInt, BitVec.toInt_ofInt_eq_self (by decide) lower upper]
  rfl

/-- Settles O27: each byte sum is at most 510, so no channel wraps and the ranges are those of its coefficients. -/
theorem matrixSumsTwoPixels : Obligations.MatrixSumsTwoPixels := by
  intro p p' r g b
  have redBound : 0 ≤ r ∧ r ≤ 510 := by omega
  have greenBound : 0 ≤ g ∧ g ≤ 510 := by omega
  have blueBound : 0 ≤ b ∧ b ≤ 510 := by omega
  have y : (rgb2yiqSum p p').y.toInt = (19595 * r + 38470 * g + 7471 * b) / 32768 :=
    matrixSum_toInt (kr := 19595#32) (kg := 38470#32) (kb := 7471#32) (by decide) (by decide) (by decide)
      rfl rfl rfl (by omega) (by omega)
  have i : (rgb2yiqSum p p').i.toInt = (39059 * r + -18022 * g + -21103 * b) / 32768 :=
    matrixSum_toInt (kr := 39059#32) (kg := -18022#32) (kb := -21103#32) (by decide) (by decide) (by decide)
      rfl rfl rfl (by omega) (by omega)
  have q : (rgb2yiqSum p p').q.toInt = (13894 * r + -34275 * g + 20382 * b) / 32768 :=
    matrixSum_toInt (kr := 13894#32) (kg := -34275#32) (kb := 20382#32) (by decide) (by decide) (by decide)
      rfl rfl rfl (by omega) (by omega)
  omega

end Sys2Proof.Machine
end

section
/-! 41_iir.md R110: of the three divisions of IIR_INIT only those by `limit` and by `rate` can be by zero, since the
exponential of a ratio it divides by is never 0. -/

namespace Sys2Proof.Machine

/-! ## The exponential below 10240, where its parts stay small (R95) -/

theorem toNat_lt_of_toInt_pos {a : Word} (h : 0 < a.toInt) : a.toNat < 2 ^ 31 := by
  rw [BitVec.toInt_eq_toNat_cond] at h
  split at h <;> omega

/-- `EXP_MUL` is 0 only for a product below 2048: one from 2^31 on wraps to a negative value. -/
theorem expMul_ne_zero {x y : Word} (lower : 2048 ≤ x.toNat * y.toNat) (upper : x.toNat * y.toNat < 2 ^ 32) :
    expMul x y ≠ 0#32 := by
  have product : (x * y).toNat = x.toNat * y.toNat := BitVec.toNat_mul_of_lt upper
  intro zero
  have shifted : (x * y).toInt / 2 ^ 11 = 0 := by rw [← sar_toInt, ← expMul, zero]; rfl
  rw [BitVec.toInt_eq_toNat_cond, product] at shifted
  split at shifted <;> omega

/-- The terms of the Taylor tail of the fraction `f`, before their division by the factorials. -/
def expTerm (f : Nat) : Nat → Nat
  | 0 => 2048
  | i + 1 => expTerm f i * f / 2048

/-- The first of the seven terms adds 2048 and none adds more. -/
theorem expTaylor_bounds {f : Nat} (fraction : f < 2048) :
    2048 ≤ (expTaylor (BitVec.ofNat 32 f) 16 1 expOne 0#32 1#32).toNat ∧
      (expTaylor (BitVec.ofNat 32 f) 16 1 expOne 0#32 1#32).toNat ≤ 7 * 2048 := by
  have first : expTerm f 0 = 2048 := rfl
  have bound := term_le first (fun _ => rfl) fraction
  have b1 := bound 1
  have b2 := bound 2
  have b3 := bound 3
  have b4 := bound 4
  have b5 := bound 5
  have b6 := bound 6
  rw [expTaylor_tail first (fun _ => rfl) fraction, BitVec.toNat_ofNat]
  omega

/-- The table passes of R95 for the whole part `idx` of the operand. -/
def expWhole (idx : Nat) : Word :=
  let fours := (fun r : Word => (r * 111817#32).sshiftRight 11)^[idx / 4] 2048#32
  if 0 < idx % 4 then expMul fours (expEntry cfg (idx % 4)) else fours

theorem expPositive_eq_expWhole {n : Word} (pos : 0 < n.toInt) : expPositive cfg n =
    expMul (expWhole (n.toNat / 2048)) (expTaylor (BitVec.ofNat 32 (n.toNat % 2048)) 16 1 expOne 0#32 1#32) := by
  rw [expPositive_eq pos, expWhole, Nat.div_div_eq_div_mul]

theorem expWhole_bounds : ∀ idx < 5, 2048 ≤ (expWhole idx).toNat ∧ (expWhole idx).toNat ≤ 111817 := by
  decide

/-- The bounds of its two parts keep their product between 2048 and 2^32. -/
theorem expPositive_ne_zero_of_lt {n : Word} (pos : 0 < n.toInt) (hn : n.toNat < 10240) :
    expPositive cfg n ≠ 0#32 := by
  obtain ⟨tailLower, tailUpper⟩ := expTaylor_bounds (Nat.mod_lt n.toNat (show 0 < 2048 by decide))
  obtain ⟨wholeLower, wholeUpper⟩ := expWhole_bounds (n.toNat / 2048) (by omega)
  rw [expPositive_eq_expWhole pos]
  refine expMul_ne_zero ?_ ?_
  · exact le_trans (by decide) (Nat.mul_le_mul wholeLower tailLower)
  · exact lt_of_le_of_lt (Nat.mul_le_mul wholeUpper tailUpper) (by decide)

/-! ## The exponential of the ratio (R110) -/

/-- The rates whose ratio can reach 10240, by evaluation: below the rate 258 of R114 the exponential wraps, but never
to 0. -/
theorem expPositive_ne_zero_of_small_rate : ∀ rate < 322, 0 < rate →
    expPositive cfg (tdiv 3294208#32 (ofCount rate)) ≠ 0#32 := by
  decide +kernel

/-- `(EXP_PI << 9) / rate` stays below 10240 from rate 322 on. -/
theorem expPositive_ratio_ne_zero {rate : Word} (hrate : 0 < rate.toInt)
    (pos : 0 < (tdiv 3294208#32 rate).toInt) : expPositive cfg (tdiv 3294208#32 rate) ≠ 0#32 := by
  have bound := toNat_lt_of_toInt_pos hrate
  have count : rate = BitVec.ofNat 32 rate.toNat := by simp
  have value : rate.toInt = rate.toNat := toInt_eq_toNat_of_nonneg hrate.le
  rcases Nat.lt_or_ge rate.toNat 322 with small | large
  · have evaluated := expPositive_ne_zero_of_small_rate rate.toNat small (by omega)
    rwa [ofCount, ← count] at evaluated
  · have ratio : tdiv 3294208#32 rate = ofCount (3294208 / rate.toNat) := by
      rw [count, show (3294208#32 : Word) = BitVec.ofNat 32 3294208 from rfl, tdiv_ofNat (by decide) bound, ← count]
      rfl
    have quotient : 3294208 / rate.toNat ≤ 3294208 / 322 := Nat.div_le_div_left large (by decide)
    refine expPositive_ne_zero_of_lt pos ?_
    rw [ratio, ofCount_toNat (by omega)]
    omega

/-- The exponential inside IIR_INIT divides by zero at no rate: its operand is negative for a positive rate only. -/
theorem expx_neg_ratio_divz (rate : Word) : (expx cfg (-(tdiv 3294208#32 rate))).divz = false := by
  have ratio : (tdiv 3294208#32 rate).toInt = (3294208 : Int).tdiv rate.toInt :=
    tdiv_toInt _ _ (.inl (by decide))
  have magnitude := Int.natAbs_tdiv_le_natAbs 3294208 rate.toInt
  have negated : (-(tdiv 3294208#32 rate)).toInt = -(tdiv 3294208#32 rate).toInt :=
    BitVec.toInt_neg_of_ne_intMin fun least => by
      rw [least, show (BitVec.intMin 32).toInt = -2147483648 by decide] at ratio
      omega
  rcases lt_trichotomy (-(tdiv 3294208#32 rate)).toInt 0 with neg | zero | pos
  · have ratioPos : 0 < (tdiv 3294208#32 rate).toInt := by omega
    have ratePos : 0 < rate.toInt := by
      by_contra nonpositive
      have := Int.tdiv_nonpos_of_nonneg_of_nonpos (a := 3294208) (by decide) (not_lt.1 nonpositive)
      omega
    rw [expx_of_neg neg, neg_neg, expx_of_pos ratioPos]
    exact beq_false_of_ne (expPositive_ratio_ne_zero ratePos ratioPos)
  · rw [show -(tdiv 3294208#32 rate) = 0#32 from BitVec.eq_of_toInt_eq (by rw [zero, BitVec.toInt_zero]), expx_zero]
  · rw [expx_of_pos pos]

/-! ## IIR_INIT (R110) -/

theorem iirInit_cfg_unit (freq limit : Word) : (iirInit cfg freq limit).unit =
    { c := 2048#32 - (expx cfg (-(tdiv 3294208#32 (tdiv (freq <<< 9) limit)))).val, h := 0#32 } := rfl

theorem iirInit_cfg_divz (freq limit : Word) : (iirInit cfg freq limit).divz =
    (limit == 0#32 || tdiv (freq <<< 9) limit == 0#32) := by
  calc (iirInit cfg freq limit).divz
    _ = (limit == 0#32 || tdiv (freq <<< 9) limit == 0#32 ||
          (expx cfg (-(tdiv 3294208#32 (tdiv (freq <<< 9) limit)))).divz) := rfl
    _ = _ := by rw [expx_neg_ratio_divz, Bool.or_false]

/-- Settles O11: the command stores the built unit in the named channel and raises `DIVZ` by `iirInit_cfg_divz`. -/
theorem iirInitBuildsTheCoefficient : Obligations.IirInitBuildsTheCoefficient := by
  refine ⟨by decide, fun s k rate hrate => ⟨_, exec_iirInit k s, ?_, ?_, fun j hj => ?_⟩⟩
  · rw [iirInit_cfg_divz, hrate, Bool.or_assoc]; rfl
  · rw [hrate]; exact (channelGet_channelSet_self ..).trans (iirInit_cfg_unit ..)
  · exact channelGet_channelSet_of_ne _ _ hj

end Sys2Proof.Machine
end
